-- ==== Sys2Proof/Word.lean ====
section
/-! DEFINITION. The word types of the P007-MTS block (spec/00_scope.md R10: all values are unsigned). -/

namespace Sys2Proof

/-- One byte: a port register's value (R67) or a buffer entry (R35). -/
abbrev Byte := BitVec 8

/-- A command word or a host register's value (R36 to R38, R90). -/
abbrev Word := BitVec 32

end Sys2Proof
end

