-- ==== Sys2Proof/Syntax.lean ====
section
/-! DEFINITION. The command set: one constructor of `Instr` per row of spec/opcode_table.json
(30_encoding.md R101), the operands as the formats of R92 to R99 give them, and the assembler's lines
(R106, R107). -/

namespace Sys2Proof

/-- The operating roles, in the source's order (10_state.md R28). -/
inductive Role where
  | masterTransmit
  | masterReceive
  | slaveTransmit
  | slaveReceive
deriving DecidableEq, Repr

/-- The speed classes, in the source's order (30_encoding.md R96). Codes 5 to 7 name no class. -/
inductive SpeedClass where
  | low
  | standard
  | fast
  | fastPlus
  | highSpeed
deriving DecidableEq, Repr

/-- The commands (R101). `addr7` is a 7-bit slave address, `len` a byte count. -/
inductive Instr where
  | config (ps : BitVec 2) (speed : SpeedClass)
  | role (role : Role) (gc : Bool) (own : Byte)
  | start
  | addr (byte : Byte)
  | data (byte : Byte)
  | stop
  | recv (ack : Bool)
  | sendb (addr7 : BitVec 7) (len : Byte)
  | send1 (addr7 : BitVec 7) (byte : Byte)
  | recvb (addr7 : BitVec 7) (len : Byte)
deriving DecidableEq, Repr

/-- The assembler's lines (R106) and pseudo-commands (R107), with their numeric operands as written: the
range checks are the assembler's (log 25). `own` of ROLE may be left out for master roles. -/
inductive AsmLine where
  | config (ps : Nat) (speed : SpeedClass)
  | role (role : Role) (gc : Bool) (own : Option Nat)
  | start
  | addr (byte : Nat)
  | data (byte : Nat)
  | recv (ack : Bool)
  | stop
  | sendb (addr7 len : Nat)
  | send1 (addr7 byte : Nat)
  | recvb (addr7 len : Nat)
  | rstart
  | slaw (addr7 : Nat)
  | slar (addr7 : Nat)
  | recover
deriving DecidableEq, Repr

end Sys2Proof
end

