-- ==== Sys2Proof/WellFormed.lean ====
section
/-! DEFINITION. Which terms of `Instr` are commands (30_encoding.md R103). The operand types already keep
every field within its width; the one further condition is RECVB's length. -/

namespace Sys2Proof

/-- RECVB with LEN = 0 is illegal (R98, R103). Every other term encodes a legal command word. -/
def Instr.wellFormed : Instr → Bool
  | .config _ _ => true
  | .role _ _ _ => true
  | .start => true
  | .addr _ => true
  | .data _ => true
  | .stop => true
  | .recv _ => true
  | .sendb _ _ => true
  | .send1 _ _ => true
  | .recvb _ len => len != 0#8

end Sys2Proof
end

