-- ==== Sys2Proof/Decode.lean ====
section
/-! DEFINITION. The decoder (30_encoding.md R102, total, rejecting by name), the encoder (R92 to R101), the
byte form of a word (20_memory.md R69) and the assembler (R106, R107). -/

namespace Sys2Proof

/-- Why a word encodes no command (R103); `truncated` is for byte strings shorter than one word. -/
inductive DecodeError where
  | illegalOpcode
  | reservedBit
  | reservedSpeedClass
  | zeroLength
  | truncated
deriving DecidableEq, Repr

/-- ROLE's two-bit code (10_state.md R28). -/
def Role.code : Role → BitVec 2
  | .masterTransmit => 0#2
  | .masterReceive => 1#2
  | .slaveTransmit => 2#2
  | .slaveReceive => 3#2

/-- The role a two-bit code names (R28). -/
def Role.ofCode (c : BitVec 2) : Role :=
  if c = 0#2 then .masterTransmit
  else if c = 1#2 then .masterReceive
  else if c = 2#2 then .slaveTransmit
  else .slaveReceive

/-- SPD's code (R96). -/
def SpeedClass.code : SpeedClass → BitVec 3
  | .low => 0#3
  | .standard => 1#3
  | .fast => 2#3
  | .fastPlus => 3#3
  | .highSpeed => 4#3

/-- The speed class a code names; 5, 6 and 7 name none (R96, R103). -/
def SpeedClass.ofCode (c : BitVec 3) : Option SpeedClass :=
  if c = 0#3 then some .low
  else if c = 1#3 then some .standard
  else if c = 2#3 then some .fast
  else if c = 3#3 then some .fastPlus
  else if c = 4#3 then some .highSpeed
  else none

/-- The opcode field OP, bits 3:0 (R91). -/
def opcodeField (w : Word) : BitVec 4 := w.extractLsb' 0 4

/-- BYTE of format B, bits 15:8 (R94). -/
def byteField (w : Word) : Byte := w.extractLsb' 8 8

/-- ADDR7 of formats T and T1, bits 14:8 (R98, R99). -/
def addr7Field (w : Word) : BitVec 7 := w.extractLsb' 8 7

/-- Bits 23:16: OWN of format S, LEN of format T, BYTE of format T1 (R97 to R99). -/
def upperField (w : Word) : Byte := w.extractLsb' 16 8

/-- PS of format C and ROLE of format S, bits 9:8 (R96, R97). -/
def selectField (w : Word) : BitVec 2 := w.extractLsb' 8 2

/-- SPD of format C, bits 14:12 (R96). -/
def speedField (w : Word) : BitVec 3 := w.extractLsb' 12 3

/-- Every bit of the mask is 0 in the word: the reserved bits of a format (R91, R102). -/
def reservedClear (mask w : Word) : Bool := w &&& mask == 0#32

/-- A format's reserved-bit check in front of what the word then decodes to (R102). -/
def checked (mask w : Word) (d : Except DecodeError Instr) : Except DecodeError Instr :=
  if reservedClear mask w then d else .error .reservedBit

/-- CONFIG's operands: format C, with the speed class named (R96, R103). -/
def decodeConfig (w : Word) : Except DecodeError Instr :=
  match SpeedClass.ofCode (speedField w) with
  | some speed => .ok (.config (selectField w) speed)
  | none => .error .reservedSpeedClass

/-- RECVB's operands: format T, LEN at least 1 (R98, R103). -/
def decodeRecvb (w : Word) : Except DecodeError Instr :=
  if upperField w = 0#8 then .error .zeroLength
  else .ok (.recvb (addr7Field w) (upperField w))

/-- `decode(w)` (R102), with the reserved masks as that rule writes them. -/
def decodeCommand (w : Word) : Except DecodeError Instr :=
  if opcodeField w = 0x1#4 then checked 0xFFFF8CF0#32 w (decodeConfig w)
  else if opcodeField w = 0x2#4 then
    checked 0xFF00F8F0#32 w (.ok (.role (Role.ofCode (selectField w)) (w.getLsbD 10) (upperField w)))
  else if opcodeField w = 0x3#4 then checked 0xFFFFFFF0#32 w (.ok .start)
  else if opcodeField w = 0x4#4 then checked 0xFFFF00F0#32 w (.ok (.addr (byteField w)))
  else if opcodeField w = 0x5#4 then checked 0xFFFF00F0#32 w (.ok (.data (byteField w)))
  else if opcodeField w = 0x6#4 then checked 0xFFFFFFF0#32 w (.ok .stop)
  else if opcodeField w = 0x7#4 then checked 0xFFFEFFF0#32 w (.ok (.recv (w.getLsbD 16)))
  else if opcodeField w = 0x8#4 then
    checked 0xFF0080F0#32 w (.ok (.sendb (addr7Field w) (upperField w)))
  else if opcodeField w = 0x9#4 then
    checked 0xFF0080F0#32 w (.ok (.send1 (addr7Field w) (upperField w)))
  else if opcodeField w = 0xA#4 then checked 0xFF0080F0#32 w (decodeRecvb w)
  else .error .illegalOpcode

/-- The bytes of a word, the least significant first (20_memory.md R69). -/
def wordBytes (w : Word) : List Byte :=
  [w.extractLsb' 0 8, w.extractLsb' 8 8, w.extractLsb' 16 8, w.extractLsb' 24 8]

/-- The decoder on any bytes: one word of four (R90, R69) and the bytes after it. -/
def decodeBytes : List Byte → Except DecodeError (Instr × List Byte)
  | b0 :: b1 :: b2 :: b3 :: rest =>
    match decodeCommand (b3 ++ b2 ++ b1 ++ b0) with
    | .ok i => .ok (i, rest)
    | .error e => .error e
  | _ => .error .truncated

/-- The instruction the decoder reads from a table row's bits (`nbits` of them, all above zero): the word is
laid out as bytes and given to `decodeBytes`. A number of more than 32 bits is no command word (R90). -/
def decodeTableWord (nbits w : Nat) : Option Instr :=
  if w % 2 ^ nbits < 2 ^ 32 then
    match decodeBytes (wordBytes (BitVec.ofNat 32 (w % 2 ^ nbits))) with
    | .ok (i, _) => some i
    | .error _ => none
  else none

/-! ## The encoder -/

/-- One flag as a bit. -/
def flagBits (b : Bool) : BitVec 1 := BitVec.ofBool b

/-- A field's value placed with its lowest bit at bit `lo` of an otherwise zero word (R10, R92). -/
def place (lo : Nat) {n : Nat} (v : BitVec n) : Word := v.setWidth 32 <<< lo

/-- Format N (R93). -/
def encodeN (op : BitVec 4) : Word := place 0 op

/-- Format B (R94): BYTE in bits 15:8. -/
def encodeB (op : BitVec 4) (byte : Byte) : Word := place 8 byte ||| place 0 op

/-- Format R (R95): ACK in bit 16. -/
def encodeR (op : BitVec 4) (ack : Bool) : Word := place 16 (flagBits ack) ||| place 0 op

/-- Format C (R96): SPD in bits 14:12, PS in bits 9:8. -/
def encodeC (op : BitVec 4) (ps : BitVec 2) (spd : BitVec 3) : Word :=
  place 12 spd ||| place 8 ps ||| place 0 op

/-- Format S (R97): OWN in bits 23:16, GC in bit 10, ROLE in bits 9:8. -/
def encodeS (op : BitVec 4) (role : BitVec 2) (gc : Bool) (own : Byte) : Word :=
  place 16 own ||| place 10 (flagBits gc) ||| place 8 role ||| place 0 op

/-- Formats T and T1 (R98, R99): LEN or BYTE in bits 23:16, ADDR7 in bits 14:8. -/
def encodeT (op : BitVec 4) (addr7 : BitVec 7) (upper : Byte) : Word :=
  place 16 upper ||| place 8 addr7 ||| place 0 op

/-- The command word of an instruction (R92 to R101). -/
def encode : Instr → Word
  | .config ps speed => encodeC 0x1#4 ps speed.code
  | .role role gc own => encodeS 0x2#4 role.code gc own
  | .start => encodeN 0x3#4
  | .addr byte => encodeB 0x4#4 byte
  | .data byte => encodeB 0x5#4 byte
  | .stop => encodeN 0x6#4
  | .recv ack => encodeR 0x7#4 ack
  | .sendb addr7 len => encodeT 0x8#4 addr7 len
  | .send1 addr7 byte => encodeT 0x9#4 addr7 byte
  | .recvb addr7 len => encodeT 0xA#4 addr7 len

/-! ## The assembler -/

/-- The select code of a prescaler value as the assembler writes it (R106: the index in 1, 4, 16, 64). -/
def asmPrescaler (ps : Nat) : Option (BitVec 2) :=
  if ps = 1 then some 0#2
  else if ps = 4 then some 1#2
  else if ps = 16 then some 2#2
  else if ps = 64 then some 3#2
  else none

/-- A byte operand; above 255 is rejected (R106). -/
def asmByte (n : Nat) : Option Byte :=
  if n ≤ 255 then some (BitVec.ofNat 8 n) else none

/-- A 7-bit address operand; above 127 is rejected (R106). -/
def asmAddr7 (n : Nat) : Option (BitVec 7) :=
  if n ≤ 127 then some (BitVec.ofNat 7 n) else none

/-- `own=` may be left out for `mt` and `mr`, and then encodes 0 (R106). -/
def asmOwn (role : Role) (own : Option Nat) : Option Byte :=
  match own, role with
  | some n, _ => asmByte n
  | none, .masterTransmit => some 0#8
  | none, .masterReceive => some 0#8
  | none, .slaveTransmit => none
  | none, .slaveReceive => none

/-- The SLA byte SLAW and SLAR expand to: `(addr7 << 1) | dir` (R107). -/
def asmSla (addr7 : Nat) (read : Bool) : Option Byte :=
  (asmAddr7 addr7).map fun a => a ++ flagBits read

/-- The command a line stands for, if its operands are in range (R106, R107). -/
def assembleInstr : AsmLine → Option Instr
  | .config ps speed => (asmPrescaler ps).map fun c => .config c speed
  | .role role gc own => (asmOwn role own).map fun b => .role role gc b
  | .start => some .start
  | .addr byte => (asmByte byte).map .addr
  | .data byte => (asmByte byte).map .data
  | .recv ack => some (.recv ack)
  | .stop => some .stop
  | .sendb addr7 len => (asmAddr7 addr7).bind fun a => (asmByte len).map fun n => .sendb a n
  | .send1 addr7 byte => (asmAddr7 addr7).bind fun a => (asmByte byte).map fun b => .send1 a b
  | .recvb addr7 len =>
    if len = 0 then none else (asmAddr7 addr7).bind fun a => (asmByte len).map fun n => .recvb a n
  | .rstart => some .start
  | .slaw addr7 => (asmSla addr7 false).map .addr
  | .slar addr7 => (asmSla addr7 true).map .addr
  | .recover => some .stop

/-- The word a line assembles to (R106). -/
def assemble (l : AsmLine) : Option Word := (assembleInstr l).map encode

end Sys2Proof
end

