-- ==== Sys2Proof/Config.lean ====
section
/-! DEFINITION. What an implementation fixes: the parameters of spec/00_scope.md R8, taken as ARGUMENTS
(a field of State, assumption log 1) so that every result is computed from them (R9), and the free
values, which are opaque constants (logs 3, 6, 19). -/

namespace Sys2Proof

/-- `TARGET_RATE`, in Hz, per speed class (40_configuration.md R122). -/
structure TargetRates where
  low       : Nat
  standard  : Nat
  fast      : Nat
  fastPlus  : Nat
  highSpeed : Nat
deriving DecidableEq, Repr

/-- `PRESCALER_VALUES` for the select codes 0 to 3 (30_encoding.md R96). -/
structure Prescalers where
  sel0 : Nat
  sel1 : Nat
  sel2 : Nat
  sel3 : Nat
deriving DecidableEq, Repr

/-- `STATUS_CODES`, the named masked status codes (41_primitives.md R141). -/
structure StatusCodes where
  start      : Byte
  repStart   : Byte
  slaWAck    : Byte
  slaWNack   : Byte
  dataTxAck  : Byte
  dataTxNack : Byte
  arbLost    : Byte
  slaRAck    : Byte
  slaRNack   : Byte
  dataRxAck  : Byte
  dataRxNack : Byte
deriving DecidableEq, Repr

/-- `CTRL_*`, the only values the block writes to CTRL (41_primitives.md R142). -/
structure CtrlValues where
  start   : Byte
  xfer    : Byte
  recvAck : Byte
  stop    : Byte
  slave   : Byte
deriving DecidableEq, Repr

/-- The implementation parameters, one field per row of R8 (and HOST_BASE, R61). -/
structure Params where
  fCoreHz         : Nat
  targetRate      : TargetRates
  prescalerValues : Prescalers
  bitrateMax      : Nat
  maxPolls        : Nat
  pollIntervalUs  : Nat
  statusMask      : Byte
  statusCodes     : StatusCodes
  ctrl            : CtrlValues
  flagBit         : Fin 8
  bufSize         : Nat
  lenMax          : Nat
  hostBase        : Nat
deriving DecidableEq, Repr

namespace Params

/-- The reference configuration of R8 (codes R141, control values R142). HOST_BASE has no reference
value in the spec: 0 is a DESIGN CHOICE (log 2). -/
def reference : Params where
  fCoreHz := 16000000
  targetRate := ⟨10000, 100000, 400000, 1000000, 3400000⟩
  prescalerValues := ⟨1, 4, 16, 64⟩
  bitrateMax := 255
  maxPolls := 1000
  pollIntervalUs := 10
  statusMask := 0xF8#8
  statusCodes :=
    { start := 0x08#8, repStart := 0x10#8, slaWAck := 0x18#8, slaWNack := 0x20#8,
      dataTxAck := 0x28#8, dataTxNack := 0x30#8, arbLost := 0x38#8, slaRAck := 0x40#8,
      slaRNack := 0x48#8, dataRxAck := 0x50#8, dataRxNack := 0x58#8 }
  ctrl := { start := 0xA4#8, xfer := 0x84#8, recvAck := 0xC4#8, stop := 0x94#8, slave := 0x44#8 }
  flagBit := 7
  bufSize := 256
  lenMax := 255
  hostBase := 0

/-- The parameter values the spec admits: R9 (`MAX_POLLS` in 1..65535, `F_CORE_HZ` at least 1, positive
rates), R124 (the formula's operands are positive), the 8-bit bit-rate register of D8, the one `BUF_SIZE` that
the map of 20_memory.md R61 has room and use for, and the one `LEN_MAX` of an 8-bit LEN (R98, D3); log 23. -/
abbrev Legal (c : Params) : Prop :=
  1 ≤ c.maxPolls ∧ c.maxPolls ≤ 65535 ∧ 1 ≤ c.fCoreHz ∧
  0 < c.targetRate.low ∧ 0 < c.targetRate.standard ∧ 0 < c.targetRate.fast ∧
  0 < c.targetRate.fastPlus ∧ 0 < c.targetRate.highSpeed ∧
  0 < c.prescalerValues.sel0 ∧ 0 < c.prescalerValues.sel1 ∧
  0 < c.prescalerValues.sel2 ∧ 0 < c.prescalerValues.sel3 ∧
  c.bitrateMax ≤ 255 ∧ c.bufSize = 256 ∧ c.lenMax = 255

end Params

namespace Config

/-- FREE VALUE (R15, log 3): what the peripheral answers to the port read numbered by the argument, where
the state's list of answers is used up. Nothing constrains it. -/
opaque peripheralAnswer : Nat → Byte

/-- FREE VALUE (R35, log 6): the contents after the numbered reset of the buffer byte at a window offset,
until something writes it. A draw made once. -/
opaque bufferByte : Nat → Nat → Byte

/-- OPEN (R129, D38, log 19): the tolerance of the effective frequency. No rule reads it. -/
opaque sclTolerance : Nat

/-- OPEN (R129, D38, log 19): the peripheral's frequency function of F_CORE_HZ, BITRATE and PRESCALE. No
rule reads it. -/
opaque scl : Nat → Byte → Byte → Nat

end Config

end Sys2Proof
end

