-- ==== Sys2Proof/Machine/State.lean ====
section
/-! DEFINITION. The state of the P007-MTS block as plain data: every field of spec/10_state.md R22, the
position inside the running command's procedure (R21), the port trace (20_memory.md R78), and the model's
own fields (the parameters, the agents' pending turns and answers, the counters of the free values). -/

namespace Sys2Proof.Machine

/-- RESULT values (10_state.md R27). Code 7 is never produced and has no constructor (log 24). -/
inductive Result where
  | none
  | success
  | timeout
  | protocol
  | uninit
  | config
  | illegal
deriving DecidableEq, Repr

/-- The transaction phases (R24). Codes 9 to 15 are never produced and have no constructor (log 24). -/
inductive Phase where
  | idle
  | startPending
  | startOk
  | addrPending
  | addrOk
  | dataPending
  | dataOk
  | stopIssued
  | aborted
deriving DecidableEq, Repr

/-- The peripheral's registers as the port names them (20_memory.md R66). They are not state of the block
(10_state.md R40). -/
inductive PortReg where
  | bitrate
  | status
  | ownaddr
  | data
  | ctrl
  | prescale
deriving DecidableEq, Repr

/-- An event of the port trace (20_memory.md R78): `W(r, v)`, `R(r, v)`, `D(us)`. -/
inductive Event where
  | write (r : PortReg) (v : Byte)
  | read (r : PortReg) (v : Byte)
  | delay (us : Nat)
deriving DecidableEq, Repr

/-- The procedure points (10_state.md R21): where the running command stands, named by the last port call it
has made (00_scope.md R14). `entry` is the point before the first call. -/
inductive Point where
  | entry
  | wrotePrescale
  | wroteBitrate
  | wroteOwnAddr
  | wroteSlaveCtrl
  | wroteData
  | wroteCtrl
  | polled
  | waited
  | gotStatus
  | gotData
  | stopped
deriving DecidableEq, Repr

/-- Which primitive step of a composed command runs (42_composed.md R180). -/
inductive Stage where
  | start
  | address
  | transfer
deriving DecidableEq, Repr

/-- The running procedure's position and locals: `legal` of `poll_step` (41_primitives.md R143), the value
the last port read returned (its `c` and `s`, and RECV's `v`), and the result a composed command keeps
across its stop (42_composed.md R184). -/
structure Frame where
  point : Point
  stage : Stage
  legal : Bool
  ret   : Byte
  res   : Result
deriving DecidableEq, Repr

/-- The position before a command's first step; also the position of an idle block (log 7). -/
def Frame.start : Frame where
  point := .entry
  stage := .start
  legal := false
  ret := 0x00#8
  res := .none

/-- A host access at a platform address of `n` bytes (00_scope.md R12). A write carries its value in the low
`8 * n` bits (log 22). -/
inductive HostAccess where
  | read (addr n : Nat)
  | write (addr n : Nat) (v : Word)
deriving DecidableEq, Repr

/-- Who makes the next step (R16, R72): the host with an access, the sequencer, or a reset (R232). -/
inductive Turn where
  | host (a : HostAccess)
  | sequencer
  | reset
deriving DecidableEq, Repr

/-- The buffers' written bytes: (window offset, byte) pairs in canonical form, offsets strictly rising. A byte
that is not listed has not been written since reset. -/
abbrev Memory := List Host.Cell

/-- The machine's state. -/
structure State where
  /-- the implementation parameters (00_scope.md R8, R9) -/
  cfg        : Params
  busy       : Bool
  result     : Result
  init       : Bool
  rxdata     : Byte
  phase      : Phase
  /-- the direction of the open transaction: `true` is read (10_state.md R26) -/
  dir        : Bool
  role       : Role
  ownAddr    : Byte
  pollCount  : BitVec 16
  lastStatus : Byte
  seqErr     : Bool
  overrun    : Bool
  cur        : Word
  idx        : BitVec 9
  /-- TXBUF at offsets 0x100 to 0x1FF and RXBUF at 0x200 to 0x2FF -/
  mem        : Memory
  frame      : Frame
  /-- the port trace, oldest event first -/
  trace      : List Event
  /-- the pending turns, the next one first (log 4) -/
  turns      : List Turn
  /-- the peripheral's scripted answers, the next one first (log 3) -/
  answers    : List Byte
  /-- the port reads made so far (log 3) -/
  draws      : Nat
  /-- the resets so far (log 6) -/
  resets     : Nat
  /-- what the host's reads returned, oldest first (log 5) -/
  hostReads  : List Word
deriving DecidableEq, Repr

/-- Why a step stops with a fault. Both name states no run from reset reaches (log 11), so both are SAFE: the
spec gives a running command no such state. -/
inductive Fault where
  /-- raised by a meaning at a procedure point that is none of its command's (R21); safe -/
  | offProcedure
  /-- raised by `step` when the block is busy and `S.cur` decodes to no command (R30); safe -/
  | noCommand
deriving DecidableEq, Repr

/-- Why a step has no meaning. -/
inductive Refusal where
  /-- raised by `exec` for an instruction without a meaning; safe. No arm raises it. -/
  | notModelled (mnemonic : String)
  /-- raised by `step` for a host access the spec does not define (20_memory.md R65: "A model refuses it");
  safe -/
  | undefinedHostAccess
deriving DecidableEq, Repr

/-- The machine right after reset (70_reset_and_hazards.md R230); the model's own fields as logs 1, 3 to 7 say. -/
def State.reset : State where
  cfg := Params.reference
  busy := false
  result := .none
  init := false
  rxdata := 0x00#8
  phase := .idle
  dir := false
  role := .masterTransmit
  ownAddr := 0x00#8
  pollCount := 0#16
  lastStatus := 0x00#8
  seqErr := false
  overrun := false
  cur := 0#32
  idx := 0#9
  mem := []
  frame := Frame.start
  trace := []
  turns := []
  answers := []
  draws := 0
  resets := 0
  hostReads := []

end Sys2Proof.Machine
end

