-- ==== Sys2Proof/Machine/Ops.lean ====
section
/-! DEFINITION. The named operations: buffer memory (spec/10_state.md R35), the port (00_scope.md R12), the
procedure position, accepting and finishing a command, and how an error is recorded (60_exceptions.md R200:
the block has no traps, so "taking an exception" is a result code written at accept or by `finish`, or a
sticky bit; there is nothing to return from, R211 and R212). -/

namespace Sys2Proof.Machine

/-! ## Buffer memory -/

/-- The canonical form of a list all of whose keys lie above `lo`: offsets strictly rising. -/
def Memory.risingFrom : Nat → Memory → Bool
  | _, [] => true
  | lo, (a, _) :: m => decide (lo ≤ a) && Memory.risingFrom (a + 1) m

/-- The canonical form of the buffers: offsets strictly rising and inside TXBUF and RXBUF (20_memory.md R61). -/
def Memory.wf (m : Memory) : Bool :=
  Memory.risingFrom 0x100 m && m.all fun c => decide (c.1 < 0x300)

/-- The byte written at an offset, or none if nothing has written it since reset. -/
def Memory.read (a : Nat) : Memory → Option Byte
  | [] => none
  | (b, v) :: m => if a = b then some v else Memory.read a m

/-- Write one byte, keeping the offsets strictly rising. -/
def Memory.write (a : Nat) (v : Byte) : Memory → Memory
  | [] => [(a, v)]
  | (b, w) :: m =>
    if a < b then (a, v) :: (b, w) :: m
    else if a = b then (a, v) :: m
    else (b, w) :: Memory.write a v m

/-- Window offset of `TXBUF[i]` (R61). -/
def txOffset (i : Byte) : Nat := 0x100 + i.toNat

/-- Window offset of `RXBUF[i]` (R61). -/
def rxOffset (i : Byte) : Nat := 0x200 + i.toNat

/-- The buffer byte at a window offset: what was written, else the draw made for it (10_state.md R35). -/
def State.bufferByte (s : State) (off : Nat) : Byte :=
  match s.mem.read off with
  | some v => v
  | none => Config.bufferByte s.resets off

/-- `BufRead(TX, i)` (R12). -/
def State.txByte (s : State) (i : Byte) : Byte := s.bufferByte (txOffset i)

/-- `RXBUF[i]`. -/
def State.rxByte (s : State) (i : Byte) : Byte := s.bufferByte (rxOffset i)

/-- `TXBUF[i] <- v`, the host's write (20_memory.md R63). -/
def State.writeTx (s : State) (i : Byte) (v : Byte) : State :=
  { s with mem := s.mem.write (txOffset i) v }

/-- `BufWrite(RX, i, v)` (R12). -/
def State.writeRx (s : State) (i : Byte) (v : Byte) : State :=
  { s with mem := s.mem.write (rxOffset i) v }

/-- The byte index a composed command uses: `S.idx`, whose range is 0..255 (10_state.md R21, log 20). -/
def State.bufIndex (s : State) : Byte := s.idx.setWidth 8

/-! ## The port -/

/-- The 3-bit index of a port register (20_memory.md R66). -/
def PortReg.index : PortReg → BitVec 3
  | .bitrate => 0#3
  | .status => 1#3
  | .ownaddr => 2#3
  | .data => 3#3
  | .ctrl => 4#3
  | .prescale => 5#3

/-- `PWrite(r, v)` (R12). -/
def State.portWrite (s : State) (r : PortReg) (v : Byte) : State :=
  { s with trace := s.trace ++ [.write r v] }

/-- What the peripheral answers to the next port read (R15): the next scripted answer, else a fresh draw. -/
def State.portAnswer (s : State) : Byte :=
  match s.answers with
  | v :: _ => v
  | [] => Config.peripheralAnswer s.draws

/-- `PRead(r)` (R12): the read is recorded and its answer is used up. -/
def State.portRead (s : State) (r : PortReg) : State :=
  { s with
    trace := s.trace ++ [.read r s.portAnswer]
    answers := s.answers.tail
    draws := s.draws + 1 }

/-- `Wait(us)` (R12) with `POLL_INTERVAL_US`, the only wait of the block (60_exceptions.md R214). -/
def State.portWait (s : State) : State :=
  { s with trace := s.trace ++ [.delay s.cfg.pollIntervalUs] }

/-! ## The procedure position -/

/-- Move to a procedure point. -/
def State.goto (s : State) (p : Point) : State :=
  { s with frame := { s.frame with point := p } }

/-- Move to a procedure point after a port read that returned `v`. -/
def State.gotoWith (s : State) (p : Point) (v : Byte) : State :=
  { s with frame := { s.frame with point := p, ret := v } }

/-- The step that makes one port write and stands after it. -/
def State.callWrite (s : State) (r : PortReg) (v : Byte) (p : Point) : State :=
  (s.portWrite r v).goto p

/-- The step that makes one port read and stands after it, holding the answer. -/
def State.callRead (s : State) (r : PortReg) (p : Point) : State :=
  (s.portRead r).gotoWith p s.portAnswer

/-- The step that makes one wait and stands after it. -/
def State.callWait (s : State) : State := s.portWait.goto .waited

/-- Enter a stage of a composed command. -/
def State.enterStage (s : State) (g : Stage) : State :=
  { s with frame := { s.frame with stage := g } }

/-! ## Errors and completion -/

/-- `raise Fault(SEQ_ERR)` when a condition holds; the bit is sticky (10_state.md R33). -/
def State.raiseSeqErr (s : State) (bad : Bool) : State :=
  { s with seqErr := s.seqErr || bad }

/-- `raise Fault(OVERRUN)` (R33). -/
def State.raiseOverrun (s : State) : State :=
  { s with overrun := true }

/-- `finish(res)` (00_scope.md R13). -/
def State.finish (s : State) (r : Result) : State :=
  { s with result := r, busy := false, frame := Frame.start }

/-- A command word that completes in its accept step: only RESULT is written (30_encoding.md R104). -/
def State.rejectCommand (s : State) (r : Result) : State :=
  { s with result := r }

/-- The last line of `accept` (R104): latch the word and start the sequencer. -/
def State.latchCommand (s : State) (w : Word) : State :=
  { s with cur := w, busy := true, frame := Frame.start }

/-- What a reset does (70_reset_and_hazards.md R230, R232): every field of the block takes its reset value and
the trace is empty; the parameters and the outside world's fields stay, and the buffers are drawn anew
(logs 6, 14). -/
def State.resetBlock (s : State) : State :=
  { State.reset with
    cfg := s.cfg
    turns := s.turns
    answers := s.answers
    draws := s.draws
    resets := s.resets + 1
    hostReads := s.hostReads }

end Sys2Proof.Machine
end

