-- ==== Sys2Proof/Machine/Operands.lean ====
section
/-! DEFINITION. Operand assembly (spec/30_encoding.md R100), the divisor (40_configuration.md R124) and the
own-address byte (R131). -/

namespace Sys2Proof.Machine

/-- The SLA byte `(zext_8(ADDR7) << 1) | dir`, `dir` 1 for read (R100). -/
def slaByte (addr7 : BitVec 7) (read : Bool) : Byte :=
  addr7.setWidth 8 <<< 1 ||| (BitVec.ofBool read).setWidth 8

/-- The direction bit of an SLA byte, bit 0 (41_primitives.md R151). -/
def slaIsRead (b : Byte) : Bool := b.getLsbD 0

/-- The OWNADDR byte `((zext_9(own) << 1) | gc) mod 256` (R130). -/
def ownAddrByte (own : Byte) (gc : Bool) : Byte :=
  (own.setWidth 9 <<< 1 ||| (BitVec.ofBool gc).setWidth 9).setWidth 8

/-- `PRESCALER_VALUES[ps]` (R96). -/
def prescalerValue (c : Params) (ps : BitVec 2) : Nat :=
  if ps = 0#2 then c.prescalerValues.sel0
  else if ps = 1#2 then c.prescalerValues.sel1
  else if ps = 2#2 then c.prescalerValues.sel2
  else c.prescalerValues.sel3

/-- `TARGET_RATE[spd]` (40_configuration.md R122). -/
def targetRate (c : Params) : SpeedClass → Nat
  | .low => c.targetRate.low
  | .standard => c.targetRate.standard
  | .fast => c.targetRate.fast
  | .fastPlus => c.targetRate.fastPlus
  | .highSpeed => c.targetRate.highSpeed

/-- `divisor(ps, spd)`, in unbounded integers (R124). -/
def divisor (c : Params) (ps : BitVec 2) (spd : SpeedClass) : Int :=
  ((c.fCoreHz / (2 * targetRate c spd) : Nat) : Int) - 8 * (prescalerValue c ps : Int)

/-- `divisor_ok(ps, spd)` (R124). -/
def divisorOk (c : Params) (ps : BitVec 2) (spd : SpeedClass) : Bool :=
  decide (0 ≤ divisor c ps spd) && decide (divisor c ps spd ≤ (c.bitrateMax : Int))

/-- The byte CONFIG writes to BITRATE: `d[7:0]` (R123, R125, log 18). -/
def bitrateByte (c : Params) (ps : BitVec 2) (spd : SpeedClass) : Byte :=
  BitVec.ofInt 8 (divisor c ps spd)

/-- The byte CONFIG writes to PRESCALE: the select code, zero-extended (R125). -/
def prescaleByte (ps : BitVec 2) : Byte := ps.setWidth 8

/-- ROLE has a register effect only for slave roles (R131, R132). -/
def roleIsSlave : Role → Bool
  | .masterTransmit => false
  | .masterReceive => false
  | .slaveTransmit => true
  | .slaveReceive => true

/-- RECV's control value (41_primitives.md R156). -/
def recvCtrl (c : Params) (ack : Bool) : Byte := if ack then c.ctrl.recvAck else c.ctrl.xfer

/-- RECVB acknowledges every byte but the last (42_composed.md R189). -/
def recvbAck (idx : BitVec 9) (len : Byte) : Bool := decide (idx.toNat + 1 < len.toNat)

/-- The loop test of SENDB and RECVB: `S.idx < n` (R182, R188). -/
def moreBytes (idx : BitVec 9) (n : Nat) : Bool := decide (idx.toNat < n)

end Sys2Proof.Machine
end

