-- ==== Sys2Proof/Machine/Flags.lean ====
section
/-! DEFINITION. The status values: RESULT, phase and STAT encodings (spec/10_state.md R24, R27, R36), the
completion flag and status mask (41_primitives.md R140, R142), the accept sets (R166) and the order of steps
(R146). The block has no condition codes (R39). -/

namespace Sys2Proof.Machine

/-- RESULT's code (R27). -/
def Result.code : Result → BitVec 3
  | .none => 0#3
  | .success => 1#3
  | .timeout => 2#3
  | .protocol => 3#3
  | .uninit => 4#3
  | .config => 5#3
  | .illegal => 6#3

/-- The phase's code (R24). -/
def Phase.code : Phase → BitVec 4
  | .idle => 0#4
  | .startPending => 1#4
  | .startOk => 2#4
  | .addrPending => 3#4
  | .addrOk => 4#4
  | .dataPending => 5#4
  | .dataOk => 6#4
  | .stopIssued => 7#4
  | .aborted => 8#4

/-- STAT (R36): BUSY in bit 0, RESULT in bits 3:1, INIT in bit 4, the rest 0. -/
def State.statWord (s : State) : Word :=
  place 4 (BitVec.ofBool s.init) ||| place 1 s.result.code ||| place 0 (BitVec.ofBool s.busy)

/-- RXDATA (R37). -/
def State.rxdataWord (s : State) : Word := s.rxdata.setWidth 32

/-- The "transaction complete" flag of a CTRL read (41_primitives.md R142). -/
def flagSeen (c : Params) (v : Byte) : Bool := v.getLsbD c.flagBit.val

/-- The masked status (R140). -/
def maskedStatus (c : Params) (v : Byte) : Byte := v &&& c.statusMask

/-- START's accept set (R149, R166). -/
def startAccepts (c : Params) : List Byte := [c.statusCodes.start, c.statusCodes.repStart]

/-- ADDR's accept set, by the direction bit alone (R152, R166). -/
def addrAccepts (c : Params) (b : Byte) : List Byte :=
  if slaIsRead b then [c.statusCodes.slaRAck] else [c.statusCodes.slaWAck]

/-- DATA's accept set (R154, R166; 90_conflicts.md C13). -/
def dataAccepts (c : Params) : List Byte := [c.statusCodes.dataTxAck, c.statusCodes.dataRxAck]

/-- RECV's accept set, by the chosen acknowledgement (R157, R166). -/
def recvAccepts (c : Params) (ack : Bool) : List Byte :=
  if ack then [c.statusCodes.dataRxAck] else [c.statusCodes.dataRxNack]

/-- START is legal in IDLE, ADDR_OK and DATA_OK (R146). -/
def startLegal (p : Phase) : Bool := p == .idle || p == .addrOk || p == .dataOk

/-- ADDR is legal in START_OK (R146). -/
def addrLegal (p : Phase) : Bool := p == .startOk

/-- DATA is legal in ADDR_OK and DATA_OK (R146). -/
def dataLegal (p : Phase) : Bool := p == .addrOk || p == .dataOk

/-- RECV is legal in ADDR_OK and DATA_OK of a read transaction (R146). -/
def recvLegal (p : Phase) (dir : Bool) : Bool := (p == .addrOk || p == .dataOk) && dir

end Sys2Proof.Machine
end

