-- ==== Sys2Proof/Machine/Accept.lean ====
section
/-! DEFINITION. Accepting a command (spec/30_encoding.md R104) and the shape every command's step has. -/

namespace Sys2Proof.Machine

/-- Every command but CONFIG needs `S.init = 1` (30_encoding.md R104). -/
def needsInit : Instr → Bool
  | .config _ _ => false
  | .role _ _ _ => true
  | .start => true
  | .addr _ => true
  | .data _ => true
  | .stop => true
  | .recv _ => true
  | .sendb _ _ => true
  | .send1 _ _ => true
  | .recvb _ _ => true

/-- CONFIG with a divisor out of range (R104, R124). -/
def badDivisor (c : Params) : Instr → Bool
  | .config ps spd => !divisorOk c ps spd
  | .role _ _ _ => false
  | .start => false
  | .addr _ => false
  | .data _ => false
  | .stop => false
  | .recv _ => false
  | .sendb _ _ => false
  | .send1 _ _ => false
  | .recvb _ _ => false

/-- `accept` (R104), its checks in that order. The latched word is the instruction's (log 12). -/
def accept (i : Instr) (s : State) : State :=
  if !i.wellFormed then s.rejectCommand .illegal
  else if needsInit i && !s.init then s.rejectCommand .uninit
  else if badDivisor s.cfg i then s.rejectCommand .config
  else s.latchCommand (encode i)

/-- One step of a command: its accept step while the sequencer is idle, else the next step of its procedure
(00_scope.md R14). -/
def commandStep (i : Instr) (proc : State → Host.Outcome State Fault Refusal) (s : State) :
    Host.Outcome State Fault Refusal :=
  if s.busy then proc s else .next (accept i s)

end Sys2Proof.Machine
end

