-- ==== Sys2Proof/Machine/Polling.lean ====
section
/-! DEFINITION. The common polling step `poll_step` (spec/41_primitives.md R143 to R147, R161), one port call a
step (00_scope.md R14): a step first makes the internal writes and decisions that stand before its call,
from the value the previous call returned, and then makes the call. -/

namespace Sys2Proof.Machine

/-- The arguments of `poll_step` and whether the step goes on to read DATA (RECV, R158). -/
structure PollArgs where
  pend     : Phase
  ok       : Phase
  ctrl     : Byte
  wdata    : Option Byte
  accepts  : List Byte
  readsRx  : Bool
deriving DecidableEq, Repr

/-- What one step of a primitive procedure comes to: it made a port call and goes on, it returned a result to
its caller without making a call (the internal writes are in the state), or the position is none of its. -/
inductive Progress where
  | running (s : State)
  | returned (r : Result) (s : State)
  | lost
deriving DecidableEq, Repr

/-- `start_step` (R148). -/
def startArgs (c : Params) : PollArgs where
  pend := .startPending
  ok := .startOk
  ctrl := c.ctrl.start
  wdata := none
  accepts := startAccepts c
  readsRx := false

/-- `addr_step(b)` (R150). -/
def addrArgs (c : Params) (b : Byte) : PollArgs where
  pend := .addrPending
  ok := .addrOk
  ctrl := c.ctrl.xfer
  wdata := some b
  accepts := addrAccepts c b
  readsRx := false

/-- `data_step(b)` (R153). -/
def dataArgs (c : Params) (b : Byte) : PollArgs where
  pend := .dataPending
  ok := .dataOk
  ctrl := c.ctrl.xfer
  wdata := some b
  accepts := dataAccepts c
  readsRx := false

/-- `recv_step(ack)` (R156). -/
def recvArgs (c : Params) (ack : Bool) : PollArgs where
  pend := .dataPending
  ok := .dataOk
  ctrl := recvCtrl c ack
  wdata := none
  accepts := recvAccepts c ack
  readsRx := true

/-- `poll_step` up to its first port call: the order is judged and recorded, the pending phase entered, and DATA
written before CTRL where there is a byte (R143, R145, R161). -/
def beginPoll (p : PollArgs) (legal : Bool) (s : State) : State :=
  let s1 : State :=
    { s.raiseSeqErr (!legal) with phase := p.pend, frame := { s.frame with legal := legal } }
  match p.wdata with
  | some b => s1.callWrite .data b .wroteData
  | none => s1.callWrite .ctrl p.ctrl .wroteCtrl

/-- `start_step` begins; the order is judged by R146. -/
def beginStart (s : State) : State := beginPoll (startArgs s.cfg) (startLegal s.phase) s

/-- `addr_step(b)` begins: `S.dir <- b[0]`, then `poll_step` (R151). -/
def beginAddr (b : Byte) (s : State) : State :=
  beginPoll (addrArgs s.cfg b) (addrLegal s.phase) { s with dir := slaIsRead b }

/-- `data_step(b)` begins. -/
def beginData (b : Byte) (s : State) : State := beginPoll (dataArgs s.cfg b) (dataLegal s.phase) s

/-- `recv_step(ack)` begins. -/
def beginRecv (ack : Bool) (s : State) : State :=
  beginPoll (recvArgs s.cfg ack) (recvLegal s.phase s.dir) s

/-- The counter after one more wait (R144). -/
def State.countPoll (s : State) : State := { s with pollCount := s.pollCount + 1 }

/-- The bound is reached (R144). -/
def State.pollsExhausted (s : State) : Bool := decide (s.pollCount.toNat = s.cfg.maxPolls)

/-- A failed step leaves ABORTED (R147). -/
def State.abort (s : State) : State := { s with phase := .aborted }

/-- `S.last_status <- s` for the masked status just read (R143). -/
def State.latchStatus (s : State) : State := { s with lastStatus := maskedStatus s.cfg s.frame.ret }

/-- The phase of a step that succeeded: out of order it is ABORTED all the same (R161). -/
def State.settlePhase (s : State) (ok : Phase) : State :=
  { s with phase := if s.frame.legal then ok else .aborted }

/-- The validation of the masked status (R143, R166); RECV goes on to read DATA once (R158). -/
def validateStatus (p : PollArgs) (s : State) : Progress :=
  if s.latchStatus.lastStatus ∈ p.accepts then
    if p.readsRx then .running ((s.latchStatus.settlePhase p.ok).callRead .data .gotData)
    else .returned .success (s.latchStatus.settlePhase p.ok)
  else .returned .protocol s.latchStatus.abort

/-- One step of `poll_step` (and of RECV's read of DATA) after its first port call. -/
def pollNext (p : PollArgs) (s : State) : Progress :=
  match s.frame.point with
  | .wroteData =>
    if p.wdata.isSome then .running (s.callWrite .ctrl p.ctrl .wroteCtrl) else .lost
  | .wroteCtrl => .running ({ s with pollCount := 0#16 }.callRead .ctrl .polled)
  | .polled =>
    if flagSeen s.cfg s.frame.ret then .running (s.callRead .status .gotStatus)
    else .running s.callWait
  | .waited =>
    if s.countPoll.pollsExhausted then .returned .timeout s.countPoll.abort
    else .running (s.countPoll.callRead .ctrl .polled)
  | .gotStatus => validateStatus p s
  | .gotData =>
    if p.readsRx then .returned .success { s with rxdata := s.frame.ret } else .lost
  | .entry => .lost
  | .wrotePrescale => .lost
  | .wroteBitrate => .lost
  | .wroteOwnAddr => .lost
  | .wroteSlaveCtrl => .lost
  | .stopped => .lost

/-- `stop_step` up to its port write; the command finishes with `r` after it (R162, 42_composed.md R184). -/
def beginStop (r : Result) (s : State) : State :=
  ({ s with phase := .stopIssued, frame := { s.frame with res := r } } : State).callWrite
    .ctrl s.cfg.ctrl.stop .stopped

/-- The end of `stop_step` and of its command (R163). -/
def endStop (s : State) : State := ({ s with phase := .idle } : State).finish s.frame.res

/-- A primitive command's procedure: its step, then `finish` with the step's result (R143). -/
def primitiveProc (p : PollArgs) (start : State → State) (s : State) :
    Host.Outcome State Fault Refusal :=
  if s.frame.point = .entry then .next (start s)
  else
    match pollNext p s with
    | .running s' => .next s'
    | .returned r s' => .next (s'.finish r)
    | .lost => .fault .offProcedure

end Sys2Proof.Machine
end

