-- ==== Sys2Proof/Machine/Composed.lean ====
section
/-! DEFINITION. SENDB, SEND1 and RECVB (spec/42_composed.md): start, address, transfers, stop, built from the
primitive steps alone (R180), with a stop on every failure after a successful start (R184) and none after
a failed start (R185). -/

namespace Sys2Proof.Machine

/-- What the transfer loop of a composed command is made of: the SLA byte, the number of bytes, the transfer
step's arguments, how it begins, and what is written when it has succeeded (RECVB's buffer write). -/
structure Transfer where
  sla   : Byte
  count : Nat
  args  : State → PollArgs
  start : State → State
  store : State → State

/-- The loop head (R182, R188): the next transfer step, or the stop after the last. -/
def loopHead (t : Transfer) (s : State) : State :=
  if moreBytes s.idx t.count then t.start (s.enterStage .transfer) else beginStop .success s

/-- What follows a primitive step's result in each stage. A failed start finishes at once (R185); a later
failure stops the bus first (R184); the index is set to 0 after the address step and counts the transfers
that succeeded (R183). -/
def stageReturned (t : Transfer) (g : Stage) (r : Result) (s : State) : State :=
  match g with
  | .start => if r = .success then beginAddr t.sla (s.enterStage .address) else s.finish r
  | .address => if r = .success then loopHead t { s with idx := 0#9 } else beginStop r s
  | .transfer =>
    if r = .success then loopHead t { t.store s with idx := s.idx + 1#9 } else beginStop r s

/-- The primitive step a stage runs. -/
def stageArgs (t : Transfer) (s : State) : PollArgs :=
  match s.frame.stage with
  | .start => startArgs s.cfg
  | .address => addrArgs s.cfg t.sla
  | .transfer => t.args s

/-- A composed command begins with the index at 0 (10_state.md R21; R183: at the end it is the number of transfers
that succeeded, also where the start or the address step fails; log 27), then `start_step`. -/
def beginComposed (s : State) : State := beginStart ({ s with idx := 0#9 }.enterStage .start)

/-- A composed command's procedure. -/
def composedProc (t : Transfer) (s : State) : Host.Outcome State Fault Refusal :=
  if s.frame.point = .entry then .next (beginComposed s)
  else if s.frame.point = .stopped then .next (endStop s)
  else
    match pollNext (stageArgs t s) s with
    | .running s' => .next s'
    | .returned r s' => .next (stageReturned t s.frame.stage r s')
    | .lost => .fault .offProcedure

/-- SENDB sends `TXBUF[0..LEN-1]`, each byte read in the step of its DATA write (R182, R183). -/
def sendbTransfer (addr7 : BitVec 7) (len : Byte) : Transfer where
  sla := slaByte addr7 false
  count := len.toNat
  args s := dataArgs s.cfg (s.txByte s.bufIndex)
  start s := beginData (s.txByte s.bufIndex) s
  store s := s

/-- SENDB (R182). -/
def execSendb (addr7 : BitVec 7) (len : Byte) (s : State) : Host.Outcome State Fault Refusal :=
  commandStep (.sendb addr7 len) (composedProc (sendbTransfer addr7 len)) s

/-- SEND1 sends the one byte of its command word and does not touch TXBUF (R186). -/
def send1Transfer (addr7 : BitVec 7) (byte : Byte) : Transfer where
  sla := slaByte addr7 false
  count := 1
  args s := dataArgs s.cfg byte
  start s := beginData byte s
  store s := s

/-- SEND1 (R186). -/
def execSend1 (addr7 : BitVec 7) (byte : Byte) (s : State) : Host.Outcome State Fault Refusal :=
  commandStep (.send1 addr7 byte) (composedProc (send1Transfer addr7 byte)) s

/-- RECVB receives into `RXBUF[0..LEN-1]`, acknowledging all but the last byte (R188, R189). -/
def recvbTransfer (addr7 : BitVec 7) (len : Byte) : Transfer where
  sla := slaByte addr7 true
  count := len.toNat
  args s := recvArgs s.cfg (recvbAck s.idx len)
  start s := beginRecv (recvbAck s.idx len) s
  store s := s.writeRx s.bufIndex s.rxdata

/-- RECVB (R188). -/
def execRecvb (addr7 : BitVec 7) (len : Byte) (s : State) : Host.Outcome State Fault Refusal :=
  commandStep (.recvb addr7 len) (composedProc (recvbTransfer addr7 len)) s

end Sys2Proof.Machine
end

