-- ==== Sys2Proof/Machine/Configuration.lean ====
section
/-! DEFINITION. CONFIG and ROLE (spec/40_configuration.md). -/

namespace Sys2Proof.Machine

/-- A configuration command outside IDLE is recorded and still carried out (R121). -/
def State.checkIdle (s : State) : State := s.raiseSeqErr (s.phase != .idle)

/-- CONFIG's procedure (R123): PRESCALE, then BITRATE (R125), then `init` and SUCCESS (R126). -/
def configProc (ps : BitVec 2) (speed : SpeedClass) (s : State) :
    Host.Outcome State Fault Refusal :=
  match s.frame.point with
  | .entry => .next (s.checkIdle.callWrite .prescale (prescaleByte ps) .wrotePrescale)
  | .wrotePrescale => .next (s.callWrite .bitrate (bitrateByte s.cfg ps speed) .wroteBitrate)
  | .wroteBitrate => .next (({ s with init := true } : State).finish .success)
  | .wroteOwnAddr => .fault .offProcedure
  | .wroteSlaveCtrl => .fault .offProcedure
  | .wroteData => .fault .offProcedure
  | .wroteCtrl => .fault .offProcedure
  | .polled => .fault .offProcedure
  | .waited => .fault .offProcedure
  | .gotStatus => .fault .offProcedure
  | .gotData => .fault .offProcedure
  | .stopped => .fault .offProcedure

/-- CONFIG (R123). -/
def execConfig (ps : BitVec 2) (speed : SpeedClass) (s : State) : Host.Outcome State Fault Refusal :=
  commandStep (.config ps speed) (configProc ps speed) s

/-- ROLE's writes before its first port call (R130): the role, and for slave roles the own address (R131). -/
def State.recordRole (s : State) (role : Role) (own : Byte) : State :=
  { s.checkIdle with role := role, ownAddr := if roleIsSlave role then own else s.ownAddr }

/-- ROLE's procedure (R130): two port writes for a slave role (R131), none for a master role (R132). -/
def roleProc (role : Role) (gc : Bool) (own : Byte) (s : State) :
    Host.Outcome State Fault Refusal :=
  match s.frame.point with
  | .entry =>
    if roleIsSlave role then
      .next ((s.recordRole role own).callWrite .ownaddr (ownAddrByte own gc) .wroteOwnAddr)
    else .next ((s.recordRole role own).finish .success)
  | .wroteOwnAddr =>
    if roleIsSlave role then .next (s.callWrite .ctrl s.cfg.ctrl.slave .wroteSlaveCtrl)
    else .fault .offProcedure
  | .wroteSlaveCtrl =>
    if roleIsSlave role then .next (s.finish .success) else .fault .offProcedure
  | .wrotePrescale => .fault .offProcedure
  | .wroteBitrate => .fault .offProcedure
  | .wroteData => .fault .offProcedure
  | .wroteCtrl => .fault .offProcedure
  | .polled => .fault .offProcedure
  | .waited => .fault .offProcedure
  | .gotStatus => .fault .offProcedure
  | .gotData => .fault .offProcedure
  | .stopped => .fault .offProcedure

/-- ROLE (R130). -/
def execRole (role : Role) (gc : Bool) (own : Byte) (s : State) : Host.Outcome State Fault Refusal :=
  commandStep (.role role gc own) (roleProc role gc own) s

end Sys2Proof.Machine
end

