-- ==== Sys2Proof/Machine/Primitives.lean ====
section
/-! DEFINITION. START, ADDR, DATA, RECV and STOP (spec/41_primitives.md). -/

namespace Sys2Proof.Machine

/-- START (R148). -/
def execStart (s : State) : Host.Outcome State Fault Refusal :=
  commandStep .start (primitiveProc (startArgs s.cfg) beginStart) s

/-- ADDR (R150). -/
def execAddr (byte : Byte) (s : State) : Host.Outcome State Fault Refusal :=
  commandStep (.addr byte) (primitiveProc (addrArgs s.cfg byte) (beginAddr byte)) s

/-- DATA (R153). -/
def execData (byte : Byte) (s : State) : Host.Outcome State Fault Refusal :=
  commandStep (.data byte) (primitiveProc (dataArgs s.cfg byte) (beginData byte)) s

/-- RECV (R156). -/
def execRecv (ack : Bool) (s : State) : Host.Outcome State Fault Refusal :=
  commandStep (.recv ack) (primitiveProc (recvArgs s.cfg ack) (beginRecv ack)) s

/-- STOP's procedure (R162): one CTRL write, then IDLE and SUCCESS (R163, R164). -/
def stopProc (s : State) : Host.Outcome State Fault Refusal :=
  match s.frame.point with
  | .entry => .next (beginStop .success s)
  | .stopped => .next (endStop s)
  | .wrotePrescale => .fault .offProcedure
  | .wroteBitrate => .fault .offProcedure
  | .wroteOwnAddr => .fault .offProcedure
  | .wroteSlaveCtrl => .fault .offProcedure
  | .wroteData => .fault .offProcedure
  | .wroteCtrl => .fault .offProcedure
  | .polled => .fault .offProcedure
  | .waited => .fault .offProcedure
  | .gotStatus => .fault .offProcedure
  | .gotData => .fault .offProcedure

/-- STOP (R162). -/
def execStop (s : State) : Host.Outcome State Fault Refusal :=
  commandStep .stop stopProc s

end Sys2Proof.Machine
end

