-- ==== Sys2Proof/Machine/Dispatch.lean ====
section
/-! DEFINITION. `exec`: one arm per constructor of `Instr`, each one call of that instruction's meaning. -/

namespace Sys2Proof.Machine

-- One atomic step of a command (spec/00_scope.md R14, log 10).
def exec (i : Instr) (s : State) : Host.Outcome State Fault Refusal :=
  match i with
  | .config ps speed => Sys2Proof.Machine.execConfig ps speed s
  | .role role gc own => Sys2Proof.Machine.execRole role gc own s
  | .start => Sys2Proof.Machine.execStart s
  | .addr byte => Sys2Proof.Machine.execAddr byte s
  | .data byte => Sys2Proof.Machine.execData byte s
  | .stop => Sys2Proof.Machine.execStop s
  | .recv ack => Sys2Proof.Machine.execRecv ack s
  | .sendb addr7 len => Sys2Proof.Machine.execSendb addr7 len s
  | .send1 addr7 byte => Sys2Proof.Machine.execSend1 addr7 byte s
  | .recvb addr7 len => Sys2Proof.Machine.execRecvb addr7 len s

end Sys2Proof.Machine
end

