-- ==== Sys2Proof/Machine/Window.lean ====
section
/-! DEFINITION. The host window (spec/20_memory.md R61 to R65), the sequencer's turn, and how a command word is
fetched: the block fetches no instructions, a command is a host write to CMD (10_state.md R21, R38). -/

namespace Sys2Proof.Machine

/-- The places of the host window (R61). -/
inductive WindowPlace where
  | cmd
  | stat
  | rxdata
  | reservedWord
  | tx (i : Byte)
  | rx (i : Byte)
  | reservedByte
deriving DecidableEq, Repr

/-- The place an access of `n` bytes at a window offset reaches, or none where R65 defines no access: below
0x100 only aligned words, from 0x100 to 0x3FF only bytes, nothing above. Each buffer has `BUF_SIZE` bytes (R8,
10_state.md R35), at most the 256 the map gives it; a byte past a smaller buffer is reserved (log 28). -/
def windowPlace (bufSize off n : Nat) : Option WindowPlace :=
  if off < 0x100 then
    if n = 4 ∧ off % 4 = 0 then
      if off = 0x000 then some .cmd
      else if off = 0x004 then some .stat
      else if off = 0x008 then some .rxdata
      else some .reservedWord
    else none
  else if off < 0x400 then
    if n = 1 then
      if off < 0x200 ∧ off - 0x100 < bufSize then some (.tx (BitVec.ofNat 8 (off - 0x100)))
      else if 0x200 ≤ off ∧ off < 0x300 ∧ off - 0x200 < bufSize then
        some (.rx (BitVec.ofNat 8 (off - 0x200)))
      else some .reservedByte
    else none
  else none

/-- The place a platform address reaches (R61: the window starts at `HOST_BASE`). -/
def hostPlace (c : Params) (addr n : Nat) : Option WindowPlace :=
  if c.hostBase ≤ addr then windowPlace c.bufSize (addr - c.hostBase) n else none

/-- What a host read of a place returns (R36 to R38, R61, R63). -/
def State.hostValue (s : State) : WindowPlace → Word
  | .cmd => 0#32
  | .stat => s.statWord
  | .rxdata => s.rxdataWord
  | .reservedWord => 0#32
  | .tx i => (s.txByte i).setWidth 32
  | .rx i => (s.rxByte i).setWidth 32
  | .reservedByte => 0#32

/-- The host's read is recorded and changes nothing else (log 5). -/
def State.recordRead (s : State) (v : Word) : State := { s with hostReads := s.hostReads ++ [v] }

/-- A command issue (R62, R104): while busy it is dropped and OVERRUN is set (R64); an illegal word leaves
RESULT ILLEGAL and nothing else (R103); any other runs the command's accept step. -/
def issueCommand (w : Word) (s : State) : Host.Outcome State Fault Refusal :=
  if s.busy then .next s.raiseOverrun
  else
    match decodeCommand w with
    | .ok i => exec i s
    | .error _ => .next (s.rejectCommand .illegal)

/-- A host write to TXBUF (R63, R64). -/
def State.hostWriteTx (s : State) (i v : Byte) : State :=
  if s.busy then s.raiseOverrun else s.writeTx i v

/-- A host write to a place: CMD and TXBUF act, every other place ignores it (R61, R63). -/
def hostWrite (p : WindowPlace) (v : Word) (s : State) : Host.Outcome State Fault Refusal :=
  match p with
  | .cmd => issueCommand v s
  | .stat => .next s
  | .rxdata => .next s
  | .reservedWord => .next s
  | .tx i => .next (s.hostWriteTx i (v.setWidth 8))
  | .rx _ => .next s
  | .reservedByte => .next s

/-- One host access (R61 to R65); an access the spec does not define has no meaning (R65, log 16). -/
def hostStep (a : HostAccess) (s : State) : Host.Outcome State Fault Refusal :=
  match a with
  | .read addr n =>
    match hostPlace s.cfg addr n with
    | some p => .next (s.recordRead (s.hostValue p))
    | none => .refused .undefinedHostAccess
  | .write addr n v =>
    match hostPlace s.cfg addr n with
    | some p => hostWrite p v s
    | none => .refused .undefinedHostAccess

/-- The sequencer's turn: the next step of the latched command; an idle block waits for the host
(70_reset_and_hazards.md R231, log 4). -/
def sequencerStep (s : State) : Host.Outcome State Fault Refusal :=
  if s.busy then
    match decodeCommand s.cur with
    | .ok i => exec i s
    | .error _ => .fault .noCommand
  else .next s

/-- One turn of an agent. -/
def turnStep (t : Turn) (s : State) : Host.Outcome State Fault Refusal :=
  match t with
  | .host a => hostStep a s
  | .sequencer => sequencerStep s
  | .reset => .next s.resetBlock

/-- The access that issues a command word (R62). -/
def cmdWrite (c : Params) (w : Word) : HostAccess := .write c.hostBase 4 w

/-- Host script `wr8` (30_encoding.md R108). -/
def scriptWr8 (c : Params) (off : Nat) (v : Byte) : HostAccess := .write (c.hostBase + off) 1 (v.setWidth 32)

/-- Host script `rd32` (R108). -/
def scriptRd32 (c : Params) (off : Nat) : HostAccess := .read (c.hostBase + off) 4

/-- Host script `rd8` (R108). -/
def scriptRd8 (c : Params) (off : Nat) : HostAccess := .read (c.hostBase + off) 1

end Sys2Proof.Machine
end

