-- ==== Sys2Proof/Machine/Step.lean ====
section
/-! DEFINITION. The step: the next turn's agent moves; with no turn pending the sequencer moves (log 4). -/

namespace Sys2Proof.Machine

/-- One atomic step of the machine (spec/00_scope.md R14, R16; 20_memory.md R72). -/
def step (s : State) : Host.Outcome State Fault Refusal :=
  match s.turns with
  | [] => sequencerStep s
  | t :: rest => turnStep t { s with turns := rest }

/-- `s` with a command word placed where the next step takes it (log 15): the block is idle and the host's next
turn writes the word to CMD. -/
def State.withFetchWord (s : State) (nbits w : Nat) : State :=
  { s with
    busy := false
    frame := Frame.start
    turns := .host (cmdWrite s.cfg (BitVec.ofNat 32 (w % 2 ^ nbits))) :: s.turns }

end Sys2Proof.Machine
end

