-- ==== Sys2Proof/Machine/Procedures.lean ====
section
/-! DEFINITION. The commands' procedures as the spec's pseudocode writes them (41_primitives.md R143, R148 to
R162; 42_composed.md R182 to R188; 40_configuration.md R123, R130): each runs from a command's start to its
end at once, without the procedure position. The step machine is the model; these functions are what
statements compare whole runs of it with. -/

namespace Sys2Proof.Machine

/-- The poll loop (R143, R144), at most `fuel` polls: was the flag seen, and the state after. -/
def pollLoop : Nat → State → Bool × State
  | 0, s => (false, s)
  | fuel + 1, s =>
    if flagSeen s.cfg s.portAnswer then (true, s.portRead .ctrl)
    else if (s.portRead .ctrl).portWait.countPoll.pollsExhausted then
      (false, (s.portRead .ctrl).portWait.countPoll)
    else pollLoop fuel (s.portRead .ctrl).portWait.countPoll

/-- `poll_step` up to the poll loop (R143). -/
def pollHead (p : PollArgs) (legal : Bool) (s : State) : State :=
  let s0 : State := { s.raiseSeqErr (!legal) with phase := p.pend }
  let s1 := match p.wdata with
    | some b => s0.portWrite .data b
    | none => s0
  { s1.portWrite .ctrl p.ctrl with pollCount := 0#16 }

/-- `poll_step` from the flag on (R143): read STATUS, validate. -/
def pollTail (p : PollArgs) (legal : Bool) (s : State) : Result × State :=
  let s1 : State := { s.portRead .status with lastStatus := maskedStatus s.cfg s.portAnswer }
  if maskedStatus s.cfg s.portAnswer ∈ p.accepts then
    (.success, { s1 with phase := if legal then p.ok else .aborted })
  else (.protocol, s1.abort)

/-- `poll_step` (R143). -/
def pollStep (p : PollArgs) (legal : Bool) (s : State) : Result × State :=
  match pollLoop s.cfg.maxPolls (pollHead p legal s) with
  | (true, s1) => pollTail p legal s1
  | (false, s1) => (.timeout, s1.abort)

/-- `start_step` (R148). -/
def startStep (s : State) : Result × State := pollStep (startArgs s.cfg) (startLegal s.phase) s

/-- `addr_step(b)` (R150). -/
def addrStep (b : Byte) (s : State) : Result × State :=
  pollStep (addrArgs s.cfg b) (addrLegal s.phase) { s with dir := slaIsRead b }

/-- `data_step(b)` (R153). -/
def dataStep (b : Byte) (s : State) : Result × State :=
  pollStep (dataArgs s.cfg b) (dataLegal s.phase) s

/-- `recv_step(ack)` (R156): DATA is read once, after validation, on SUCCESS only (R158). -/
def recvStep (ack : Bool) (s : State) : Result × State :=
  match pollStep (recvArgs s.cfg ack) (recvLegal s.phase s.dir) s with
  | (.success, s1) => (.success, { s1.portRead .data with rxdata := s1.portAnswer })
  | (r, s1) => (r, s1)

/-- `stop_step` (R162). -/
def stopStep (s : State) : State :=
  { s.portWrite .ctrl s.cfg.ctrl.stop with phase := .idle }

/-- The transfer loop of a composed command (R182, R188), `n` transfers to go. -/
def transferLoop (one : State → Result × State) (store : State → State) :
    Nat → State → Result × State
  | 0, s => (.success, s)
  | n + 1, s =>
    match one s with
    | (.success, s1) => transferLoop one store n { store s1 with idx := s1.idx + 1#9 }
    | (r, s1) => (r, s1)

/-- A composed command up to `finish` (R180, R184, R185). The index begins at 0 (10_state.md R21, R183; log 27). -/
def composedResult (sla : Byte) (n : Nat) (one : State → Result × State) (store : State → State)
    (s : State) : Result × State :=
  match startStep { s with idx := 0#9 } with
  | (.success, s1) =>
    match addrStep sla s1 with
    | (.success, s2) =>
      ((transferLoop one store n { s2 with idx := 0#9 }).1,
        stopStep (transferLoop one store n { s2 with idx := 0#9 }).2)
    | (r, s2) => (r, stopStep s2)
  | (r, s1) => (r, s1)

/-- A command's procedure up to `finish`: its result and the state then. -/
def commandResult (i : Instr) (s : State) : Result × State :=
  match i with
  | .config ps speed =>
    (.success,
      { (s.checkIdle.portWrite .prescale (prescaleByte ps)).portWrite .bitrate
          (bitrateByte s.cfg ps speed) with init := true })
  | .role role gc own =>
    (.success,
      if roleIsSlave role then
        ((s.recordRole role own).portWrite .ownaddr (ownAddrByte own gc)).portWrite .ctrl
          s.cfg.ctrl.slave
      else s.recordRole role own)
  | .start => startStep s
  | .addr byte => addrStep byte s
  | .data byte => dataStep byte s
  | .stop => (.success, stopStep s)
  | .recv ack => recvStep ack s
  | .sendb addr7 len =>
    composedResult (slaByte addr7 false) len.toNat (fun t => dataStep (t.txByte t.bufIndex) t) id s
  | .send1 addr7 byte => composedResult (slaByte addr7 false) 1 (dataStep byte) id s
  | .recvb addr7 len =>
    composedResult (slaByte addr7 true) len.toNat (fun t => recvStep (recvbAck t.idx len) t)
      (fun t => t.writeRx t.bufIndex t.rxdata) s

/-- A command run from its start to the end of its `finish` step (00_scope.md R13). -/
def runCommand (i : Instr) (s : State) : State := (commandResult i s).2.finish (commandResult i s).1

/-- `k` steps of one command, stopping at the first fault or refusal. -/
def execSteps (i : Instr) : Nat → State → Host.Outcome State Fault Refusal
  | 0, s => .next s
  | k + 1, s =>
    match exec i s with
    | .next s' => execSteps i k s'
    | .fault r => .fault r
    | .refused r => .refused r

/-- The most sequencer steps a command takes after its accept step (41_primitives.md R159, 42_composed.md
R192; for CONFIG and ROLE counted from R123 and R130). -/
def stepBound (c : Params) : Instr → Nat
  | .config _ _ => 3
  | .role _ _ _ => 3
  | .start => 2 * c.maxPolls + 3
  | .addr _ => 2 * c.maxPolls + 3
  | .data _ => 2 * c.maxPolls + 3
  | .recv _ => 2 * c.maxPolls + 3
  | .stop => 2
  | .sendb _ len => (len.toNat + 2) * (2 * c.maxPolls + 3) + 2
  | .send1 _ _ => (1 + 2) * (2 * c.maxPolls + 3) + 2
  | .recvb _ len => (len.toNat + 2) * (2 * c.maxPolls + 3) + 2

end Sys2Proof.Machine
end

