-- ==== Sys2Proof/Safety.lean ====
section
/-! DEFINITION. What claims are stated in: the machine's invariant, the premises the spec names for claims about
the bus (60_exceptions.md R208), and the vocabulary of frames and port discipline. -/

namespace Sys2Proof.Machine

/-- The phases of a block that runs no command (10_state.md R25). -/
def Phase.settled : Phase → Bool
  | .idle => true
  | .startOk => true
  | .addrOk => true
  | .dataOk => true
  | .aborted => true
  | .startPending => false
  | .addrPending => false
  | .dataPending => false
  | .stopIssued => false

/-- The phases of a step that waits for the flag (R24). -/
def Phase.pending : Phase → Bool
  | .startPending => true
  | .addrPending => true
  | .dataPending => true
  | .idle => false
  | .startOk => false
  | .addrOk => false
  | .dataOk => false
  | .aborted => false
  | .stopIssued => false

/-- The phase fits the procedure point: pending inside `poll_step`, STOP_ISSUED after the stop's write (R163),
settled elsewhere. -/
def phaseFits (p : Phase) : Point → Bool
  | .wroteData => p.pending
  | .wroteCtrl => p.pending
  | .polled => p.pending
  | .waited => p.pending
  | .gotStatus => p.pending
  | .stopped => p == .stopIssued
  | .entry => p.settled
  | .wrotePrescale => p.settled
  | .wroteBitrate => p.settled
  | .wroteOwnAddr => p.settled
  | .wroteSlaveCtrl => p.settled
  | .gotData => p.settled

/-- The points of one polling primitive after its first call; `writes` for a step with a DATA write, `reads` for
RECV. -/
def pollPoint (writes reads : Bool) : Point → Bool
  | .wroteData => writes
  | .wroteCtrl => true
  | .polled => true
  | .waited => true
  | .gotStatus => true
  | .gotData => reads
  | .entry => false
  | .wrotePrescale => false
  | .wroteBitrate => false
  | .wroteOwnAddr => false
  | .wroteSlaveCtrl => false
  | .stopped => false

/-- The points of a composed command's polling steps by stage; `reads` for RECVB's transfers. -/
def stagePoint (reads : Bool) (f : Frame) : Bool :=
  match f.stage with
  | .start => pollPoint false false f.point
  | .address => pollPoint true false f.point
  | .transfer => pollPoint (!reads) reads f.point

/-- The points of a composed command: its polling steps', the entry, and after the stop. -/
def composedPoint (reads : Bool) (f : Frame) : Bool :=
  f.point == .entry || f.point == .stopped || stagePoint reads f

/-- The procedure points of each command (R21). -/
def procedurePoint (f : Frame) : Instr → Bool
  | .config _ _ => f.point == .entry || f.point == .wrotePrescale || f.point == .wroteBitrate
  | .role role _ _ =>
    f.point == .entry ||
      (roleIsSlave role && (f.point == .wroteOwnAddr || f.point == .wroteSlaveCtrl))
  | .start => f.point == .entry || pollPoint false false f.point
  | .addr _ => f.point == .entry || pollPoint true false f.point
  | .data _ => f.point == .entry || pollPoint true false f.point
  | .recv _ => f.point == .entry || pollPoint false true f.point
  | .stop => f.point == .entry || f.point == .stopped
  | .sendb _ _ => composedPoint false f
  | .send1 _ _ => composedPoint false f
  | .recvb _ _ => composedPoint true f

/-- The bytes a composed command transfers; 0 for every other command. -/
def transferCount : Instr → Nat
  | .config _ _ => 0
  | .role _ _ _ => 0
  | .start => 0
  | .addr _ => 0
  | .data _ => 0
  | .stop => 0
  | .recv _ => 0
  | .sendb _ len => len.toNat
  | .send1 _ _ => 1
  | .recvb _ len => len.toNat

/-- A composed command. -/
def isComposed : Instr → Bool
  | .config _ _ => false
  | .role _ _ _ => false
  | .start => false
  | .addr _ => false
  | .data _ => false
  | .stop => false
  | .recv _ => false
  | .sendb _ _ => true
  | .send1 _ _ => true
  | .recvb _ _ => true

/-- The point stands between a CTRL poll and its outcome: the counter is then below the bound (R144). -/
def Point.polling : Point → Bool
  | .polled => true
  | .waited => true
  | .entry => false
  | .wrotePrescale => false
  | .wroteBitrate => false
  | .wroteOwnAddr => false
  | .wroteSlaveCtrl => false
  | .wroteData => false
  | .wroteCtrl => false
  | .gotStatus => false
  | .gotData => false
  | .stopped => false

/-- What a busy block runs (R30): the latched word is a well-formed command's, the position is one of its
procedure's, the command was let in (R104), and a composed command's index counts the transfers that succeeded
(R21, 42_composed.md R183). -/
structure Running (s : State) (i : Instr) : Prop where
  latched : decodeCommand s.cur = .ok i
  point : procedurePoint s.frame i = true
  admitted : (needsInit i && !s.init) = false
  index : isComposed i = true → s.frame.stage = .transfer → s.frame.point ≠ .stopped →
    s.idx.toNat < transferCount i
  /-- before the first transfer the index is 0 -/
  before : isComposed i = true → s.frame.stage ≠ .transfer → s.frame.point ≠ .entry → s.idx = 0#9
  /-- a command that stopped the bus with SUCCESS has made all its transfers -/
  done : isComposed i = true → s.frame.point = .stopped → s.frame.res = .success →
    s.idx.toNat = transferCount i

/-- The machine's invariant. -/
structure Inv (s : State) : Prop where
  /-- the parameters are ones the spec admits (00_scope.md R9) -/
  params : s.cfg.Legal
  /-- the buffers keep their canonical form inside TXBUF and RXBUF -/
  memory : s.mem.wf = true
  /-- R25: the phase fits the position -/
  phase : phaseFits s.phase s.frame.point = true
  /-- an idle block stands at the start position -/
  atRest : s.busy = false → s.frame = Frame.start
  /-- R30: a busy block runs the command it has latched -/
  running : s.busy = true → ∃ i, Running s i
  /-- 60_exceptions.md R214: the poll counter never passes the bound -/
  polls : s.pollCount.toNat ≤ s.cfg.maxPolls
  /-- R144: before the bound is reached the counter is below it -/
  polling : s.frame.point.polling = true → s.pollCount.toNat < s.cfg.maxPolls
  /-- 41_primitives.md R140: the recorded status is a masked one -/
  status : maskedStatus s.cfg s.lastStatus = s.lastStatus
  /-- R21: the index stays in 0..LEN_MAX -/
  index : s.idx.toNat ≤ s.cfg.lenMax

/-- No fault recorded: the premises of a claim about the bus (60_exceptions.md R208). -/
abbrev Clean (s : State) : Prop := s.seqErr = false ∧ s.overrun = false

/-- The port accesses the block may make (20_memory.md R66, R67): BITRATE, PRESCALE and OWNADDR are only
written, STATUS is only read, DATA and CTRL both; a wait lasts the poll interval. -/
def allowedEvent (c : Params) : Event → Bool
  | .write .bitrate _ => true
  | .write .prescale _ => true
  | .write .ownaddr _ => true
  | .write .data _ => true
  | .write .ctrl v =>
    v == c.ctrl.start || v == c.ctrl.xfer || v == c.ctrl.recvAck || v == c.ctrl.stop || v == c.ctrl.slave
  | .write .status _ => false
  | .read .status _ => true
  | .read .ctrl _ => true
  | .read .data _ => true
  | .read .bitrate _ => false
  | .read .prescale _ => false
  | .read .ownaddr _ => false
  | .delay us => us == c.pollIntervalUs

/-- An outcome with its next state changed by `f`. -/
def mapNext (f : State → State) : Host.Outcome State Fault Refusal → Host.Outcome State Fault Refusal
  | .next s => .next (f s)
  | .fault r => .fault r
  | .refused r => .refused r

/-- The reserved bits of each format, as (highest, lowest) bit numbers (30_encoding.md R91 to R99). -/
def reservedRanges (op : Nat) : List (Nat × Nat) :=
  if op = 0x1 then [(31, 15), (11, 10), (7, 4)]
  else if op = 0x2 then [(31, 24), (15, 11), (7, 4)]
  else if op = 0x3 ∨ op = 0x6 then [(31, 4)]
  else if op = 0x4 ∨ op = 0x5 then [(31, 16), (7, 4)]
  else if op = 0x7 then [(31, 17), (15, 4)]
  else if op = 0x8 ∨ op = 0x9 ∨ op = 0xA then [(31, 24), (15, 15), (7, 4)]
  else []

/-- The illegal words, as R103 lists them: an unused opcode, a reserved bit set, a speed code above 4, RECVB
with LEN = 0. -/
def illegalWord (w : Word) : Prop :=
  let op := (w.extractLsb' 0 4).toNat
  op = 0x0 ∨ 0xB ≤ op ∨
  (∃ r ∈ reservedRanges op, ∃ b, r.2 ≤ b ∧ b ≤ r.1 ∧ w.getLsbD b = true) ∨
  (op = 0x1 ∧ 5 ≤ (w.extractLsb' 12 3).toNat) ∨
  (op = 0xA ∧ w.extractLsb' 16 8 = 0#8)

/-- The polling primitives (41_primitives.md R143). -/
def isPollingPrimitive : Instr → Bool
  | .start => true
  | .addr _ => true
  | .data _ => true
  | .recv _ => true
  | .config _ _ => false
  | .role _ _ _ => false
  | .stop => false
  | .sendb _ _ => false
  | .send1 _ _ => false
  | .recvb _ _ => false

/-- The events of the polls that read the flag as 0: a CTRL read and a wait each (R144, R165). -/
def clearPolls (c : Params) (answers : List Byte) : List Event :=
  answers.flatMap fun v => [.read .ctrl v, .delay c.pollIntervalUs]

/-- The port writes a polling primitive begins with: DATA before CTRL (R145, R165). -/
def primitiveWrites (c : Params) : Instr → List Event
  | .start => [.write .ctrl c.ctrl.start]
  | .addr b => [.write .data b, .write .ctrl c.ctrl.xfer]
  | .data b => [.write .data b, .write .ctrl c.ctrl.xfer]
  | .recv ack => [.write .ctrl (if ack then c.ctrl.recvAck else c.ctrl.xfer)]
  | .config _ _ => []
  | .role _ _ _ => []
  | .stop => []
  | .sendb _ _ => []
  | .send1 _ _ => []
  | .recvb _ _ => []

/-- The status codes a polling primitive accepts (R166). -/
def primitiveAccepts (c : StatusCodes) : Instr → List Byte
  | .start => [c.start, c.repStart]
  | .addr b => if b.getLsbD 0 then [c.slaRAck] else [c.slaWAck]
  | .data _ => [c.dataTxAck, c.dataRxAck]
  | .recv ack => if ack then [c.dataRxAck] else [c.dataRxNack]
  | .config _ _ => []
  | .role _ _ _ => []
  | .stop => []
  | .sendb _ _ => []
  | .send1 _ _ => []
  | .recvb _ _ => []

/-- `Legal(p, phase, dir)` (R146). -/
def primitiveLegal (phase : Phase) (dir : Bool) : Instr → Prop
  | .start => phase = .idle ∨ phase = .addrOk ∨ phase = .dataOk
  | .addr _ => phase = .startOk
  | .data _ => phase = .addrOk ∨ phase = .dataOk
  | .recv _ => (phase = .addrOk ∨ phase = .dataOk) ∧ dir = true
  | .stop => True
  | .config _ _ => False
  | .role _ _ _ => False
  | .sendb _ _ => False
  | .send1 _ _ => False
  | .recvb _ _ => False

/-- The phase a polling primitive waits in, and the phase its legal success leads to (R147). -/
def primitivePhases : Instr → Phase × Phase
  | .start => (.startPending, .startOk)
  | .addr _ => (.addrPending, .addrOk)
  | .data _ => (.dataPending, .dataOk)
  | .recv _ => (.dataPending, .dataOk)
  | .stop => (.stopIssued, .idle)
  | .config _ _ => (.idle, .idle)
  | .role _ _ _ => (.idle, .idle)
  | .sendb _ _ => (.idle, .idle)
  | .send1 _ _ => (.idle, .idle)
  | .recvb _ _ => (.idle, .idle)

/-- The status codes the present transfer step of a composed command accepts (R166, R189). -/
def composedAccepts (s : State) (i : Instr) : List Byte :=
  match s.frame.stage, i with
  | .start, _ => [s.cfg.statusCodes.start, s.cfg.statusCodes.repStart]
  | .address, .recvb _ _ => [s.cfg.statusCodes.slaRAck]
  | .address, _ => [s.cfg.statusCodes.slaWAck]
  | .transfer, .recvb _ n =>
    if s.idx.toNat + 1 < n.toNat then [s.cfg.statusCodes.dataRxAck] else [s.cfg.statusCodes.dataRxNack]
  | .transfer, _ => [s.cfg.statusCodes.dataTxAck, s.cfg.statusCodes.dataRxAck]

/-- The window offset a step of RECVB stores to: `RXBUF[S.idx]`, in the step after a transfer's DATA read
(42_composed.md R188 with 00_scope.md R14). -/
def recvbStore (s : State) : Option Nat :=
  if s.busy ∧ s.frame.point = .gotData ∧ s.frame.stage = .transfer then some (rxOffset s.bufIndex)
  else none

/-- The source's property on the effective frequency (40_configuration.md R129, D38): a claim's premise, since
neither the tolerance nor the frequency function is given. No rule reads it. DESIGN CHOICE (log 19): the spec
says "within a documented tolerance" and gives the tolerance no form; that it is a bound on the absolute
difference, the same above and below, in whole Hz, is the model's. -/
def rateWithinTolerance (c : Params) (speed : SpeedClass) (bitrate prescale : Byte) : Prop :=
  targetRate c speed ≤ Config.scl c.fCoreHz bitrate prescale + Config.sclTolerance ∧
    Config.scl c.fCoreHz bitrate prescale ≤ targetRate c speed + Config.sclTolerance

end Sys2Proof.Machine
end

