-- ==== Sys2Proof/Certificates/Slice0/Obligations.lean ====
section
/-! DEFINITION. The statements about the model, for the provers. -/

open Sys2Proof Sys2Proof.Machine

/-! ## Encoding -/

/-- Every well-formed command survives encoding (30_encoding.md R92 to R102). -/
def Obligations.DecodeOfEncode : Prop :=
  ∀ i : Instr, i.wellFormed = true → decodeCommand (encode i) = .ok i

/-- Every word has at most one reading: a word that decodes is the word of the well-formed command it
decodes to, so no bit of it is dropped. -/
def Obligations.EncodeOfDecode : Prop :=
  ∀ (w : Word) (i : Instr), decodeCommand w = .ok i → i.wellFormed = true ∧ encode i = w

/-- R103: exactly the listed words are illegal, and issuing one writes RESULT and nothing else (`turns` only
loses the access made). -/
def Obligations.IllegalWordsAreExactlyThoseListed : Prop :=
  (∀ w : Word, (∃ e, decodeCommand w = .error e) ↔ illegalWord w) ∧
  ∀ (s : State) (w : Word) (rest : List Turn),
    s.busy = false → illegalWord w → s.turns = .host (cmdWrite s.cfg w) :: rest →
    step s = .next { s with turns := rest, result := .illegal }

/-- R109 (the spec's own inference from R92 to R101): the example lines and words. Each line assembles to
its word, and each word decodes to its command. -/
def Obligations.ExampleWordsDecode : Prop :=
  assemble .start = some 0x00000003#32 ∧
  assemble .stop = some 0x00000006#32 ∧
  assemble (.addr 0xA0) = some 0x0000A004#32 ∧
  assemble (.data 0x12) = some 0x00001205#32 ∧
  assemble (.recv true) = some 0x00010007#32 ∧
  assemble (.recv false) = some 0x00000007#32 ∧
  assemble (.config 1 .standard) = some 0x00001001#32 ∧
  assemble (.config 4 .fast) = some 0x00002101#32 ∧
  assemble (.config 1 .fastPlus) = some 0x00003001#32 ∧
  assemble (.role .masterTransmit false none) = some 0x00000002#32 ∧
  assemble (.role .slaveTransmit true (some 0x42)) = some 0x00420602#32 ∧
  assemble (.sendb 0x50 2) = some 0x00025008#32 ∧
  assemble (.send1 0x50 0x7F) = some 0x007F5009#32 ∧
  assemble (.recvb 0x50 3) = some 0x0003500A#32 ∧
  decodeCommand 0x00000003#32 = .ok .start ∧
  decodeCommand 0x00000006#32 = .ok .stop ∧
  decodeCommand 0x0000A004#32 = .ok (.addr 0xA0#8) ∧
  decodeCommand 0x00001205#32 = .ok (.data 0x12#8) ∧
  decodeCommand 0x00010007#32 = .ok (.recv true) ∧
  decodeCommand 0x00000007#32 = .ok (.recv false) ∧
  decodeCommand 0x00001001#32 = .ok (.config 0#2 .standard) ∧
  decodeCommand 0x00002101#32 = .ok (.config 1#2 .fast) ∧
  decodeCommand 0x00003001#32 = .ok (.config 0#2 .fastPlus) ∧
  decodeCommand 0x00000002#32 = .ok (.role .masterTransmit false 0#8) ∧
  decodeCommand 0x00420602#32 = .ok (.role .slaveTransmit true 0x42#8) ∧
  decodeCommand 0x00025008#32 = .ok (.sendb 0x50#7 2#8) ∧
  decodeCommand 0x007F5009#32 = .ok (.send1 0x50#7 0x7F#8) ∧
  decodeCommand 0x0003500A#32 = .ok (.recvb 0x50#7 3#8)

/-- R106, R107: what the assembler accepts is the word of a well-formed command, which the decoder reads
back; and it rejects exactly the operands out of their field's range. -/
def Obligations.AssembledLinesDecode : Prop :=
  (∀ (l : AsmLine) (w : Word), assemble l = some w →
    ∃ i, assembleInstr l = some i ∧ i.wellFormed = true ∧ decodeCommand w = .ok i) ∧
  (∀ n : Nat, assemble (.addr n) = none ↔ 255 < n) ∧
  (∀ n : Nat, assemble (.data n) = none ↔ 255 < n) ∧
  (∀ a n : Nat, assemble (.sendb a n) = none ↔ 127 < a ∨ 255 < n) ∧
  (∀ a n : Nat, assemble (.send1 a n) = none ↔ 127 < a ∨ 255 < n) ∧
  (∀ a n : Nat, assemble (.recvb a n) = none ↔ n = 0 ∨ 127 < a ∨ 255 < n) ∧
  (∀ (p : Nat) (c : SpeedClass), assemble (.config p c) = none ↔ p ≠ 1 ∧ p ≠ 4 ∧ p ≠ 16 ∧ p ≠ 64) ∧
  (∀ (r : Role) (gc : Bool) (n : Nat), assemble (.role r gc (some n)) = none ↔ 255 < n) ∧
  (∀ (r : Role) (gc : Bool),
    assemble (.role r gc none) = none ↔ r = .slaveTransmit ∨ r = .slaveReceive) ∧
  (∀ a : Nat, a ≤ 127 → assemble (.slaw a) = assemble (.addr (2 * a)) ∧
    assemble (.slar a) = assemble (.addr (2 * a + 1))) ∧
  (∀ a : Nat, 127 < a → assemble (.slaw a) = none ∧ assemble (.slar a) = none) ∧
  assemble .rstart = assemble .start ∧ assemble .recover = assemble .stop

/-! ## Steps, accepting, the host window -/

/-- A host write of a word to CMD while the block is idle runs the decoded command's accept step, and the
sequencer's turn while it is busy runs the next step of the latched command: in both, `step` is `exec` of the
decoded command, the pending turn taken off (R38, R62, R104; log 10). -/
def Obligations.StepRunsDecodedCommand : Prop :=
  (∀ (s : State) (w : Word) (i : Instr) (rest : List Turn),
    s.busy = false → decodeCommand w = .ok i → s.turns = .host (cmdWrite s.cfg w) :: rest →
    step s = exec i { s with turns := rest }) ∧
  (∀ (s : State) (i : Instr) (rest : List Turn),
    s.busy = true → decodeCommand s.cur = .ok i → s.turns = .sequencer :: rest →
    step s = exec i { s with turns := rest }) ∧
  (∀ (s : State) (i : Instr),
    s.busy = true → decodeCommand s.cur = .ok i → s.turns = [] → step s = exec i s) ∧
  (∀ (s : State) (i : Instr), i.wellFormed = true →
    step (s.withFetchWord 32 (encode i).toNat) =
      exec i { s with busy := false, frame := Frame.start })

/-- R104: the accept step, its checks in the rule's order. -/
def Obligations.AcceptChecksInOrder : Prop :=
  ∀ (s : State) (w : Word), s.busy = false →
    ((∃ e, decodeCommand w = .error e) → issueCommand w s = .next { s with result := .illegal }) ∧
    (∀ i : Instr, decodeCommand w = .ok i →
      issueCommand w s = exec i s ∧
      ((∀ ps spd, i ≠ .config ps spd) → s.init = false →
        exec i s = .next { s with result := .uninit }) ∧
      (∀ ps spd, i = .config ps spd →
        ¬ (0 ≤ divisor s.cfg ps spd ∧ divisor s.cfg ps spd ≤ s.cfg.bitrateMax) →
        exec i s = .next { s with result := .config }) ∧
      ((∀ ps spd, i ≠ .config ps spd) → s.init = true →
        exec i s = .next { s with cur := w, busy := true, frame := Frame.start }) ∧
      (∀ ps spd, i = .config ps spd →
        0 ≤ divisor s.cfg ps spd → divisor s.cfg ps spd ≤ s.cfg.bitrateMax →
        exec i s = .next { s with cur := w, busy := true, frame := Frame.start }))

/-- R64: while busy, a host write to CMD or TXBUF is dropped and sets OVERRUN, whatever the word or byte. Host
reads of STAT, RXDATA, TXBUF and RXBUF return the present state and change nothing, while busy (R64) and while
idle alike (R36, R37, R63). A buffer has BUF_SIZE bytes (R8), 256 in the map of R61. -/
def Obligations.BusyBlockDropsHostWrites : Prop :=
  ∀ (s : State) (rest : List Turn),
    (s.busy = true →
      (∀ w : Word, s.turns = .host (.write s.cfg.hostBase 4 w) :: rest →
        step s = .next { s with turns := rest, overrun := true }) ∧
      (∀ (k : Nat) (v : Word), k ≤ 255 → k < s.cfg.bufSize →
        s.turns = .host (.write (s.cfg.hostBase + 0x100 + k) 1 v) :: rest →
        step s = .next { s with turns := rest, overrun := true })) ∧
    (s.turns = .host (.read (s.cfg.hostBase + 0x004) 4) :: rest →
      step s = .next { s with turns := rest, hostReads := s.hostReads ++ [s.statWord] }) ∧
    (s.turns = .host (.read (s.cfg.hostBase + 0x008) 4) :: rest →
      step s = .next { s with turns := rest, hostReads := s.hostReads ++ [s.rxdata.setWidth 32] }) ∧
    (∀ k : Nat, k ≤ 255 → k < s.cfg.bufSize →
      s.turns = .host (.read (s.cfg.hostBase + 0x100 + k) 1) :: rest →
      step s = .next { s with
        turns := rest, hostReads := s.hostReads ++ [(s.bufferByte (0x100 + k)).setWidth 32] }) ∧
    (∀ k : Nat, k ≤ 255 → k < s.cfg.bufSize →
      s.turns = .host (.read (s.cfg.hostBase + 0x200 + k) 1) :: rest →
      step s = .next { s with
        turns := rest, hostReads := s.hostReads ++ [(s.bufferByte (0x200 + k)).setWidth 32] })

/-- R36: STAT's fields, whole, read from one state; a host write to it is ignored; after reset it reads 0. -/
def Obligations.StatHoldsBusyResultInit : Prop :=
  (∀ (s : State) (rest : List Turn),
    s.turns = .host (.read (s.cfg.hostBase + 0x004) 4) :: rest →
    ∃ v : Word,
      step s = .next { s with turns := rest, hostReads := s.hostReads ++ [v] } ∧
      v.getLsbD 0 = s.busy ∧ v.extractLsb' 1 3 = s.result.code ∧ v.getLsbD 4 = s.init ∧
      v.extractLsb' 5 27 = 0#27) ∧
  (∀ (s : State) (w : Word) (rest : List Turn),
    s.turns = .host (.write (s.cfg.hostBase + 0x004) 4 w) :: rest → step s = .next { s with turns := rest }) ∧
  State.reset.statWord = 0#32

/-- R36, R37, R61, R63: writes to STAT, RXDATA, RXBUF and the reserved offsets are ignored, and reads of CMD and
the reserved offsets give 0. -/
def Obligations.ReadOnlyAndReservedPlaces : Prop :=
  ∀ (s : State) (rest : List Turn) (off n : Nat) (v : Word),
    (n = 4 ∧ off % 4 = 0 ∧ 0x004 ≤ off ∧ off < 0x100 ∨ n = 1 ∧ 0x200 ≤ off ∧ off < 0x400 →
      s.turns = .host (.write (s.cfg.hostBase + off) n v) :: rest →
      step s = .next { s with turns := rest }) ∧
    (n = 4 ∧ off % 4 = 0 ∧ (off = 0x000 ∨ 0x00C ≤ off ∧ off < 0x100) ∨ n = 1 ∧ 0x300 ≤ off ∧ off < 0x400 →
      s.turns = .host (.read (s.cfg.hostBase + off) n) :: rest →
      step s = .next { s with turns := rest, hostReads := s.hostReads ++ [0#32] })

/-- R65: an access is refused exactly if it is of another width, misaligned or outside the window. -/
def Obligations.UndefinedHostAccessesAreRefused : Prop :=
  ∀ (s : State) (rest : List Turn) (addr n : Nat) (a : HostAccess),
    (a = .read addr n ∨ ∃ v, a = .write addr n v) → s.turns = .host a :: rest →
    (step s = .refused .undefinedHostAccess ↔
      ¬ (s.cfg.hostBase ≤ addr ∧ addr < s.cfg.hostBase + 0x100 ∧ n = 4 ∧ (addr - s.cfg.hostBase) % 4 = 0) ∧
      ¬ (s.cfg.hostBase + 0x100 ≤ addr ∧ addr < s.cfg.hostBase + 0x400 ∧ n = 1))

/-- R63: an idle block takes a TXBUF write into that byte alone, and the host's read of that byte that comes
next returns it. (BusyBlockDropsHostWrites says what a read returns in any state, BufferBytesChangeOnlyByTheirWriters that the
byte keeps its value until it is written again.) -/
def Obligations.TxbufWritesAreReadBack : Prop :=
  ∀ (s : State) (rest : List Turn) (k : Nat) (v : Byte), s.mem.wf = true → k ≤ 255 →
    k < s.cfg.bufSize → s.busy = false →
    s.turns = .host (.write (s.cfg.hostBase + 0x100 + k) 1 (v.setWidth 32)) :: rest →
    ∃ t, step s = .next t ∧ t = { s with turns := rest, mem := t.mem } ∧ t.mem.wf = true ∧
      t.bufferByte (0x100 + k) = v ∧ (∀ off, off ≠ 0x100 + k → t.bufferByte off = s.bufferByte off) ∧
      ∀ rest', rest = .host (.read (s.cfg.hostBase + 0x100 + k) 1) :: rest' →
        step t = .next { t with turns := rest', hostReads := s.hostReads ++ [v.setWidth 32] }

/-- R230: the values reset leaves. The buffers are unspecified, so nothing is said of them here. -/
def Obligations.ResetValues : Prop :=
  let s := State.reset
  s.busy = false ∧ s.result = .none ∧ s.init = false ∧ s.rxdata = 0#8 ∧ s.phase = .idle ∧ s.dir = false ∧
  s.role = .masterTransmit ∧ s.ownAddr = 0#8 ∧ s.pollCount = 0#16 ∧ s.lastStatus = 0#8 ∧
  s.seqErr = false ∧ s.overrun = false ∧ s.cur = 0#32 ∧ s.idx = 0#9 ∧ s.trace = []

/-- The invariant holds right after reset, where every buffer byte reads as its free draw (R35; that the draw is
an opaque value of its offset is the model's form, log 6). -/
def Obligations.ResetMeetsTheInvariant : Prop :=
  Inv State.reset ∧ ∀ off, State.reset.bufferByte off = Config.bufferByte 0 off

/-- R230 to R232: a reset turn, also in the middle of a command, gives every field of the block its reset value
and makes no port access. The model's choices: the emptied trace, against R78's "cleared by nothing", and the
outside world's fields that stay (both log 14); that a later reset draws every buffer byte anew (log 6). -/
def Obligations.ResetTurnRestoresResetValues : Prop :=
  ∀ (s : State) (rest : List Turn), s.turns = .reset :: rest →
    ∃ t, step s = .next t ∧
      t = { State.reset with
        cfg := s.cfg, turns := rest, answers := s.answers, draws := s.draws,
        resets := s.resets + 1, hostReads := s.hostReads } ∧
      (∀ off, t.bufferByte off = Config.bufferByte (s.resets + 1) off)

/-- An idle block with no pending turn, or a sequencer's turn while it is idle, only waits (R231; log 4). -/
def Obligations.IdleBlockWaits : Prop :=
  ∀ s : State, s.busy = false →
    (s.turns = [] → step s = .next s) ∧
    ∀ rest, s.turns = .sequencer :: rest → step s = .next { s with turns := rest }

/-! ## CONFIG, ROLE, STOP -/

/-- R128 (the spec's own inference from R124 and R8): the divisors of the reference configuration. -/
def Obligations.ReferenceDivisors : Prop :=
  let d := divisor Params.reference
  d 0#2 .low = 792 ∧ d 1#2 .low = 768 ∧ d 2#2 .low = 672 ∧ d 3#2 .low = 288 ∧
  d 0#2 .standard = 72 ∧ d 1#2 .standard = 48 ∧ d 2#2 .standard = -48 ∧ d 3#2 .standard = -432 ∧
  d 0#2 .fast = 12 ∧ d 1#2 .fast = -12 ∧ d 2#2 .fast = -108 ∧ d 3#2 .fast = -492 ∧
  d 0#2 .fastPlus = 0 ∧ d 1#2 .fastPlus = -24 ∧ d 2#2 .fastPlus = -120 ∧ d 3#2 .fastPlus = -504 ∧
  d 0#2 .highSpeed = -6 ∧ d 1#2 .highSpeed = -30 ∧ d 2#2 .highSpeed = -126 ∧ d 3#2 .highSpeed = -510

/-- R123 to R126: an accepted CONFIG, from an idle block in any phase, takes the accept step and three sequencer
steps: PRESCALE receives the select code, BITRATE exactly the divisor, then `init` is set and the command
succeeds. A phase other than IDLE is recorded (R121). Nothing else changes. -/
def Obligations.ConfigProgramsTheBus : Prop :=
  ∀ (s : State) (ps : BitVec 2) (spd : SpeedClass), s.cfg.Legal → s.busy = false →
    0 ≤ divisor s.cfg ps spd → divisor s.cfg ps spd ≤ s.cfg.bitrateMax →
    ∃ (s1 s2 s3 : State) (d : Byte),
      exec (.config ps spd) s = .next s1 ∧ exec (.config ps spd) s1 = .next s2 ∧
      exec (.config ps spd) s2 = .next s3 ∧ (d.toNat : Int) = divisor s.cfg ps spd ∧
      exec (.config ps spd) s3 = .next { s with
        cur := encode (.config ps spd), frame := Frame.start, init := true, result := .success,
        seqErr := s.seqErr || decide (s.phase ≠ .idle),
        trace := s.trace ++ [.write .prescale (ps.setWidth 8), .write .bitrate d] }

/-- R127: a CONFIG whose divisor is out of range writes RESULT and nothing else. -/
def Obligations.RejectedConfigChangesOnlyResult : Prop :=
  ∀ (s : State) (ps : BitVec 2) (spd : SpeedClass), s.busy = false →
    ¬ (0 ≤ divisor s.cfg ps spd ∧ divisor s.cfg ps spd ≤ s.cfg.bitrateMax) →
    exec (.config ps spd) s = .next { s with result := .config }

/-- R130, R131: an accepted ROLE with a slave role records the role and the own address, writes OWNADDR (the
address shifted left, the general-call bit low, modulo 256), then CTRL, and succeeds. -/
def Obligations.SlaveRoleWritesTwoRegisters : Prop :=
  ∀ (s : State) (r : Role) (gc : Bool) (own : Byte), s.busy = false → s.init = true →
    (r = .slaveTransmit ∨ r = .slaveReceive) →
    ∃ (s1 s2 s3 : State) (a : Byte),
      exec (.role r gc own) s = .next s1 ∧ exec (.role r gc own) s1 = .next s2 ∧
      exec (.role r gc own) s2 = .next s3 ∧ a.toNat = (2 * own.toNat + gc.toNat) % 256 ∧
      exec (.role r gc own) s3 = .next { s with
        cur := encode (.role r gc own), frame := Frame.start, role := r, ownAddr := own,
        result := .success, seqErr := s.seqErr || decide (s.phase ≠ .idle),
        trace := s.trace ++ [.write .ownaddr a, .write .ctrl s.cfg.ctrl.slave] }

/-- R130, R132: an accepted ROLE with a master role records the role, makes no port access and succeeds. That it
takes a `finish` step of its own is the model's reading (log 9). -/
def Obligations.MasterRoleOnlyRecordsTheRole : Prop :=
  ∀ (s : State) (r : Role) (gc : Bool) (own : Byte), s.busy = false → s.init = true →
    (r = .masterTransmit ∨ r = .masterReceive) →
    ∃ s1, exec (.role r gc own) s = .next s1 ∧
      exec (.role r gc own) s1 = .next { s with
        cur := encode (.role r gc own), frame := Frame.start, role := r, result := .success,
        seqErr := s.seqErr || decide (s.phase ≠ .idle) }

/-- R162 to R164: an accepted STOP writes CTRL once, standing in STOP_ISSUED after the write, and then finishes
in IDLE with SUCCESS, from every phase. -/
def Obligations.StopAlwaysSucceeds : Prop :=
  ∀ s : State, s.busy = false → s.init = true →
    ∃ s1 s2, exec .stop s = .next s1 ∧ exec .stop s1 = .next s2 ∧
      s2.phase = .stopIssued ∧ s2.busy = true ∧ s2.trace = s.trace ++ [.write .ctrl s.cfg.ctrl.stop] ∧
      exec .stop s2 = .next { s with
        cur := encode .stop, frame := Frame.start, phase := .idle, result := .success,
        trace := s.trace ++ [.write .ctrl s.cfg.ctrl.stop] }

/-! ## The polling primitives -/

/-- R143, R145, R146, R151, R161: the first step of START, ADDR, DATA and RECV. The order is judged and a breach
recorded, the direction taken from ADDR's byte, the pending phase entered, and DATA written before CTRL. -/
def Obligations.PrimitivesBeginWithTheirWrites : Prop :=
  ∀ (s : State) (i : Instr), isPollingPrimitive i = true → s.busy = true → s.frame.point = .entry →
    ∃ (t : State) (e : Event) (more : List Event) (legal : Bool),
      exec i s = .next t ∧ primitiveWrites s.cfg i = e :: more ∧
      (legal = true ↔ primitiveLegal s.phase s.dir i) ∧
      t = { s with
        phase := (primitivePhases i).1, seqErr := s.seqErr || !legal, trace := s.trace ++ [e],
        dir := match i with
          | .addr b => b.getLsbD 0
          | _ => s.dir
        frame := { s.frame with
          legal := legal, point := if more = [] then .wroteCtrl else .wroteData } } ∧
      (more ≠ [] → ∃ e', more = [e'] ∧
        exec i t = .next { t with
          trace := t.trace ++ [e'], frame := { t.frame with point := .wroteCtrl } })

/-- R144, first case: if the flag reads 1 at poll k, the loop has made k CTRL reads and k - 1 waits and
`S.poll_count` is k - 1. It holds of every command's polling steps. -/
def Obligations.PollLoopEndsAtTheFlag : Prop :=
  ∀ (s : State) (i : Instr) (clear : List Byte) (c : Byte) (rest : List Byte),
    isPollingPrimitive i = true ∨ isComposed i = true →
    s.cfg.Legal → s.busy = true → s.frame.point = .wroteCtrl →
    s.answers = clear ++ c :: rest → clear.length < s.cfg.maxPolls →
    (∀ v ∈ clear, v.getLsbD s.cfg.flagBit.val = false) → c.getLsbD s.cfg.flagBit.val = true →
    execSteps i (2 * clear.length + 1) s = .next { s with
      answers := rest, draws := s.draws + clear.length + 1,
      pollCount := BitVec.ofNat 16 clear.length,
      trace := s.trace ++ clearPolls s.cfg clear ++ [.read .ctrl c],
      frame := { s.frame with point := .polled, ret := c } }

/-- R144, second case, and R203: if the flag never reads 1, a primitive makes exactly MAX_POLLS CTRL reads and
MAX_POLLS waits, does not read CTRL again, and finishes with TIMEOUT in ABORTED with `S.poll_count` =
MAX_POLLS; `S.last_status` stays. -/
def Obligations.PrimitiveTimesOutAfterMaxPolls : Prop :=
  ∀ (s : State) (i : Instr) (clear rest : List Byte),
    isPollingPrimitive i = true → s.cfg.Legal → s.busy = true → s.frame.point = .wroteCtrl →
    s.answers = clear ++ rest → clear.length = s.cfg.maxPolls →
    (∀ v ∈ clear, v.getLsbD s.cfg.flagBit.val = false) →
    execSteps i (2 * s.cfg.maxPolls + 1) s = .next { s with
      answers := rest, draws := s.draws + s.cfg.maxPolls,
      pollCount := BitVec.ofNat 16 s.cfg.maxPolls, phase := .aborted,
      trace := s.trace ++ clearPolls s.cfg clear,
      result := .timeout, busy := false, frame := Frame.start }

/-- R140, R161, R166, R205: how START, ADDR and DATA end once STATUS is read. The masked status alone decides;
an out-of-order step ends in ABORTED on SUCCESS too. -/
def Obligations.PrimitivesValidateTheStatus : Prop :=
  ∀ (s : State) (i : Instr), isPollingPrimitive i = true → (∀ ack, i ≠ .recv ack) →
    s.busy = true → s.frame.point = .gotStatus →
    let st := s.frame.ret &&& s.cfg.statusMask
    (st ∈ primitiveAccepts s.cfg.statusCodes i →
      exec i s = .next { s with
        lastStatus := st, phase := if s.frame.legal then (primitivePhases i).2 else .aborted,
        result := .success, busy := false, frame := Frame.start }) ∧
    (st ∉ primitiveAccepts s.cfg.statusCodes i →
      exec i s = .next { s with
        lastStatus := st, phase := .aborted, result := .protocol, busy := false, frame := Frame.start })

/-- R156 to R158: RECV reads DATA once, after validation and on success only; the byte goes to `S.rxdata`, and a
failed RECV leaves `S.rxdata` unchanged. -/
def Obligations.RecvReadsDataOnlyOnSuccess : Prop :=
  ∀ (s : State) (ack : Bool), s.busy = true →
    let st := s.frame.ret &&& s.cfg.statusMask
    (s.frame.point = .gotStatus → st = (if ack then s.cfg.statusCodes.dataRxAck else s.cfg.statusCodes.dataRxNack) →
      ∃ v : Byte, exec (.recv ack) s = .next { s with
        lastStatus := st, phase := if s.frame.legal then .dataOk else .aborted,
        trace := s.trace ++ [.read .data v], answers := s.answers.tail, draws := s.draws + 1,
        frame := { s.frame with point := .gotData, ret := v } } ∧
        v = s.answers.headD (Config.peripheralAnswer s.draws)) ∧
    (s.frame.point = .gotStatus → st ≠ (if ack then s.cfg.statusCodes.dataRxAck else s.cfg.statusCodes.dataRxNack) →
      exec (.recv ack) s = .next { s with
        lastStatus := st, phase := .aborted, result := .protocol, busy := false, frame := Frame.start }) ∧
    (s.frame.point = .gotData →
      exec (.recv ack) s = .next { s with
        rxdata := s.frame.ret, result := .success, busy := false, frame := Frame.start })

/-- R165 (the spec's own inference from R143): the port trace of one accepted polling primitive, for every
script of answers, and its result: the flag first read 1 at poll k = `clear.length + 1` with status `st`,
then RECV's DATA read on success. -/
def Obligations.PrimitiveTraceShape : Prop :=
  ∀ (s : State) (i : Instr) (clear rest : List Byte) (c st v : Byte),
    isPollingPrimitive i = true → s.cfg.Legal → s.busy = false → s.init = true →
    clear.length < s.cfg.maxPolls → (∀ a ∈ clear, a.getLsbD s.cfg.flagBit.val = false) →
    c.getLsbD s.cfg.flagBit.val = true → s.answers = clear ++ c :: st :: v :: rest →
    let ok := st &&& s.cfg.statusMask ∈ primitiveAccepts s.cfg.statusCodes i
    let reads := ok ∧ ∃ ack, i = .recv ack
    ∃ n t, n ≤ 2 * s.cfg.maxPolls + 3 ∧ execSteps i (n + 1) s = .next t ∧ t.busy = false ∧
      (ok → t.result = .success) ∧ (¬ ok → t.result = .protocol ∧ t.phase = .aborted) ∧
      t.lastStatus = st &&& s.cfg.statusMask ∧ t.pollCount.toNat = clear.length ∧
      (reads → t.rxdata = v ∧
        t.trace = s.trace ++ primitiveWrites s.cfg i ++ clearPolls s.cfg clear ++
          [.read .ctrl c, .read .status st, .read .data v]) ∧
      (¬ reads → t.rxdata = s.rxdata ∧
        t.trace = s.trace ++ primitiveWrites s.cfg i ++ clearPolls s.cfg clear ++
          [.read .ctrl c, .read .status st])

/-! ## Whole commands -/

/-- The step machine carries out the pseudocode (R14, R123, R130, R143, R148 to R162, R182 to R188) within the
bounds of R159 and R192: a command accepted by an idle block, run on its own, ends in the state its
procedure computes, whatever the peripheral answers. -/
def Obligations.CommandRefinesItsProcedure : Prop :=
  ∀ (s : State) (i : Instr), s.cfg.Legal → s.busy = false → (accept i s).busy = true →
    ∃ n, n ≤ stepBound s.cfg i ∧ execSteps i (n + 1) s = .next (runCommand i (accept i s))

/-- The same of the machine's own step, from the host's CMD write on. -/
def Obligations.MachineRunsCommandsToTheirEnd : Prop :=
  ∀ (s : State) (i : Instr), s.cfg.Legal → s.busy = false → s.turns = [] → s.frame = Frame.start →
    (accept i s).busy = true →
    ∃ n, n ≤ stepBound s.cfg i ∧
      Sys2Proof.core.run (n + 1) (s.withFetchWord 32 (encode i).toNat) =
        .next (runCommand i (accept i s))

/-- R187 (the spec's own inference from R182 and R186): SEND1 (a7, b) and SENDB (a7, 1) with `TXBUF[0]` = b,
from states that differ in the buffers at most, go step by step through the same states but for `S.cur` and
the buffers, under the same answers. -/
def Obligations.SendOneEqualsSendOneByteSequence : Prop :=
  ∀ (s : State) (m : Memory) (a7 : BitVec 7) (b : Byte) (k : Nat),
    s.busy = false → ({ s with mem := m } : State).txByte 0#8 = b →
    ∃ t1 t2, execSteps (.send1 a7 b) k s = .next t1 ∧
      execSteps (.sendb a7 1#8) k { s with mem := m } = .next t2 ∧
      t1.mem = s.mem ∧ t2 = { t1 with cur := t2.cur, mem := m }

/-! ## Composed commands -/

/-- R180, R191: the first step of SENDB, SEND1 and RECVB is START's: the order is judged as START's (R146),
a breach recorded, and CTRL_START written. The index starts at 0 (R21); that it does so in
this step is the model's reading (log 27). -/
def Obligations.ComposedCommandsBeginWithStart : Prop :=
  ∀ (s : State) (i : Instr), isComposed i = true → s.busy = true → s.frame.point = .entry →
    ∃ legal : Bool, (legal = true ↔ s.phase = .idle ∨ s.phase = .addrOk ∨ s.phase = .dataOk) ∧
      exec i s = .next { s with
        phase := .startPending, seqErr := s.seqErr || !legal, idx := 0#9,
        trace := s.trace ++ [.write .ctrl s.cfg.ctrl.start],
        frame := { s.frame with point := .wroteCtrl, stage := .start, legal := legal } }

/-- R185: a composed command whose start fails finishes with the start's result in ABORTED, with no stop. The index stays, at the 0 it started with
(IndexCountsTheTransfers). -/
def Obligations.NoStopAfterFailedStart : Prop :=
  ∀ (s : State) (i : Instr), isComposed i = true → s.busy = true → s.frame.stage = .start →
    (s.frame.point = .waited → s.pollCount.toNat + 1 = s.cfg.maxPolls → s.pollCount.toNat < 65535 →
      exec i s = .next { s with
        pollCount := s.pollCount + 1, phase := .aborted, result := .timeout, busy := false,
        frame := Frame.start }) ∧
    (s.frame.point = .gotStatus →
      s.frame.ret &&& s.cfg.statusMask ≠ s.cfg.statusCodes.start →
      s.frame.ret &&& s.cfg.statusMask ≠ s.cfg.statusCodes.repStart →
      exec i s = .next { s with
        lastStatus := s.frame.ret &&& s.cfg.statusMask, phase := .aborted, result := .protocol,
        busy := false, frame := Frame.start })

/-- R184: after a successful start, a step that fails is followed by the stop's CTRL write in the next step,
and the command then finishes in IDLE with the failing step's result. The index stays
at the number of transfers that succeeded (IndexCountsTheTransfers). -/
def Obligations.LaterFailureStopsTheBus : Prop :=
  ∀ (s : State) (i : Instr), isComposed i = true → s.busy = true → s.frame.stage ≠ .start →
    (s.frame.point = .waited → s.pollCount.toNat + 1 = s.cfg.maxPolls → s.pollCount.toNat < 65535 →
      ∃ t, exec i s = .next t ∧
        t = { s with
          pollCount := s.pollCount + 1, phase := .stopIssued,
          trace := s.trace ++ [.write .ctrl s.cfg.ctrl.stop],
          frame := { s.frame with point := .stopped, res := .timeout } } ∧
        exec i t = .next { t with
          phase := .idle, result := .timeout, busy := false, frame := Frame.start }) ∧
    (s.frame.point = .gotStatus → s.frame.ret &&& s.cfg.statusMask ∉ composedAccepts s i →
      ∃ t, exec i s = .next t ∧
        t = { s with
          lastStatus := s.frame.ret &&& s.cfg.statusMask, phase := .stopIssued,
          trace := s.trace ++ [.write .ctrl s.cfg.ctrl.stop],
          frame := { s.frame with point := .stopped, res := .protocol } } ∧
        exec i t = .next { t with
          phase := .idle, result := .protocol, busy := false, frame := Frame.start })

/-- R180, R100: after a successful start the composed command sends the SLA byte, built from the 7-bit
address and the direction the command has, in the ADDR step. -/
def Obligations.SuccessfulStartIsFollowedByTheAddress : Prop :=
  ∀ (s : State) (i : Instr) (a7 : BitVec 7) (n : Byte),
    (i = .sendb a7 n ∨ i = .send1 a7 n ∨ i = .recvb a7 n) →
    s.busy = true → s.frame.stage = .start → s.frame.point = .gotStatus →
    s.frame.ret &&& s.cfg.statusMask ∈ composedAccepts s i →
    ∃ (sla : Byte) (rd : Bool), sla.toNat = 2 * a7.toNat + rd.toNat ∧ (rd = true ↔ i = .recvb a7 n) ∧
      exec i s = .next { s with
        lastStatus := s.frame.ret &&& s.cfg.statusMask, phase := .addrPending, dir := rd,
        seqErr := s.seqErr || !s.frame.legal, trace := s.trace ++ [.write .data sla],
        frame := { s.frame with
          point := .wroteData, stage := .address, legal := s.frame.legal } }

/-- R182, R183, R190: SENDB and SEND1 after the address step and after each byte: the next byte is sent from
`TXBUF[idx]` (SEND1: from the command word), or the bus is stopped when none is left. -/
def Obligations.SendTransfersBytesInOrder : Prop :=
  ∀ (s : State) (i : Instr) (a7 : BitVec 7) (n : Byte) (idx' : BitVec 9),
    (i = .sendb a7 n ∨ i = .send1 a7 n) → s.busy = true → s.frame.point = .gotStatus →
    (s.frame.stage = .address ∧ idx' = 0#9 ∨ s.frame.stage = .transfer ∧ idx' = s.idx + 1#9) →
    s.frame.ret &&& s.cfg.statusMask ∈ composedAccepts s i →
    let count := if i = .sendb a7 n then n.toNat else 1
    let b := if i = .sendb a7 n then s.bufferByte (0x100 + idx'.toNat) else n
    (idx'.toNat < count →
      exec i s = .next { s with
        lastStatus := s.frame.ret &&& s.cfg.statusMask, idx := idx', phase := .dataPending,
        seqErr := s.seqErr || !s.frame.legal, trace := s.trace ++ [.write .data b],
        frame := { s.frame with point := .wroteData, stage := .transfer } }) ∧
    (count ≤ idx'.toNat →
      exec i s = .next { s with
        lastStatus := s.frame.ret &&& s.cfg.statusMask, idx := idx', phase := .stopIssued,
        trace := s.trace ++ [.write .ctrl s.cfg.ctrl.stop],
        frame := { s.frame with point := .stopped, res := .success } })

/-- R188, R189: RECVB after a successful address step asks for the first byte, with ACK if more than one is
to come; after each successful receive step it reads DATA once. A receive step is in order only after steps
that were, in a read transaction (R146, R161). -/
def Obligations.RecvbAsksForAndReadsEachByte : Prop :=
  ∀ (s : State) (a7 : BitVec 7) (n : Byte), s.busy = true → s.frame.point = .gotStatus → n ≠ 0#8 →
    s.frame.ret &&& s.cfg.statusMask ∈ composedAccepts s (.recvb a7 n) →
    (s.frame.stage = .address →
      exec (.recvb a7 n) s = .next { s with
        lastStatus := s.frame.ret &&& s.cfg.statusMask, idx := 0#9, phase := .dataPending,
        seqErr := s.seqErr || !(s.frame.legal && s.dir),
        trace := s.trace ++ [.write .ctrl
          (if 1 < n.toNat then s.cfg.ctrl.recvAck else s.cfg.ctrl.xfer)],
        frame := { s.frame with
          point := .wroteCtrl, stage := .transfer, legal := s.frame.legal && s.dir } }) ∧
    (s.frame.stage = .transfer →
      ∃ v : Byte, v = s.answers.headD (Config.peripheralAnswer s.draws) ∧
        exec (.recvb a7 n) s = .next { s with
          lastStatus := s.frame.ret &&& s.cfg.statusMask,
          phase := if s.frame.legal then .dataOk else .aborted,
          trace := s.trace ++ [.read .data v], answers := s.answers.tail, draws := s.draws + 1,
          frame := { s.frame with point := .gotData, ret := v } })

/-- R188, R189: RECVB after each byte stores it in `RXBUF[idx]` and asks for the next with ACK, or NACK for the
last, or stops the bus when none is left. The next receive step is judged anew, and a breach recorded (R146,
R161). -/
def Obligations.RecvbStoresBytesInOrder : Prop :=
  ∀ (s : State) (a7 : BitVec 7) (n : Byte),
    s.busy = true → s.frame.point = .gotData → s.frame.stage = .transfer →
    s.idx.toNat < n.toNat →
    ∃ (t : State) (legal : Bool), exec (.recvb a7 n) s = .next t ∧
      (legal = true ↔ (s.phase = .addrOk ∨ s.phase = .dataOk) ∧ s.dir = true) ∧
      (s.idx + 1#9).toNat = s.idx.toNat + 1 ∧ (s.mem.wf = true → t.mem.wf = true) ∧
      t.bufferByte (0x200 + s.idx.toNat) = s.frame.ret ∧
      (∀ off, off ≠ 0x200 + s.idx.toNat → t.bufferByte off = s.bufferByte off) ∧
      (s.idx.toNat + 1 < n.toNat →
        t = { s with
          rxdata := s.frame.ret, idx := s.idx + 1#9, mem := t.mem, phase := .dataPending,
          seqErr := s.seqErr || !legal,
          trace := s.trace ++ [.write .ctrl
            (if s.idx.toNat + 2 < n.toNat then s.cfg.ctrl.recvAck else s.cfg.ctrl.xfer)],
          frame := { s.frame with point := .wroteCtrl, legal := legal } }) ∧
      (s.idx.toNat + 1 = n.toNat →
        t = { s with
          rxdata := s.frame.ret, idx := s.idx + 1#9, mem := t.mem, phase := .stopIssued,
          trace := s.trace ++ [.write .ctrl s.cfg.ctrl.stop],
          frame := { s.frame with point := .stopped, res := .success } })

/-- R163, R181: the last step of a composed command that stopped the bus: IDLE, and the result it kept. -/
def Obligations.ComposedCommandsFinishAfterTheStop : Prop :=
  ∀ (s : State) (i : Instr), isComposed i = true → s.busy = true → s.frame.point = .stopped →
    exec i s = .next { s with
      phase := .idle, result := s.frame.res, busy := false, frame := Frame.start }

/-- R183, R21: a composed command's index changes only where the command starts (to 0), where the address step
succeeds (to 0) and where a transfer succeeds (by 1); so at the end it is the number of transfers that
succeeded: all of them on SUCCESS, none where the start or the address step failed. (That the start's 0 is
written in the first step is the model's reading, log 27.) -/
def Obligations.IndexCountsTheTransfers : Prop :=
  (∀ (s t : State) (i : Instr), isComposed i = true → s.busy = true → exec i s = .next t →
    t.idx = s.idx ∨
    (s.frame.point = .entry ∧ t.idx = 0#9) ∨
    (s.frame.stage = .address ∧ s.frame.point = .gotStatus ∧
      s.frame.ret &&& s.cfg.statusMask ∈ composedAccepts s i ∧ t.idx = 0#9) ∨
    (s.frame.stage = .transfer ∧ t.idx = s.idx + 1#9 ∧
      (((∃ a n, i = .recvb a n) ∧ s.frame.point = .gotData) ∨
        ((∀ a n, i ≠ .recvb a n) ∧ s.frame.point = .gotStatus ∧
          s.frame.ret &&& s.cfg.statusMask ∈ composedAccepts s i)))) ∧
  (∀ (s t : State) (i : Instr), Inv s → isComposed i = true → s.busy = true →
    decodeCommand s.cur = .ok i → (∀ rest, s.turns ≠ .reset :: rest) → step s = .next t → t.busy = false →
    (t.result = .success → t.idx.toNat = transferCount i) ∧ (s.frame.stage ≠ .transfer → t.idx = 0#9))

/-! ## Frames -/

/-- What START, ADDR, DATA, RECV and STOP leave alone (R41): every field but `busy`, `result`, `phase`,
`seqErr` (STOP: not even that), `cur` and the position; ADDR also writes `dir`, the polling primitives
`pollCount` and `lastStatus`, RECV `rxdata`. All of memory reads as before. -/
def Obligations.PrimitiveFrame : Prop :=
  ∀ (s t : State) (i : Instr), isPollingPrimitive i = true ∨ i = .stop → exec i s = .next t →
    t.cfg = s.cfg ∧ t.init = s.init ∧ t.role = s.role ∧ t.ownAddr = s.ownAddr ∧ t.overrun = s.overrun ∧
    t.idx = s.idx ∧ t.turns = s.turns ∧ t.resets = s.resets ∧ t.hostReads = s.hostReads ∧
    (∀ off, t.bufferByte off = s.bufferByte off) ∧
    ((∀ b, i ≠ .addr b) → t.dir = s.dir) ∧ ((∀ a, i ≠ .recv a) → t.rxdata = s.rxdata) ∧
    (i = .stop → t.seqErr = s.seqErr ∧ t.pollCount = s.pollCount ∧ t.lastStatus = s.lastStatus ∧
      t.answers = s.answers ∧ t.draws = s.draws) ∧
    (s.busy = true → t.cur = s.cur)

/-- What CONFIG and ROLE leave alone (R41, R120): every field but `busy`, `result`, `seqErr`, `cur`, the
position and the trace; CONFIG also writes `init`, ROLE `role` and, for a slave role, `ownAddr`. All of
memory reads as before and no answer is used up. -/
def Obligations.ConfigurationFrame : Prop :=
  ∀ (s t : State) (i : Instr), (∃ ps spd, i = .config ps spd) ∨ (∃ r gc own, i = .role r gc own) →
    exec i s = .next t →
    t.cfg = s.cfg ∧ t.phase = s.phase ∧ t.dir = s.dir ∧ t.pollCount = s.pollCount ∧
    t.lastStatus = s.lastStatus ∧ t.rxdata = s.rxdata ∧ t.overrun = s.overrun ∧ t.idx = s.idx ∧
    t.turns = s.turns ∧ t.answers = s.answers ∧ t.draws = s.draws ∧ t.resets = s.resets ∧
    t.hostReads = s.hostReads ∧ (∀ off, t.bufferByte off = s.bufferByte off) ∧
    ((∀ ps spd, i ≠ .config ps spd) → t.init = s.init) ∧
    ((∀ r gc own, i ≠ .role r gc own) → t.role = s.role ∧ t.ownAddr = s.ownAddr) ∧
    (∀ r gc own, i = .role r gc own → roleIsSlave r = false → t.ownAddr = s.ownAddr) ∧
    (s.busy = true → t.cur = s.cur)

/-- What SENDB, SEND1 and RECVB leave alone (R41): `init`, `role`, `ownAddr`, `overrun`, the parameters; SENDB
and SEND1 also `rxdata` and all of memory; RECVB every byte of memory but the one it stores. -/
def Obligations.ComposedFrame : Prop :=
  ∀ (s t : State) (i : Instr), isComposed i = true → exec i s = .next t →
    t.cfg = s.cfg ∧ t.init = s.init ∧ t.role = s.role ∧ t.ownAddr = s.ownAddr ∧ t.overrun = s.overrun ∧
    t.turns = s.turns ∧ t.resets = s.resets ∧ t.hostReads = s.hostReads ∧
    (s.busy = true → t.cur = s.cur) ∧
    ((∀ a n, i ≠ .recvb a n) → t.rxdata = s.rxdata ∧ ∀ off, t.bufferByte off = s.bufferByte off) ∧
    (∀ a n, i = .recvb a n →
      (recvbStore s = none → ∀ off, t.bufferByte off = s.bufferByte off) ∧
      ∀ o, recvbStore s = some o →
        t.bufferByte o = s.frame.ret ∧ ∀ off, off ≠ o → t.bufferByte off = s.bufferByte off)

/-! ## The whole machine -/

/-- Every step keeps the invariant, whoever moves. -/
def Obligations.StepKeepsTheInvariant : Prop :=
  ∀ s t : State, Inv s → step s = .next t → Inv t

/-- In every state that meets the invariant no fault can arise: the machine stops only at a host access the
spec does not define. -/
def Obligations.OnlyUndefinedHostAccessesStop : Prop :=
  ∀ s : State, Inv s →
    (∃ t, step s = .next t) ∨
    (step s = .refused .undefinedHostAccess ∧ ∃ a rest, s.turns = .host a :: rest)

/-- R25 (the spec's own inference from R30, R147 and R163): a block that runs no command is in a settled
phase; the pending phases and STOP_ISSUED occur only while a command runs. Stated of the state after any
step from a state that meets the invariant. -/
def Obligations.IdleBlockIsInASettledPhase : Prop :=
  ∀ s t : State, Inv s → step s = .next t → t.busy = false →
    t.phase = .idle ∨ t.phase = .startOk ∨ t.phase = .addrOk ∨ t.phase = .dataOk ∨ t.phase = .aborted

/-- R33: the fault bits are cleared only by reset. -/
def Obligations.FaultBitsAreSticky : Prop :=
  ∀ s t : State, step s = .next t → (∀ rest, s.turns ≠ .reset :: rest) →
    (s.seqErr = true → t.seqErr = true) ∧ (s.overrun = true → t.overrun = true)

/-- R126: only the last step of a CONFIG that succeeds sets `init`, and every such step does; only reset clears
it (R23). -/
def Obligations.OnlyConfigSuccessSetsInit : Prop :=
  ∀ s t : State, step s = .next t → (∀ rest, s.turns ≠ .reset :: rest) →
    (t.init ≠ s.init →
      t.init = true ∧ s.busy = true ∧ t.busy = false ∧ t.result = .success ∧
        ∃ ps spd, decodeCommand s.cur = .ok (.config ps spd) ∧ s.frame.point = .wroteBitrate) ∧
    (∀ ps spd, s.busy = true → t.busy = false → decodeCommand s.cur = .ok (.config ps spd) →
      t.init = true ∧ t.result = .success)

/-- R27: while a command runs RESULT holds the previous command's, and a step that changes it is the last step of
the running command, or the accept step of a word that is rejected, which writes RESULT and nothing else. That
the accept step writes RESULT too is the model's reading of R27 beside R104 (log 26). -/
def Obligations.ResultIsWrittenOnlyAtCompletion : Prop :=
  ∀ s t : State, step s = .next t → (∀ rest, s.turns ≠ .reset :: rest) → t.result ≠ s.result →
    (s.busy = true ∧ t.busy = false ∧ t.frame = Frame.start ∧
      (t.result = .success ∨ t.result = .timeout ∨ t.result = .protocol ∨ t.result = s.frame.res) ∧
      ∃ rest i, (s.turns = [] ∧ rest = [] ∨ s.turns = .sequencer :: rest) ∧ decodeCommand s.cur = .ok i ∧
        exec i { s with turns := rest } = .next t) ∨
    (s.busy = false ∧ ∃ (w : Word) (rest : List Turn), s.turns = .host (cmdWrite s.cfg w) :: rest ∧
      t = { s with turns := rest, result := t.result } ∧
      ((∃ e, decodeCommand w = .error e) ∧ t.result = .illegal ∨
        ∃ i, decodeCommand w = .ok i ∧
          ((∀ ps spd, i ≠ .config ps spd) ∧ s.init = false ∧ t.result = .uninit ∨
            (∃ ps spd, i = .config ps spd) ∧ t.result = .config)))

/-- R28, R133 (the latter the spec's own inference from R132 and R28): no command but ROLE reads or writes
the role and the own address: changing both beforehand changes nothing else. -/
def Obligations.CommandsIgnoreTheRole : Prop :=
  ∀ (s : State) (i : Instr) (r : Role) (o : Byte), (∀ r' gc own, i ≠ .role r' gc own) →
    exec i { s with role := r, ownAddr := o } =
      mapNext (fun t => { t with role := r, ownAddr := o }) (exec i s)

/-- R67, R142, R202: a step makes at most one port access, and only an allowed one. DATA is read only by RECV and
RECVB: R67 names RECV alone, and that RECVB's receive step (R188) reads it too is the model's reading (log 26). -/
def Obligations.OnePortAccessPerStep : Prop :=
  ∀ s t : State, step s = .next t → (∀ rest, s.turns ≠ .reset :: rest) →
    t.trace = s.trace ∨
    ∃ e, t.trace = s.trace ++ [e] ∧ allowedEvent s.cfg e = true ∧
      ∀ v, e = .read .data v →
        ∃ i, decodeCommand s.cur = .ok i ∧ ((∃ a, i = .recv a) ∨ ∃ a n, i = .recvb a n)

/-- R64, R72, R76: no host access can alter a running command: it changes `overrun` and `hostReads` alone, and
every later step of the command is what it would have been. -/
def Obligations.HostCannotAlterARunningCommand : Prop :=
  ∀ (s t : State) (a : HostAccess), s.busy = true → hostStep a s = .next t →
    t = { s with overrun := t.overrun, hostReads := t.hostReads } ∧ (s.overrun = true → t.overrun = true) ∧
    ∀ (i : Instr) (k : Nat),
      execSteps i k t =
        mapNext (fun u => { u with overrun := t.overrun, hostReads := t.hostReads }) (execSteps i k s)

/-- R22, R35: a buffer byte changes only by a host write to that byte of TXBUF while the block is idle, or by
RECVB's store to that byte of RXBUF; otherwise, between two resets, it keeps its value, drawn or written. -/
def Obligations.BufferBytesChangeOnlyByTheirWriters : Prop :=
  ∀ (s t : State) (off : Nat), step s = .next t → (∀ rest, s.turns ≠ .reset :: rest) →
    t.bufferByte off ≠ s.bufferByte off →
    (s.busy = false ∧ 0x100 ≤ off ∧ off < 0x200 ∧
      ∃ v rest, s.turns = .host (.write (s.cfg.hostBase + off) 1 v) :: rest) ∨
    (recvbStore s = some off ∧ ∃ a n, decodeCommand s.cur = .ok (.recvb a n))

/-- R21: at every position of its own procedure a running command takes a step, and at a position that is
none of its procedure's it stops with the fault that says so (the model's choice, log 11). -/
def Obligations.CommandsRunAtTheirOwnPositionsOnly : Prop :=
  ∀ (s : State) (i : Instr), s.busy = true →
    (procedurePoint s.frame i = true → ∃ t, exec i s = .next t) ∧
    (procedurePoint s.frame i = false → exec i s = .fault .offProcedure)
end

