-- ==== Sys2Proof/Laws/Encoding.lean ====
section
/-! SUPPORT. What each format of the encoder holds in each field, and that its reserved bits are clear
(spec/30_encoding.md R92 to R99), for the round trip of encoder and decoder. -/

namespace Sys2Proof

theorem encodeN_fields (op : BitVec 4) :
    opcodeField (encodeN op) = op ∧ reservedClear 0xFFFFFFF0#32 (encodeN op) = true := by
  simp only [opcodeField, reservedClear, encodeN, place, beq_iff_eq]
  refine ⟨?_, ?_⟩ <;> (ext i hi; interval_cases i <;> simp)

theorem encodeB_fields (op : BitVec 4) (byte : Byte) :
    opcodeField (encodeB op byte) = op ∧ reservedClear 0xFFFF00F0#32 (encodeB op byte) = true ∧
    byteField (encodeB op byte) = byte := by
  simp only [opcodeField, reservedClear, byteField, encodeB, place, beq_iff_eq]
  refine ⟨?_, ?_, ?_⟩ <;> (ext i hi; interval_cases i <;> simp [BitVec.getElem_extractLsb'])

theorem encodeR_fields (op : BitVec 4) (ack : Bool) :
    opcodeField (encodeR op ack) = op ∧ reservedClear 0xFFFEFFF0#32 (encodeR op ack) = true ∧
    (encodeR op ack).getLsbD 16 = ack := by
  simp only [opcodeField, reservedClear, flagBits, encodeR, place, beq_iff_eq]
  refine ⟨?_, ?_, ?_⟩
  · ext i hi; interval_cases i <;> simp [BitVec.getElem_extractLsb']
  · ext i hi; interval_cases i <;> simp
  · simp

theorem encodeC_fields (op : BitVec 4) (ps : BitVec 2) (spd : BitVec 3) :
    opcodeField (encodeC op ps spd) = op ∧ reservedClear 0xFFFF8CF0#32 (encodeC op ps spd) = true ∧
    selectField (encodeC op ps spd) = ps ∧ speedField (encodeC op ps spd) = spd := by
  simp only [opcodeField, reservedClear, selectField, speedField, encodeC, place, beq_iff_eq]
  refine ⟨?_, ?_, ?_, ?_⟩ <;> (ext i hi; interval_cases i <;> simp [BitVec.getElem_extractLsb'])

theorem encodeS_fields (op : BitVec 4) (role : BitVec 2) (gc : Bool) (own : Byte) :
    opcodeField (encodeS op role gc own) = op ∧
    reservedClear 0xFF00F8F0#32 (encodeS op role gc own) = true ∧
    selectField (encodeS op role gc own) = role ∧ upperField (encodeS op role gc own) = own ∧
    (encodeS op role gc own).getLsbD 10 = gc := by
  simp only [opcodeField, reservedClear, selectField, upperField, flagBits, encodeS, place, beq_iff_eq]
  refine ⟨?_, ?_, ?_, ?_, ?_⟩
  · ext i hi; interval_cases i <;> simp [BitVec.getElem_extractLsb']
  · ext i hi; interval_cases i <;> simp
  · ext i hi; interval_cases i <;> simp [BitVec.getElem_extractLsb']
  · ext i hi; interval_cases i <;> simp [BitVec.getElem_extractLsb']
  · simp

theorem encodeT_fields (op : BitVec 4) (addr7 : BitVec 7) (upper : Byte) :
    opcodeField (encodeT op addr7 upper) = op ∧
    reservedClear 0xFF0080F0#32 (encodeT op addr7 upper) = true ∧
    addr7Field (encodeT op addr7 upper) = addr7 ∧ upperField (encodeT op addr7 upper) = upper := by
  simp only [opcodeField, reservedClear, addr7Field, upperField, encodeT, place, beq_iff_eq]
  refine ⟨?_, ?_, ?_, ?_⟩ <;> (ext i hi; interval_cases i <;> simp [BitVec.getElem_extractLsb'])

/-- A role is named by its code. -/
theorem Role.ofCode_code (r : Role) : Role.ofCode r.code = r := by cases r <;> rfl

/-- A role's code is the code that names it. -/
theorem Role.code_ofCode (c : BitVec 2) : (Role.ofCode c).code = c := by revert c; decide

/-- A speed class is named by its code. -/
theorem SpeedClass.ofCode_code (c : SpeedClass) : SpeedClass.ofCode c.code = some c := by
  cases c <;> rfl

/-- Only a class's own code names it. -/
theorem SpeedClass.code_of_ofCode (c : BitVec 3) (x : SpeedClass) :
    SpeedClass.ofCode c = some x → x.code = c := by
  revert c x
  intro c x
  cases x <;> revert c <;> decide

/-- Two words that agree on every bit below 32 are equal. -/
theorem word_ext {v w : Word} (h : ∀ b < 32, v.getLsbD b = w.getLsbD b) : v = w :=
  BitVec.eq_of_getLsbD_eq fun b hb => h b hb

/-- A clear mask says that every bit of the mask is 0 in the word. -/
theorem reservedClear_iff (mask w : Word) :
    reservedClear mask w = true ↔ ∀ b < 32, mask.getLsbD b = true → w.getLsbD b = false := by
  simp only [reservedClear, beq_iff_eq]
  constructor
  · intro h b hb hm
    have := congrArg (fun v => v.getLsbD b) h
    simpa [hm] using this
  · intro h
    refine BitVec.eq_of_getLsbD_eq fun b hb => ?_
    have := h b hb
    cases hm : mask.getLsbD b <;> simp_all

/-! The other direction: a word whose reserved bits are clear is its fields, put back in place. -/

theorem encodeN_of_fields (w : Word) (h : reservedClear 0xFFFFFFF0#32 w = true) :
    encodeN (opcodeField w) = w := by
  have h := (reservedClear_iff _ w).1 h
  refine word_ext fun b hb => ?_
  have hb' := h b hb
  interval_cases b <;> simp_all [encodeN, place, opcodeField]

theorem encodeB_of_fields (w : Word) (h : reservedClear 0xFFFF00F0#32 w = true) :
    encodeB (opcodeField w) (byteField w) = w := by
  have h := (reservedClear_iff _ w).1 h
  refine word_ext fun b hb => ?_
  have hb' := h b hb
  interval_cases b <;> simp_all [encodeB, place, opcodeField, byteField]

theorem encodeR_of_fields (w : Word) (h : reservedClear 0xFFFEFFF0#32 w = true) :
    encodeR (opcodeField w) (w.getLsbD 16) = w := by
  have h := (reservedClear_iff _ w).1 h
  refine word_ext fun b hb => ?_
  have hb' := h b hb
  interval_cases b <;> simp_all [encodeR, place, opcodeField, flagBits]

theorem encodeC_of_fields (w : Word) (h : reservedClear 0xFFFF8CF0#32 w = true) :
    encodeC (opcodeField w) (selectField w) (speedField w) = w := by
  have h := (reservedClear_iff _ w).1 h
  refine word_ext fun b hb => ?_
  have hb' := h b hb
  interval_cases b <;> simp_all [encodeC, place, opcodeField, selectField, speedField]

theorem encodeS_of_fields (w : Word) (h : reservedClear 0xFF00F8F0#32 w = true) :
    encodeS (opcodeField w) (selectField w) (w.getLsbD 10) (upperField w) = w := by
  have h := (reservedClear_iff _ w).1 h
  refine word_ext fun b hb => ?_
  have hb' := h b hb
  interval_cases b <;> simp_all [encodeS, place, opcodeField, selectField, upperField, flagBits]

theorem encodeT_of_fields (w : Word) (h : reservedClear 0xFF0080F0#32 w = true) :
    encodeT (opcodeField w) (addr7Field w) (upperField w) = w := by
  have h := (reservedClear_iff _ w).1 h
  refine word_ext fun b hb => ?_
  have hb' := h b hb
  interval_cases b <;> simp_all [encodeT, place, opcodeField, addr7Field, upperField]

end Sys2Proof
end

