-- ==== Sys2Proof/Laws/Memory.lean ====
section
/-! SUPPORT. The buffer memory: a read after a write, and the canonical form kept by the one operation that
changes a memory (spec/10_state.md R35). -/

namespace Sys2Proof.Machine

/-- A write changes the byte written and leaves every other alone. -/
@[simp] theorem Memory.read_write (m : Memory) (a b : Nat) (v : Byte) :
    (m.write a v).read b = if b = a then some v else m.read b := by
  induction m with
  | nil => simp [Memory.write, Memory.read]
  | cons c m ih =>
    obtain ⟨k, w⟩ := c
    simp only [Memory.write]
    split
    · simp [Memory.read]
    · split
      · subst_vars; simp only [Memory.read]; split <;> simp_all
      · simp only [Memory.read, ih]; split <;> simp_all; omega

/-- The offsets stay rising. -/
theorem Memory.risingFrom_write (m : Memory) (lo a : Nat) (v : Byte) (h : m.risingFrom lo = true)
    (ha : lo ≤ a) : (m.write a v).risingFrom lo = true := by
  induction m generalizing lo with
  | nil => simp [Memory.write, Memory.risingFrom, ha]
  | cons c m ih =>
    obtain ⟨k, w⟩ := c
    simp only [Memory.risingFrom, Bool.and_eq_true, decide_eq_true_eq] at h
    simp only [Memory.write]
    split
    · simp only [Memory.risingFrom, Bool.and_eq_true, decide_eq_true_eq]
      exact ⟨ha, by omega, h.2⟩
    · split
      · subst_vars; simp only [Memory.risingFrom, Bool.and_eq_true, decide_eq_true_eq]; exact h
      · simp only [Memory.risingFrom, Bool.and_eq_true, decide_eq_true_eq]
        exact ⟨h.1, ih _ h.2 (by omega)⟩

/-- Every offset of a written memory is one of the old ones or the one written. -/
theorem Memory.mem_write (m : Memory) (a : Nat) (v : Byte) (c : Host.Cell) (h : c ∈ m.write a v) :
    c = (a, v) ∨ c ∈ m := by
  induction m with
  | nil => simpa [Memory.write] using h
  | cons d m ih =>
    obtain ⟨k, w⟩ := d
    simp only [Memory.write] at h
    split at h
    · simpa using h
    · split at h
      · simp only [List.mem_cons] at h ⊢; tauto
      · simp only [List.mem_cons] at h ⊢; tauto

/-- A write into the buffers keeps the canonical form. -/
theorem Memory.wf_write (m : Memory) (a : Nat) (v : Byte) (h : m.wf = true) (h1 : 0x100 ≤ a)
    (h2 : a < 0x300) : (m.write a v).wf = true := by
  simp only [Memory.wf, Bool.and_eq_true, List.all_eq_true, decide_eq_true_eq] at h ⊢
  refine ⟨Memory.risingFrom_write m _ a v h.1 h1, fun c hc => ?_⟩
  rcases Memory.mem_write m a v c hc with rfl | hc
  · exact h2
  · exact h.2 c hc

theorem txOffset_range (i : Byte) : 0x100 ≤ txOffset i ∧ txOffset i < 0x200 := by
  have := i.isLt; unfold txOffset; omega

theorem rxOffset_range (i : Byte) : 0x200 ≤ rxOffset i ∧ rxOffset i < 0x300 := by
  have := i.isLt; unfold rxOffset; omega

/-- The host's and RECVB's writes keep the canonical form. -/
theorem State.writeTx_wf (s : State) (i v : Byte) (h : s.mem.wf = true) :
    (s.writeTx i v).mem.wf = true := by
  have := txOffset_range i
  exact Memory.wf_write _ _ _ h (by omega) (by omega)

theorem State.writeRx_wf (s : State) (i v : Byte) (h : s.mem.wf = true) :
    (s.writeRx i v).mem.wf = true := by
  have := rxOffset_range i
  exact Memory.wf_write _ _ _ h (by omega) (by omega)

/-- A buffer byte depends on the memory and the number of resets alone (the draw is made once, R35). -/
theorem State.bufferByte_congr (s t : State) (off : Nat) (hm : t.mem = s.mem)
    (hr : t.resets = s.resets) : t.bufferByte off = s.bufferByte off := by
  simp only [State.bufferByte, hm, hr]

theorem State.bufferByte_writeRx (s : State) (i v : Byte) (off : Nat) :
    (s.writeRx i v).bufferByte off = if off = rxOffset i then v else s.bufferByte off := by
  simp only [State.bufferByte, State.writeRx, Memory.read_write]
  by_cases h : off = rxOffset i <;> simp [h]

theorem State.bufferByte_writeTx (s : State) (i v : Byte) (off : Nat) :
    (s.writeTx i v).bufferByte off = if off = txOffset i then v else s.bufferByte off := by
  simp only [State.bufferByte, State.writeTx, Memory.read_write]
  by_cases h : off = txOffset i <;> simp [h]

end Sys2Proof.Machine
end

