-- ==== Sys2Proof/Laws/State.lean ====
section
/-! SUPPORT. What every update of the state does to each field, one theorem an update, one equation a field; simp
takes them apart, so no proof unfolds an update. -/

namespace Sys2Proof.Machine

variable (s : State)

@[simp] theorem State.portWrite_fields (r : PortReg) (v : Byte) :
    (s.portWrite r v).cfg = s.cfg ∧ (s.portWrite r v).busy = s.busy ∧ (s.portWrite r v).result = s.result ∧
    (s.portWrite r v).init = s.init ∧ (s.portWrite r v).rxdata = s.rxdata ∧
    (s.portWrite r v).phase = s.phase ∧ (s.portWrite r v).dir = s.dir ∧ (s.portWrite r v).role = s.role ∧
    (s.portWrite r v).ownAddr = s.ownAddr ∧ (s.portWrite r v).pollCount = s.pollCount ∧
    (s.portWrite r v).lastStatus = s.lastStatus ∧ (s.portWrite r v).seqErr = s.seqErr ∧
    (s.portWrite r v).overrun = s.overrun ∧ (s.portWrite r v).cur = s.cur ∧ (s.portWrite r v).idx = s.idx ∧
    (s.portWrite r v).mem = s.mem ∧ (s.portWrite r v).frame = s.frame ∧
    (s.portWrite r v).trace = s.trace ++ [.write r v] ∧ (s.portWrite r v).turns = s.turns ∧
    (s.portWrite r v).answers = s.answers ∧ (s.portWrite r v).draws = s.draws ∧
    (s.portWrite r v).resets = s.resets ∧ (s.portWrite r v).hostReads = s.hostReads :=
  ⟨rfl, rfl, rfl, rfl, rfl, rfl, rfl, rfl, rfl, rfl, rfl, rfl, rfl, rfl, rfl, rfl, rfl, rfl, rfl, rfl, rfl, rfl, rfl⟩

@[simp] theorem State.portRead_fields (r : PortReg) :
    (s.portRead r).cfg = s.cfg ∧ (s.portRead r).busy = s.busy ∧ (s.portRead r).result = s.result ∧
    (s.portRead r).init = s.init ∧ (s.portRead r).rxdata = s.rxdata ∧ (s.portRead r).phase = s.phase ∧
    (s.portRead r).dir = s.dir ∧ (s.portRead r).role = s.role ∧ (s.portRead r).ownAddr = s.ownAddr ∧
    (s.portRead r).pollCount = s.pollCount ∧ (s.portRead r).lastStatus = s.lastStatus ∧
    (s.portRead r).seqErr = s.seqErr ∧ (s.portRead r).overrun = s.overrun ∧ (s.portRead r).cur = s.cur ∧
    (s.portRead r).idx = s.idx ∧ (s.portRead r).mem = s.mem ∧ (s.portRead r).frame = s.frame ∧
    (s.portRead r).trace = s.trace ++ [.read r s.portAnswer] ∧ (s.portRead r).turns = s.turns ∧
    (s.portRead r).answers = s.answers.tail ∧ (s.portRead r).draws = s.draws + 1 ∧
    (s.portRead r).resets = s.resets ∧ (s.portRead r).hostReads = s.hostReads :=
  ⟨rfl, rfl, rfl, rfl, rfl, rfl, rfl, rfl, rfl, rfl, rfl, rfl, rfl, rfl, rfl, rfl, rfl, rfl, rfl, rfl, rfl, rfl, rfl⟩

@[simp] theorem State.portWait_fields :
    (s.portWait).cfg = s.cfg ∧ (s.portWait).busy = s.busy ∧ (s.portWait).result = s.result ∧
    (s.portWait).init = s.init ∧ (s.portWait).rxdata = s.rxdata ∧ (s.portWait).phase = s.phase ∧
    (s.portWait).dir = s.dir ∧ (s.portWait).role = s.role ∧ (s.portWait).ownAddr = s.ownAddr ∧
    (s.portWait).pollCount = s.pollCount ∧ (s.portWait).lastStatus = s.lastStatus ∧
    (s.portWait).seqErr = s.seqErr ∧ (s.portWait).overrun = s.overrun ∧ (s.portWait).cur = s.cur ∧
    (s.portWait).idx = s.idx ∧ (s.portWait).mem = s.mem ∧ (s.portWait).frame = s.frame ∧
    (s.portWait).trace = s.trace ++ [.delay s.cfg.pollIntervalUs] ∧ (s.portWait).turns = s.turns ∧
    (s.portWait).answers = s.answers ∧ (s.portWait).draws = s.draws ∧ (s.portWait).resets = s.resets ∧
    (s.portWait).hostReads = s.hostReads :=
  ⟨rfl, rfl, rfl, rfl, rfl, rfl, rfl, rfl, rfl, rfl, rfl, rfl, rfl, rfl, rfl, rfl, rfl, rfl, rfl, rfl, rfl, rfl, rfl⟩

@[simp] theorem State.goto_fields (p : Point) :
    (s.goto p).cfg = s.cfg ∧ (s.goto p).busy = s.busy ∧ (s.goto p).result = s.result ∧
    (s.goto p).init = s.init ∧ (s.goto p).rxdata = s.rxdata ∧ (s.goto p).phase = s.phase ∧
    (s.goto p).dir = s.dir ∧ (s.goto p).role = s.role ∧ (s.goto p).ownAddr = s.ownAddr ∧
    (s.goto p).pollCount = s.pollCount ∧ (s.goto p).lastStatus = s.lastStatus ∧
    (s.goto p).seqErr = s.seqErr ∧ (s.goto p).overrun = s.overrun ∧ (s.goto p).cur = s.cur ∧
    (s.goto p).idx = s.idx ∧ (s.goto p).mem = s.mem ∧ (s.goto p).frame = { s.frame with point := p } ∧
    (s.goto p).trace = s.trace ∧ (s.goto p).turns = s.turns ∧ (s.goto p).answers = s.answers ∧
    (s.goto p).draws = s.draws ∧ (s.goto p).resets = s.resets ∧ (s.goto p).hostReads = s.hostReads :=
  ⟨rfl, rfl, rfl, rfl, rfl, rfl, rfl, rfl, rfl, rfl, rfl, rfl, rfl, rfl, rfl, rfl, rfl, rfl, rfl, rfl, rfl, rfl, rfl⟩

@[simp] theorem State.gotoWith_fields (p : Point) (v : Byte) :
    (s.gotoWith p v).cfg = s.cfg ∧ (s.gotoWith p v).busy = s.busy ∧ (s.gotoWith p v).result = s.result ∧
    (s.gotoWith p v).init = s.init ∧ (s.gotoWith p v).rxdata = s.rxdata ∧ (s.gotoWith p v).phase = s.phase ∧
    (s.gotoWith p v).dir = s.dir ∧ (s.gotoWith p v).role = s.role ∧ (s.gotoWith p v).ownAddr = s.ownAddr ∧
    (s.gotoWith p v).pollCount = s.pollCount ∧ (s.gotoWith p v).lastStatus = s.lastStatus ∧
    (s.gotoWith p v).seqErr = s.seqErr ∧ (s.gotoWith p v).overrun = s.overrun ∧
    (s.gotoWith p v).cur = s.cur ∧ (s.gotoWith p v).idx = s.idx ∧ (s.gotoWith p v).mem = s.mem ∧
    (s.gotoWith p v).frame = { s.frame with point := p, ret := v } ∧ (s.gotoWith p v).trace = s.trace ∧
    (s.gotoWith p v).turns = s.turns ∧ (s.gotoWith p v).answers = s.answers ∧
    (s.gotoWith p v).draws = s.draws ∧ (s.gotoWith p v).resets = s.resets ∧
    (s.gotoWith p v).hostReads = s.hostReads :=
  ⟨rfl, rfl, rfl, rfl, rfl, rfl, rfl, rfl, rfl, rfl, rfl, rfl, rfl, rfl, rfl, rfl, rfl, rfl, rfl, rfl, rfl, rfl, rfl⟩

@[simp] theorem State.callWrite_fields (r : PortReg) (v : Byte) (p : Point) :
    (s.callWrite r v p).cfg = s.cfg ∧ (s.callWrite r v p).busy = s.busy ∧
    (s.callWrite r v p).result = s.result ∧ (s.callWrite r v p).init = s.init ∧
    (s.callWrite r v p).rxdata = s.rxdata ∧ (s.callWrite r v p).phase = s.phase ∧
    (s.callWrite r v p).dir = s.dir ∧ (s.callWrite r v p).role = s.role ∧
    (s.callWrite r v p).ownAddr = s.ownAddr ∧ (s.callWrite r v p).pollCount = s.pollCount ∧
    (s.callWrite r v p).lastStatus = s.lastStatus ∧ (s.callWrite r v p).seqErr = s.seqErr ∧
    (s.callWrite r v p).overrun = s.overrun ∧ (s.callWrite r v p).cur = s.cur ∧
    (s.callWrite r v p).idx = s.idx ∧ (s.callWrite r v p).mem = s.mem ∧
    (s.callWrite r v p).frame = { s.frame with point := p } ∧
    (s.callWrite r v p).trace = s.trace ++ [.write r v] ∧ (s.callWrite r v p).turns = s.turns ∧
    (s.callWrite r v p).answers = s.answers ∧ (s.callWrite r v p).draws = s.draws ∧
    (s.callWrite r v p).resets = s.resets ∧ (s.callWrite r v p).hostReads = s.hostReads :=
  ⟨rfl, rfl, rfl, rfl, rfl, rfl, rfl, rfl, rfl, rfl, rfl, rfl, rfl, rfl, rfl, rfl, rfl, rfl, rfl, rfl, rfl, rfl, rfl⟩

@[simp] theorem State.callRead_fields (r : PortReg) (p : Point) :
    (s.callRead r p).cfg = s.cfg ∧ (s.callRead r p).busy = s.busy ∧ (s.callRead r p).result = s.result ∧
    (s.callRead r p).init = s.init ∧ (s.callRead r p).rxdata = s.rxdata ∧ (s.callRead r p).phase = s.phase ∧
    (s.callRead r p).dir = s.dir ∧ (s.callRead r p).role = s.role ∧ (s.callRead r p).ownAddr = s.ownAddr ∧
    (s.callRead r p).pollCount = s.pollCount ∧ (s.callRead r p).lastStatus = s.lastStatus ∧
    (s.callRead r p).seqErr = s.seqErr ∧ (s.callRead r p).overrun = s.overrun ∧
    (s.callRead r p).cur = s.cur ∧ (s.callRead r p).idx = s.idx ∧ (s.callRead r p).mem = s.mem ∧
    (s.callRead r p).frame = { s.frame with point := p, ret := s.portAnswer } ∧
    (s.callRead r p).trace = s.trace ++ [.read r s.portAnswer] ∧ (s.callRead r p).turns = s.turns ∧
    (s.callRead r p).answers = s.answers.tail ∧ (s.callRead r p).draws = s.draws + 1 ∧
    (s.callRead r p).resets = s.resets ∧ (s.callRead r p).hostReads = s.hostReads :=
  ⟨rfl, rfl, rfl, rfl, rfl, rfl, rfl, rfl, rfl, rfl, rfl, rfl, rfl, rfl, rfl, rfl, rfl, rfl, rfl, rfl, rfl, rfl, rfl⟩

@[simp] theorem State.callWait_fields :
    (s.callWait).cfg = s.cfg ∧ (s.callWait).busy = s.busy ∧ (s.callWait).result = s.result ∧
    (s.callWait).init = s.init ∧ (s.callWait).rxdata = s.rxdata ∧ (s.callWait).phase = s.phase ∧
    (s.callWait).dir = s.dir ∧ (s.callWait).role = s.role ∧ (s.callWait).ownAddr = s.ownAddr ∧
    (s.callWait).pollCount = s.pollCount ∧ (s.callWait).lastStatus = s.lastStatus ∧
    (s.callWait).seqErr = s.seqErr ∧ (s.callWait).overrun = s.overrun ∧ (s.callWait).cur = s.cur ∧
    (s.callWait).idx = s.idx ∧ (s.callWait).mem = s.mem ∧
    (s.callWait).frame = { s.frame with point := .waited } ∧
    (s.callWait).trace = s.trace ++ [.delay s.cfg.pollIntervalUs] ∧ (s.callWait).turns = s.turns ∧
    (s.callWait).answers = s.answers ∧ (s.callWait).draws = s.draws ∧ (s.callWait).resets = s.resets ∧
    (s.callWait).hostReads = s.hostReads :=
  ⟨rfl, rfl, rfl, rfl, rfl, rfl, rfl, rfl, rfl, rfl, rfl, rfl, rfl, rfl, rfl, rfl, rfl, rfl, rfl, rfl, rfl, rfl, rfl⟩

@[simp] theorem State.enterStage_fields (g : Stage) :
    (s.enterStage g).cfg = s.cfg ∧ (s.enterStage g).busy = s.busy ∧ (s.enterStage g).result = s.result ∧
    (s.enterStage g).init = s.init ∧ (s.enterStage g).rxdata = s.rxdata ∧ (s.enterStage g).phase = s.phase ∧
    (s.enterStage g).dir = s.dir ∧ (s.enterStage g).role = s.role ∧ (s.enterStage g).ownAddr = s.ownAddr ∧
    (s.enterStage g).pollCount = s.pollCount ∧ (s.enterStage g).lastStatus = s.lastStatus ∧
    (s.enterStage g).seqErr = s.seqErr ∧ (s.enterStage g).overrun = s.overrun ∧
    (s.enterStage g).cur = s.cur ∧ (s.enterStage g).idx = s.idx ∧ (s.enterStage g).mem = s.mem ∧
    (s.enterStage g).frame = { s.frame with stage := g } ∧ (s.enterStage g).trace = s.trace ∧
    (s.enterStage g).turns = s.turns ∧ (s.enterStage g).answers = s.answers ∧
    (s.enterStage g).draws = s.draws ∧ (s.enterStage g).resets = s.resets ∧
    (s.enterStage g).hostReads = s.hostReads :=
  ⟨rfl, rfl, rfl, rfl, rfl, rfl, rfl, rfl, rfl, rfl, rfl, rfl, rfl, rfl, rfl, rfl, rfl, rfl, rfl, rfl, rfl, rfl, rfl⟩

@[simp] theorem State.raiseSeqErr_fields (b : Bool) :
    (s.raiseSeqErr b).cfg = s.cfg ∧ (s.raiseSeqErr b).busy = s.busy ∧ (s.raiseSeqErr b).result = s.result ∧
    (s.raiseSeqErr b).init = s.init ∧ (s.raiseSeqErr b).rxdata = s.rxdata ∧
    (s.raiseSeqErr b).phase = s.phase ∧ (s.raiseSeqErr b).dir = s.dir ∧ (s.raiseSeqErr b).role = s.role ∧
    (s.raiseSeqErr b).ownAddr = s.ownAddr ∧ (s.raiseSeqErr b).pollCount = s.pollCount ∧
    (s.raiseSeqErr b).lastStatus = s.lastStatus ∧ (s.raiseSeqErr b).seqErr = (s.seqErr || b) ∧
    (s.raiseSeqErr b).overrun = s.overrun ∧ (s.raiseSeqErr b).cur = s.cur ∧ (s.raiseSeqErr b).idx = s.idx ∧
    (s.raiseSeqErr b).mem = s.mem ∧ (s.raiseSeqErr b).frame = s.frame ∧ (s.raiseSeqErr b).trace = s.trace ∧
    (s.raiseSeqErr b).turns = s.turns ∧ (s.raiseSeqErr b).answers = s.answers ∧
    (s.raiseSeqErr b).draws = s.draws ∧ (s.raiseSeqErr b).resets = s.resets ∧
    (s.raiseSeqErr b).hostReads = s.hostReads :=
  ⟨rfl, rfl, rfl, rfl, rfl, rfl, rfl, rfl, rfl, rfl, rfl, rfl, rfl, rfl, rfl, rfl, rfl, rfl, rfl, rfl, rfl, rfl, rfl⟩

@[simp] theorem State.raiseOverrun_fields :
    (s.raiseOverrun).cfg = s.cfg ∧ (s.raiseOverrun).busy = s.busy ∧ (s.raiseOverrun).result = s.result ∧
    (s.raiseOverrun).init = s.init ∧ (s.raiseOverrun).rxdata = s.rxdata ∧ (s.raiseOverrun).phase = s.phase ∧
    (s.raiseOverrun).dir = s.dir ∧ (s.raiseOverrun).role = s.role ∧ (s.raiseOverrun).ownAddr = s.ownAddr ∧
    (s.raiseOverrun).pollCount = s.pollCount ∧ (s.raiseOverrun).lastStatus = s.lastStatus ∧
    (s.raiseOverrun).seqErr = s.seqErr ∧ (s.raiseOverrun).overrun = true ∧ (s.raiseOverrun).cur = s.cur ∧
    (s.raiseOverrun).idx = s.idx ∧ (s.raiseOverrun).mem = s.mem ∧ (s.raiseOverrun).frame = s.frame ∧
    (s.raiseOverrun).trace = s.trace ∧ (s.raiseOverrun).turns = s.turns ∧
    (s.raiseOverrun).answers = s.answers ∧ (s.raiseOverrun).draws = s.draws ∧
    (s.raiseOverrun).resets = s.resets ∧ (s.raiseOverrun).hostReads = s.hostReads :=
  ⟨rfl, rfl, rfl, rfl, rfl, rfl, rfl, rfl, rfl, rfl, rfl, rfl, rfl, rfl, rfl, rfl, rfl, rfl, rfl, rfl, rfl, rfl, rfl⟩

@[simp] theorem State.finish_fields (r : Result) :
    (s.finish r).cfg = s.cfg ∧ (s.finish r).busy = false ∧ (s.finish r).result = r ∧
    (s.finish r).init = s.init ∧ (s.finish r).rxdata = s.rxdata ∧ (s.finish r).phase = s.phase ∧
    (s.finish r).dir = s.dir ∧ (s.finish r).role = s.role ∧ (s.finish r).ownAddr = s.ownAddr ∧
    (s.finish r).pollCount = s.pollCount ∧ (s.finish r).lastStatus = s.lastStatus ∧
    (s.finish r).seqErr = s.seqErr ∧ (s.finish r).overrun = s.overrun ∧ (s.finish r).cur = s.cur ∧
    (s.finish r).idx = s.idx ∧ (s.finish r).mem = s.mem ∧ (s.finish r).frame = Frame.start ∧
    (s.finish r).trace = s.trace ∧ (s.finish r).turns = s.turns ∧ (s.finish r).answers = s.answers ∧
    (s.finish r).draws = s.draws ∧ (s.finish r).resets = s.resets ∧ (s.finish r).hostReads = s.hostReads :=
  ⟨rfl, rfl, rfl, rfl, rfl, rfl, rfl, rfl, rfl, rfl, rfl, rfl, rfl, rfl, rfl, rfl, rfl, rfl, rfl, rfl, rfl, rfl, rfl⟩

@[simp] theorem State.rejectCommand_fields (r : Result) :
    (s.rejectCommand r).cfg = s.cfg ∧ (s.rejectCommand r).busy = s.busy ∧ (s.rejectCommand r).result = r ∧
    (s.rejectCommand r).init = s.init ∧ (s.rejectCommand r).rxdata = s.rxdata ∧
    (s.rejectCommand r).phase = s.phase ∧ (s.rejectCommand r).dir = s.dir ∧
    (s.rejectCommand r).role = s.role ∧ (s.rejectCommand r).ownAddr = s.ownAddr ∧
    (s.rejectCommand r).pollCount = s.pollCount ∧ (s.rejectCommand r).lastStatus = s.lastStatus ∧
    (s.rejectCommand r).seqErr = s.seqErr ∧ (s.rejectCommand r).overrun = s.overrun ∧
    (s.rejectCommand r).cur = s.cur ∧ (s.rejectCommand r).idx = s.idx ∧ (s.rejectCommand r).mem = s.mem ∧
    (s.rejectCommand r).frame = s.frame ∧ (s.rejectCommand r).trace = s.trace ∧
    (s.rejectCommand r).turns = s.turns ∧ (s.rejectCommand r).answers = s.answers ∧
    (s.rejectCommand r).draws = s.draws ∧ (s.rejectCommand r).resets = s.resets ∧
    (s.rejectCommand r).hostReads = s.hostReads :=
  ⟨rfl, rfl, rfl, rfl, rfl, rfl, rfl, rfl, rfl, rfl, rfl, rfl, rfl, rfl, rfl, rfl, rfl, rfl, rfl, rfl, rfl, rfl, rfl⟩

@[simp] theorem State.latchCommand_fields (w : Word) :
    (s.latchCommand w).cfg = s.cfg ∧ (s.latchCommand w).busy = true ∧ (s.latchCommand w).result = s.result ∧
    (s.latchCommand w).init = s.init ∧ (s.latchCommand w).rxdata = s.rxdata ∧
    (s.latchCommand w).phase = s.phase ∧ (s.latchCommand w).dir = s.dir ∧ (s.latchCommand w).role = s.role ∧
    (s.latchCommand w).ownAddr = s.ownAddr ∧ (s.latchCommand w).pollCount = s.pollCount ∧
    (s.latchCommand w).lastStatus = s.lastStatus ∧ (s.latchCommand w).seqErr = s.seqErr ∧
    (s.latchCommand w).overrun = s.overrun ∧ (s.latchCommand w).cur = w ∧ (s.latchCommand w).idx = s.idx ∧
    (s.latchCommand w).mem = s.mem ∧ (s.latchCommand w).frame = Frame.start ∧
    (s.latchCommand w).trace = s.trace ∧ (s.latchCommand w).turns = s.turns ∧
    (s.latchCommand w).answers = s.answers ∧ (s.latchCommand w).draws = s.draws ∧
    (s.latchCommand w).resets = s.resets ∧ (s.latchCommand w).hostReads = s.hostReads :=
  ⟨rfl, rfl, rfl, rfl, rfl, rfl, rfl, rfl, rfl, rfl, rfl, rfl, rfl, rfl, rfl, rfl, rfl, rfl, rfl, rfl, rfl, rfl, rfl⟩

@[simp] theorem State.writeTx_fields (i v : Byte) :
    (s.writeTx i v).cfg = s.cfg ∧ (s.writeTx i v).busy = s.busy ∧ (s.writeTx i v).result = s.result ∧
    (s.writeTx i v).init = s.init ∧ (s.writeTx i v).rxdata = s.rxdata ∧ (s.writeTx i v).phase = s.phase ∧
    (s.writeTx i v).dir = s.dir ∧ (s.writeTx i v).role = s.role ∧ (s.writeTx i v).ownAddr = s.ownAddr ∧
    (s.writeTx i v).pollCount = s.pollCount ∧ (s.writeTx i v).lastStatus = s.lastStatus ∧
    (s.writeTx i v).seqErr = s.seqErr ∧ (s.writeTx i v).overrun = s.overrun ∧ (s.writeTx i v).cur = s.cur ∧
    (s.writeTx i v).idx = s.idx ∧ (s.writeTx i v).mem = s.mem.write (txOffset i) v ∧
    (s.writeTx i v).frame = s.frame ∧ (s.writeTx i v).trace = s.trace ∧ (s.writeTx i v).turns = s.turns ∧
    (s.writeTx i v).answers = s.answers ∧ (s.writeTx i v).draws = s.draws ∧
    (s.writeTx i v).resets = s.resets ∧ (s.writeTx i v).hostReads = s.hostReads :=
  ⟨rfl, rfl, rfl, rfl, rfl, rfl, rfl, rfl, rfl, rfl, rfl, rfl, rfl, rfl, rfl, rfl, rfl, rfl, rfl, rfl, rfl, rfl, rfl⟩

@[simp] theorem State.writeRx_fields (i v : Byte) :
    (s.writeRx i v).cfg = s.cfg ∧ (s.writeRx i v).busy = s.busy ∧ (s.writeRx i v).result = s.result ∧
    (s.writeRx i v).init = s.init ∧ (s.writeRx i v).rxdata = s.rxdata ∧ (s.writeRx i v).phase = s.phase ∧
    (s.writeRx i v).dir = s.dir ∧ (s.writeRx i v).role = s.role ∧ (s.writeRx i v).ownAddr = s.ownAddr ∧
    (s.writeRx i v).pollCount = s.pollCount ∧ (s.writeRx i v).lastStatus = s.lastStatus ∧
    (s.writeRx i v).seqErr = s.seqErr ∧ (s.writeRx i v).overrun = s.overrun ∧ (s.writeRx i v).cur = s.cur ∧
    (s.writeRx i v).idx = s.idx ∧ (s.writeRx i v).mem = s.mem.write (rxOffset i) v ∧
    (s.writeRx i v).frame = s.frame ∧ (s.writeRx i v).trace = s.trace ∧ (s.writeRx i v).turns = s.turns ∧
    (s.writeRx i v).answers = s.answers ∧ (s.writeRx i v).draws = s.draws ∧
    (s.writeRx i v).resets = s.resets ∧ (s.writeRx i v).hostReads = s.hostReads :=
  ⟨rfl, rfl, rfl, rfl, rfl, rfl, rfl, rfl, rfl, rfl, rfl, rfl, rfl, rfl, rfl, rfl, rfl, rfl, rfl, rfl, rfl, rfl, rfl⟩

@[simp] theorem State.countPoll_fields :
    (s.countPoll).cfg = s.cfg ∧ (s.countPoll).busy = s.busy ∧ (s.countPoll).result = s.result ∧
    (s.countPoll).init = s.init ∧ (s.countPoll).rxdata = s.rxdata ∧ (s.countPoll).phase = s.phase ∧
    (s.countPoll).dir = s.dir ∧ (s.countPoll).role = s.role ∧ (s.countPoll).ownAddr = s.ownAddr ∧
    (s.countPoll).pollCount = s.pollCount + 1 ∧ (s.countPoll).lastStatus = s.lastStatus ∧
    (s.countPoll).seqErr = s.seqErr ∧ (s.countPoll).overrun = s.overrun ∧ (s.countPoll).cur = s.cur ∧
    (s.countPoll).idx = s.idx ∧ (s.countPoll).mem = s.mem ∧ (s.countPoll).frame = s.frame ∧
    (s.countPoll).trace = s.trace ∧ (s.countPoll).turns = s.turns ∧ (s.countPoll).answers = s.answers ∧
    (s.countPoll).draws = s.draws ∧ (s.countPoll).resets = s.resets ∧
    (s.countPoll).hostReads = s.hostReads :=
  ⟨rfl, rfl, rfl, rfl, rfl, rfl, rfl, rfl, rfl, rfl, rfl, rfl, rfl, rfl, rfl, rfl, rfl, rfl, rfl, rfl, rfl, rfl, rfl⟩

@[simp] theorem State.abort_fields :
    (s.abort).cfg = s.cfg ∧ (s.abort).busy = s.busy ∧ (s.abort).result = s.result ∧
    (s.abort).init = s.init ∧ (s.abort).rxdata = s.rxdata ∧ (s.abort).phase = .aborted ∧
    (s.abort).dir = s.dir ∧ (s.abort).role = s.role ∧ (s.abort).ownAddr = s.ownAddr ∧
    (s.abort).pollCount = s.pollCount ∧ (s.abort).lastStatus = s.lastStatus ∧ (s.abort).seqErr = s.seqErr ∧
    (s.abort).overrun = s.overrun ∧ (s.abort).cur = s.cur ∧ (s.abort).idx = s.idx ∧ (s.abort).mem = s.mem ∧
    (s.abort).frame = s.frame ∧ (s.abort).trace = s.trace ∧ (s.abort).turns = s.turns ∧
    (s.abort).answers = s.answers ∧ (s.abort).draws = s.draws ∧ (s.abort).resets = s.resets ∧
    (s.abort).hostReads = s.hostReads :=
  ⟨rfl, rfl, rfl, rfl, rfl, rfl, rfl, rfl, rfl, rfl, rfl, rfl, rfl, rfl, rfl, rfl, rfl, rfl, rfl, rfl, rfl, rfl, rfl⟩

@[simp] theorem State.latchStatus_fields :
    (s.latchStatus).cfg = s.cfg ∧ (s.latchStatus).busy = s.busy ∧ (s.latchStatus).result = s.result ∧
    (s.latchStatus).init = s.init ∧ (s.latchStatus).rxdata = s.rxdata ∧ (s.latchStatus).phase = s.phase ∧
    (s.latchStatus).dir = s.dir ∧ (s.latchStatus).role = s.role ∧ (s.latchStatus).ownAddr = s.ownAddr ∧
    (s.latchStatus).pollCount = s.pollCount ∧ (s.latchStatus).lastStatus = maskedStatus s.cfg s.frame.ret ∧
    (s.latchStatus).seqErr = s.seqErr ∧ (s.latchStatus).overrun = s.overrun ∧ (s.latchStatus).cur = s.cur ∧
    (s.latchStatus).idx = s.idx ∧ (s.latchStatus).mem = s.mem ∧ (s.latchStatus).frame = s.frame ∧
    (s.latchStatus).trace = s.trace ∧ (s.latchStatus).turns = s.turns ∧
    (s.latchStatus).answers = s.answers ∧ (s.latchStatus).draws = s.draws ∧
    (s.latchStatus).resets = s.resets ∧ (s.latchStatus).hostReads = s.hostReads :=
  ⟨rfl, rfl, rfl, rfl, rfl, rfl, rfl, rfl, rfl, rfl, rfl, rfl, rfl, rfl, rfl, rfl, rfl, rfl, rfl, rfl, rfl, rfl, rfl⟩

@[simp] theorem State.settlePhase_fields (p : Phase) :
    (s.settlePhase p).cfg = s.cfg ∧ (s.settlePhase p).busy = s.busy ∧ (s.settlePhase p).result = s.result ∧
    (s.settlePhase p).init = s.init ∧ (s.settlePhase p).rxdata = s.rxdata ∧
    (s.settlePhase p).phase = (if s.frame.legal then p else .aborted) ∧ (s.settlePhase p).dir = s.dir ∧
    (s.settlePhase p).role = s.role ∧ (s.settlePhase p).ownAddr = s.ownAddr ∧
    (s.settlePhase p).pollCount = s.pollCount ∧ (s.settlePhase p).lastStatus = s.lastStatus ∧
    (s.settlePhase p).seqErr = s.seqErr ∧ (s.settlePhase p).overrun = s.overrun ∧
    (s.settlePhase p).cur = s.cur ∧ (s.settlePhase p).idx = s.idx ∧ (s.settlePhase p).mem = s.mem ∧
    (s.settlePhase p).frame = s.frame ∧ (s.settlePhase p).trace = s.trace ∧
    (s.settlePhase p).turns = s.turns ∧ (s.settlePhase p).answers = s.answers ∧
    (s.settlePhase p).draws = s.draws ∧ (s.settlePhase p).resets = s.resets ∧
    (s.settlePhase p).hostReads = s.hostReads :=
  ⟨rfl, rfl, rfl, rfl, rfl, rfl, rfl, rfl, rfl, rfl, rfl, rfl, rfl, rfl, rfl, rfl, rfl, rfl, rfl, rfl, rfl, rfl, rfl⟩

@[simp] theorem State.checkIdle_fields :
    (s.checkIdle).cfg = s.cfg ∧ (s.checkIdle).busy = s.busy ∧ (s.checkIdle).result = s.result ∧
    (s.checkIdle).init = s.init ∧ (s.checkIdle).rxdata = s.rxdata ∧ (s.checkIdle).phase = s.phase ∧
    (s.checkIdle).dir = s.dir ∧ (s.checkIdle).role = s.role ∧ (s.checkIdle).ownAddr = s.ownAddr ∧
    (s.checkIdle).pollCount = s.pollCount ∧ (s.checkIdle).lastStatus = s.lastStatus ∧
    (s.checkIdle).seqErr = (s.seqErr || s.phase != .idle) ∧ (s.checkIdle).overrun = s.overrun ∧
    (s.checkIdle).cur = s.cur ∧ (s.checkIdle).idx = s.idx ∧ (s.checkIdle).mem = s.mem ∧
    (s.checkIdle).frame = s.frame ∧ (s.checkIdle).trace = s.trace ∧ (s.checkIdle).turns = s.turns ∧
    (s.checkIdle).answers = s.answers ∧ (s.checkIdle).draws = s.draws ∧ (s.checkIdle).resets = s.resets ∧
    (s.checkIdle).hostReads = s.hostReads :=
  ⟨rfl, rfl, rfl, rfl, rfl, rfl, rfl, rfl, rfl, rfl, rfl, rfl, rfl, rfl, rfl, rfl, rfl, rfl, rfl, rfl, rfl, rfl, rfl⟩

@[simp] theorem State.recordRole_fields (r : Role) (own : Byte) :
    (s.recordRole r own).cfg = s.cfg ∧ (s.recordRole r own).busy = s.busy ∧
    (s.recordRole r own).result = s.result ∧ (s.recordRole r own).init = s.init ∧
    (s.recordRole r own).rxdata = s.rxdata ∧ (s.recordRole r own).phase = s.phase ∧
    (s.recordRole r own).dir = s.dir ∧ (s.recordRole r own).role = r ∧
    (s.recordRole r own).ownAddr = (if roleIsSlave r then own else s.ownAddr) ∧
    (s.recordRole r own).pollCount = s.pollCount ∧ (s.recordRole r own).lastStatus = s.lastStatus ∧
    (s.recordRole r own).seqErr = (s.seqErr || s.phase != .idle) ∧
    (s.recordRole r own).overrun = s.overrun ∧ (s.recordRole r own).cur = s.cur ∧
    (s.recordRole r own).idx = s.idx ∧ (s.recordRole r own).mem = s.mem ∧
    (s.recordRole r own).frame = s.frame ∧ (s.recordRole r own).trace = s.trace ∧
    (s.recordRole r own).turns = s.turns ∧ (s.recordRole r own).answers = s.answers ∧
    (s.recordRole r own).draws = s.draws ∧ (s.recordRole r own).resets = s.resets ∧
    (s.recordRole r own).hostReads = s.hostReads :=
  ⟨rfl, rfl, rfl, rfl, rfl, rfl, rfl, rfl, rfl, rfl, rfl, rfl, rfl, rfl, rfl, rfl, rfl, rfl, rfl, rfl, rfl, rfl, rfl⟩

@[simp] theorem State.recordRead_fields (v : Word) :
    (s.recordRead v).cfg = s.cfg ∧ (s.recordRead v).busy = s.busy ∧ (s.recordRead v).result = s.result ∧
    (s.recordRead v).init = s.init ∧ (s.recordRead v).rxdata = s.rxdata ∧ (s.recordRead v).phase = s.phase ∧
    (s.recordRead v).dir = s.dir ∧ (s.recordRead v).role = s.role ∧ (s.recordRead v).ownAddr = s.ownAddr ∧
    (s.recordRead v).pollCount = s.pollCount ∧ (s.recordRead v).lastStatus = s.lastStatus ∧
    (s.recordRead v).seqErr = s.seqErr ∧ (s.recordRead v).overrun = s.overrun ∧
    (s.recordRead v).cur = s.cur ∧ (s.recordRead v).idx = s.idx ∧ (s.recordRead v).mem = s.mem ∧
    (s.recordRead v).frame = s.frame ∧ (s.recordRead v).trace = s.trace ∧ (s.recordRead v).turns = s.turns ∧
    (s.recordRead v).answers = s.answers ∧ (s.recordRead v).draws = s.draws ∧
    (s.recordRead v).resets = s.resets ∧ (s.recordRead v).hostReads = s.hostReads ++ [v] :=
  ⟨rfl, rfl, rfl, rfl, rfl, rfl, rfl, rfl, rfl, rfl, rfl, rfl, rfl, rfl, rfl, rfl, rfl, rfl, rfl, rfl, rfl, rfl, rfl⟩

end Sys2Proof.Machine
end

