-- ==== Sys2Proof/Laws/Exec.lean ====
section
/-! SUPPORT. What one step of a command is, said once: the accept step of an idle block, the procedure of a busy
one, and what a step of `poll_step` can come to. Later proofs cite these and do not unfold `exec`. -/

namespace Sys2Proof.Machine

/-- On an idle block every command's step is its accept step (30_encoding.md R104). -/
theorem exec_idle (i : Instr) (s : State) (hb : s.busy = false) : exec i s = .next (accept i s) := by
  cases i <;> simp [exec, execConfig, execRole, execStart, execAddr, execData, execStop, execRecv,
    execSendb, execSend1, execRecvb, commandStep, hb]

theorem exec_config (ps : BitVec 2) (spd : SpeedClass) (s : State) (hb : s.busy = true) :
    exec (.config ps spd) s = configProc ps spd s := by
  simp [exec, execConfig, commandStep, hb]

theorem exec_role (r : Role) (gc : Bool) (own : Byte) (s : State) (hb : s.busy = true) :
    exec (.role r gc own) s = roleProc r gc own s := by
  simp [exec, execRole, commandStep, hb]

theorem exec_stop (s : State) (hb : s.busy = true) : exec .stop s = stopProc s := by
  simp [exec, execStop, commandStep, hb]

theorem exec_start (s : State) (hb : s.busy = true) :
    exec .start s = primitiveProc (startArgs s.cfg) beginStart s := by
  simp [exec, execStart, commandStep, hb]

theorem exec_addr (b : Byte) (s : State) (hb : s.busy = true) :
    exec (.addr b) s = primitiveProc (addrArgs s.cfg b) (beginAddr b) s := by
  simp [exec, execAddr, commandStep, hb]

theorem exec_data (b : Byte) (s : State) (hb : s.busy = true) :
    exec (.data b) s = primitiveProc (dataArgs s.cfg b) (beginData b) s := by
  simp [exec, execData, commandStep, hb]

theorem exec_recv (a : Bool) (s : State) (hb : s.busy = true) :
    exec (.recv a) s = primitiveProc (recvArgs s.cfg a) (beginRecv a) s := by
  simp [exec, execRecv, commandStep, hb]

theorem exec_sendb (a : BitVec 7) (n : Byte) (s : State) (hb : s.busy = true) :
    exec (.sendb a n) s = composedProc (sendbTransfer a n) s := by
  simp [exec, execSendb, commandStep, hb]

theorem exec_send1 (a : BitVec 7) (b : Byte) (s : State) (hb : s.busy = true) :
    exec (.send1 a b) s = composedProc (send1Transfer a b) s := by
  simp [exec, execSend1, commandStep, hb]

theorem exec_recvb (a : BitVec 7) (n : Byte) (s : State) (hb : s.busy = true) :
    exec (.recvb a n) s = composedProc (recvbTransfer a n) s := by
  simp [exec, execRecvb, commandStep, hb]

/-- The three polling primitives and RECV have one shape: their arguments and how they begin. -/
theorem exec_primitive (i : Instr) (hi : isPollingPrimitive i = true) :
    ∃ (args : Params → PollArgs) (start : State → State),
      (∀ s, s.busy = true → exec i s = primitiveProc (args s.cfg) start s) ∧
      (∀ c, (args c).accepts = primitiveAccepts c.statusCodes i) ∧
      (∀ c, ((args c).readsRx = true ↔ ∃ a, i = .recv a)) ∧
      (∀ c, ((args c).pend, (args c).ok) = primitivePhases i) := by
  cases i <;> simp [isPollingPrimitive] at hi
  · exact ⟨startArgs, beginStart, exec_start, fun c => rfl, fun c => by simp [startArgs], fun c => rfl⟩
  · rename_i b
    exact ⟨fun c => addrArgs c b, beginAddr b, exec_addr b, fun c => rfl,
      fun c => by simp [addrArgs], fun c => rfl⟩
  · rename_i b
    exact ⟨fun c => dataArgs c b, beginData b, exec_data b, fun c => rfl,
      fun c => by simp [dataArgs], fun c => rfl⟩
  · rename_i a
    exact ⟨fun c => recvArgs c a, beginRecv a, exec_recv a, fun c => rfl,
      fun c => by simp [recvArgs], fun c => rfl⟩

/-- The three composed commands have one shape: their transfer. -/
theorem exec_composed (i : Instr) (hi : isComposed i = true) :
    ∃ t : Transfer, t.count = transferCount i ∧
      ∀ s, s.busy = true → exec i s = composedProc t s := by
  cases i <;> simp [isComposed] at hi
  · exact ⟨_, rfl, exec_sendb _ _⟩
  · exact ⟨_, rfl, exec_send1 _ _⟩
  · exact ⟨_, rfl, exec_recvb _ _⟩

/-- An accepted command is latched (R104). -/
theorem accept_latches (i : Instr) (s : State) (hw : i.wellFormed = true)
    (h1 : (needsInit i && !s.init) = false) (h2 : badDivisor s.cfg i = false) :
    accept i s = s.latchCommand (encode i) := by
  simp [accept, hw, h1, h2]

/-- What the accept step can come to: a result written, and why, or the command latched (R104). -/
theorem accept_cases (i : Instr) (s : State) :
    (∃ r, accept i s = s.rejectCommand r ∧
      (r = .illegal ∧ i.wellFormed = false ∨ r = .uninit ∧ needsInit i = true ∧ s.init = false ∨
        r = .config ∧ badDivisor s.cfg i = true)) ∨
    (accept i s = s.latchCommand (encode i) ∧ i.wellFormed = true ∧
      (needsInit i && !s.init) = false ∧ badDivisor s.cfg i = false) := by
  unfold accept
  split
  · rename_i h1
    exact .inl ⟨_, rfl, .inl ⟨rfl, by simpa using h1⟩⟩
  · split
    · rename_i h1 h2
      exact .inl ⟨_, rfl, .inr (.inl ⟨rfl, by simpa using h2⟩)⟩
    · split
      · rename_i h1 h2 h3
        exact .inl ⟨_, rfl, .inr (.inr ⟨rfl, h3⟩)⟩
      · rename_i h1 h2 h3
        exact .inr ⟨rfl, by simpa using h1, by simpa using h2, by simpa using h3⟩

/-- What the first step of `poll_step` does (41_primitives.md R143, R145). -/
theorem beginPoll_eq (p : PollArgs) (legal : Bool) (s : State) :
    beginPoll p legal s = { s with
      seqErr := s.seqErr || !legal, phase := p.pend,
      trace := s.trace ++ [match p.wdata with
        | some b => .write .data b
        | none => .write .ctrl p.ctrl]
      frame := { s.frame with
        legal := legal, point := if p.wdata.isSome then .wroteData else .wroteCtrl } } := by
  unfold beginPoll
  cases p.wdata <;> rfl

/-- What one later step of `poll_step` can come to (R143, R144), guards included. -/
theorem pollNext_cases (p : PollArgs) (s : State) :
    (pollPoint p.wdata.isSome p.readsRx s.frame.point = false ∧ pollNext p s = .lost) ∨
    (s.frame.point = .wroteData ∧ p.wdata.isSome = true ∧
      pollNext p s = .running (s.callWrite .ctrl p.ctrl .wroteCtrl)) ∨
    (s.frame.point = .wroteCtrl ∧
      pollNext p s = .running ({ s with pollCount := 0#16 }.callRead .ctrl .polled)) ∨
    (s.frame.point = .polled ∧ flagSeen s.cfg s.frame.ret = true ∧
      pollNext p s = .running (s.callRead .status .gotStatus)) ∨
    (s.frame.point = .polled ∧ flagSeen s.cfg s.frame.ret = false ∧
      pollNext p s = .running s.callWait) ∨
    (s.frame.point = .waited ∧ s.countPoll.pollsExhausted = true ∧
      pollNext p s = .returned .timeout s.countPoll.abort) ∨
    (s.frame.point = .waited ∧ s.countPoll.pollsExhausted = false ∧
      pollNext p s = .running (s.countPoll.callRead .ctrl .polled)) ∨
    (s.frame.point = .gotStatus ∧ maskedStatus s.cfg s.frame.ret ∈ p.accepts ∧ p.readsRx = true ∧
      pollNext p s = .running ((s.latchStatus.settlePhase p.ok).callRead .data .gotData)) ∨
    (s.frame.point = .gotStatus ∧ maskedStatus s.cfg s.frame.ret ∈ p.accepts ∧ p.readsRx = false ∧
      pollNext p s = .returned .success (s.latchStatus.settlePhase p.ok)) ∨
    (s.frame.point = .gotStatus ∧ maskedStatus s.cfg s.frame.ret ∉ p.accepts ∧
      pollNext p s = .returned .protocol s.latchStatus.abort) ∨
    (s.frame.point = .gotData ∧ p.readsRx = true ∧
      pollNext p s = .returned .success { s with rxdata := s.frame.ret }) := by
  unfold pollNext
  cases hp : s.frame.point
  case wroteData => cases hw : p.wdata <;> simp [pollPoint]
  case polled => cases hf : flagSeen s.cfg s.frame.ret <;> simp [pollPoint]
  case waited => cases hf : s.countPoll.pollsExhausted <;> simp [pollPoint]
  case gotStatus =>
    by_cases hm : maskedStatus s.cfg s.frame.ret ∈ p.accepts <;> cases hr : p.readsRx <;>
      simp [pollPoint, validateStatus, hm, hr]
  case gotData => cases hr : p.readsRx <;> simp [pollPoint]
  all_goals simp [pollPoint]

/-- A procedure step is never refused. -/
theorem exec_not_refused (i : Instr) (s : State) (r : Refusal) : exec i s ≠ .refused r := by
  cases hb : s.busy
  · rw [exec_idle i s hb]; simp
  · have prim : ∀ p st, primitiveProc p st s ≠ .refused r := by
      intro p st; unfold primitiveProc; split
      · simp
      · split <;> simp
    have comp : ∀ t, composedProc t s ≠ .refused r := by
      intro t; unfold composedProc; split
      · simp
      · split
        · simp
        · split <;> simp
    cases i with
    | config ps spd => rw [exec_config _ _ s hb]; unfold configProc; split <;> simp
    | role a b c => rw [exec_role _ _ _ s hb]; unfold roleProc; split <;> (try split) <;> simp
    | stop => rw [exec_stop s hb]; unfold stopProc; split <;> simp
    | start => rw [exec_start s hb]; exact prim _ _
    | addr b => rw [exec_addr _ s hb]; exact prim _ _
    | data b => rw [exec_data _ s hb]; exact prim _ _
    | recv a => rw [exec_recv _ s hb]; exact prim _ _
    | sendb a n => rw [exec_sendb _ _ s hb]; exact comp _
    | send1 a n => rw [exec_send1 _ _ s hb]; exact comp _
    | recvb a n => rw [exec_recvb _ _ s hb]; exact comp _

/-! ## The host window -/

theorem hostPlace_add (c : Params) (off n : Nat) :
    hostPlace c (c.hostBase + off) n = windowPlace c.bufSize off n := by
  simp [hostPlace]

theorem hostPlace_cmd (c : Params) : hostPlace c c.hostBase 4 = some .cmd := by
  simp [hostPlace, windowPlace]

/-- The one access that reaches CMD (20_memory.md R61, R65). -/
theorem hostPlace_eq_cmd (c : Params) (addr n : Nat) :
    hostPlace c addr n = some .cmd ↔ addr = c.hostBase ∧ n = 4 := by
  constructor
  · intro h
    unfold hostPlace windowPlace at h
    split_ifs at h <;> simp_all <;> omega
  · rintro ⟨rfl, rfl⟩
    exact hostPlace_cmd c

theorem windowPlace_tx (z k : Nat) (h : k ≤ 255) (hz : k < z) :
    windowPlace z (0x100 + k) 1 = some (.tx (BitVec.ofNat 8 k)) := by
  have h2 : 256 + k < 1024 := by omega
  have h3 : 256 + k < 512 := by omega
  simp [windowPlace, h2, h3, hz]

theorem windowPlace_rx (z k : Nat) (h : k ≤ 255) (hz : k < z) :
    windowPlace z (0x200 + k) 1 = some (.rx (BitVec.ofNat 8 k)) := by
  have h1 : ¬ 512 + k < 256 := by omega
  have h2 : 512 + k < 1024 := by omega
  have h4 : 512 + k < 768 := by omega
  simp [windowPlace, h1, h2, h4, hz]

/-- A place that is TXBUF's is at TXBUF's offset (20_memory.md R61), inside the buffer. -/
theorem windowPlace_eq_tx (z off n : Nat) (i : Byte) (h : windowPlace z off n = some (.tx i)) :
    n = 1 ∧ off = txOffset i ∧ i.toNat < z := by
  unfold windowPlace at h
  split_ifs at h <;> simp at h
  subst h
  rename_i h1 h2 h3 h4
  refine ⟨h3, ?_, ?_⟩ <;> simp [txOffset] <;> omega

end Sys2Proof.Machine
end

