-- ==== Sys2Proof/Laws/Frame.lean ====
section
/-! SUPPORT. What a step of a command's procedure leaves alone and what it may add to the port trace (spec/10_state.md
R41, 20_memory.md R67): once for the polling step, once for the composed commands' stages, once for `exec`. -/

namespace Sys2Proof.Machine

/-! ## The fields no polling step writes -/

/-- The fields no polling primitive writes. -/
structure Kept (s t : State) : Prop where
  cfg       : t.cfg = s.cfg
  init      : t.init = s.init
  role      : t.role = s.role
  ownAddr   : t.ownAddr = s.ownAddr
  overrun   : t.overrun = s.overrun
  turns     : t.turns = s.turns
  resets    : t.resets = s.resets
  hostReads : t.hostReads = s.hostReads
  cur       : t.cur = s.cur

theorem Kept.trans {s t u : State} (h : Kept s t) (g : Kept t u) : Kept s u :=
  ⟨g.cfg.trans h.cfg, g.init.trans h.init, g.role.trans h.role, g.ownAddr.trans h.ownAddr,
    g.overrun.trans h.overrun, g.turns.trans h.turns, g.resets.trans h.resets,
    g.hostReads.trans h.hostReads, g.cur.trans h.cur⟩

/-- Besides, what a polling step leaves alone of what a composed command writes. -/
structure PollKept (s t : State) : Prop extends Kept s t where
  idx : t.idx = s.idx
  mem : t.mem = s.mem

/-- The first step of a polling step keeps them, and `dir` and `rxdata`. -/
theorem beginPoll_kept (p : PollArgs) (legal : Bool) (s : State) :
    PollKept s (beginPoll p legal s) ∧ (beginPoll p legal s).dir = s.dir ∧
      (beginPoll p legal s).rxdata = s.rxdata ∧ (beginPoll p legal s).busy = s.busy ∧
      (beginPoll p legal s).frame.stage = s.frame.stage := by
  rw [beginPoll_eq]
  exact ⟨⟨⟨rfl, rfl, rfl, rfl, rfl, rfl, rfl, rfl, rfl⟩, rfl, rfl⟩, rfl, rfl, rfl, rfl⟩

/-- ADDR's first step keeps them, and `rxdata` (R151: it writes `dir`). -/
theorem beginAddr_kept (b : Byte) (s : State) :
    PollKept s (beginAddr b s) ∧ (beginAddr b s).rxdata = s.rxdata ∧ (beginAddr b s).busy = s.busy := by
  rw [beginAddr, beginPoll_eq]
  exact ⟨⟨⟨rfl, rfl, rfl, rfl, rfl, rfl, rfl, rfl, rfl⟩, rfl, rfl⟩, rfl, rfl⟩

/-- A later step of a polling step keeps them, and `dir`, `seqErr`, `busy`, `result` and the stage; `rxdata` changes
only when RECV's step returns. -/
theorem pollNext_kept (p : PollArgs) (s t : State)
    (h : pollNext p s = .running t ∨ ∃ r, pollNext p s = .returned r t) :
    PollKept s t ∧ t.dir = s.dir ∧ t.seqErr = s.seqErr ∧ t.busy = s.busy ∧ t.result = s.result ∧
      t.frame.stage = s.frame.stage ∧
      (t.rxdata = s.rxdata ∨ p.readsRx = true ∧ s.frame.point = .gotData ∧ t.rxdata = s.frame.ret) := by
  rcases pollNext_cases p s with ⟨_, h'⟩ | ⟨_, _, h'⟩ | ⟨_, h'⟩ | ⟨_, _, h'⟩ | ⟨_, _, h'⟩ | ⟨_, _, h'⟩ |
    ⟨_, _, h'⟩ | ⟨_, _, _, h'⟩ | ⟨_, _, _, h'⟩ | ⟨_, _, h'⟩ | ⟨hg, hr, h'⟩ <;>
    rw [h'] at h <;> simp only [reduceCtorEq, Progress.running.injEq, Progress.returned.injEq,
      exists_false, or_false, false_or, exists_and_right, exists_eq', true_and] at h <;>
    subst h <;>
    exact ⟨⟨⟨by simp, by simp, by simp, by simp, by simp, by simp, by simp, by simp, by simp⟩, by simp,
      by simp⟩, by simp, by simp, by simp, by simp, by simp, by simp [*]⟩

/-- A polling step never runs at the entry or after a stop. -/
theorem pollNext_point (p : PollArgs) (s : State) (h : pollNext p s ≠ .lost) :
    s.frame.point ≠ .entry ∧ s.frame.point ≠ .stopped := by
  constructor <;> intro hp <;> exact h (by simp [pollNext, hp])

/-- A polling step is lost exactly at the points that are none of its (10_state.md R21). -/
theorem pollNext_lost_iff (p : PollArgs) (s : State) :
    pollNext p s = .lost ↔ pollPoint p.wdata.isSome p.readsRx s.frame.point = false := by
  rcases pollNext_cases p s with ⟨h0, h'⟩ | ⟨h0, h1, h'⟩ | ⟨h0, h'⟩ | ⟨h0, _, h'⟩ | ⟨h0, _, h'⟩ |
    ⟨h0, _, h'⟩ | ⟨h0, _, h'⟩ | ⟨h0, _, _, h'⟩ | ⟨h0, _, _, h'⟩ | ⟨h0, _, h'⟩ | ⟨h0, hr, h'⟩ <;>
    rw [h'] <;> simp_all [pollPoint]

/-! ## The composed commands -/

/-- What the frame laws ask of a transfer: its first step and its store keep what they should. -/
structure Transfer.Keeps (t : Transfer) : Prop where
  start : ∀ s, PollKept s (t.start s) ∧ (t.start s).rxdata = s.rxdata
  store : ∀ s, Kept s (t.store s) ∧ (t.store s).rxdata = s.rxdata

theorem sendbTransfer_keeps (a : BitVec 7) (n : Byte) : (sendbTransfer a n).Keeps where
  start s :=
    have h := beginPoll_kept (dataArgs s.cfg (s.txByte s.bufIndex)) (dataLegal s.phase) s
    ⟨h.1, h.2.2.1⟩
  store _ := ⟨⟨rfl, rfl, rfl, rfl, rfl, rfl, rfl, rfl, rfl⟩, rfl⟩

theorem send1Transfer_keeps (a : BitVec 7) (b : Byte) : (send1Transfer a b).Keeps where
  start s :=
    have h := beginPoll_kept (dataArgs s.cfg b) (dataLegal s.phase) s
    ⟨h.1, h.2.2.1⟩
  store _ := ⟨⟨rfl, rfl, rfl, rfl, rfl, rfl, rfl, rfl, rfl⟩, rfl⟩

theorem recvbTransfer_keeps (a : BitVec 7) (n : Byte) : (recvbTransfer a n).Keeps where
  start s :=
    have h := beginPoll_kept (recvArgs s.cfg (recvbAck s.idx n)) (recvLegal s.phase s.dir) s
    ⟨h.1, h.2.2.1⟩
  store s := ⟨⟨by simp [recvbTransfer], by simp [recvbTransfer], by simp [recvbTransfer],
    by simp [recvbTransfer], by simp [recvbTransfer], by simp [recvbTransfer], by simp [recvbTransfer],
    by simp [recvbTransfer], by simp [recvbTransfer]⟩, by simp [recvbTransfer]⟩

/-- A composed command's first step keeps them, `dir`, `rxdata` and the memory, and starts the index at 0 (R21). -/
theorem beginComposed_kept (s : State) :
    Kept s (beginComposed s) ∧ (beginComposed s).dir = s.dir ∧ (beginComposed s).rxdata = s.rxdata ∧
      (beginComposed s).mem = s.mem ∧ (beginComposed s).busy = s.busy ∧ (beginComposed s).idx = 0#9 ∧
      (beginComposed s).frame.stage = .start := by
  obtain ⟨k, d, x, b, g⟩ :=
    beginPoll_kept (startArgs s.cfg) (startLegal s.phase) ({ s with idx := 0#9 }.enterStage .start)
  exact ⟨⟨k.cfg, k.init, k.role, k.ownAddr, k.overrun, k.turns, k.resets, k.hostReads, k.cur⟩, d, x, k.mem,
    b, k.idx, g⟩

/-- The stop's first step keeps them, and `rxdata`. -/
theorem beginStop_kept (r : Result) (s : State) :
    PollKept s (beginStop r s) ∧ (beginStop r s).rxdata = s.rxdata ∧ (beginStop r s).busy = s.busy := by
  refine ⟨⟨⟨?_, ?_, ?_, ?_, ?_, ?_, ?_, ?_, ?_⟩, ?_, ?_⟩, ?_, ?_⟩ <;> simp [beginStop]

/-- The loop head keeps them, and `rxdata`. -/
theorem loopHead_kept (t : Transfer) (ht : t.Keeps) (s : State) :
    PollKept s (loopHead t s) ∧ (loopHead t s).rxdata = s.rxdata := by
  unfold loopHead
  split
  · obtain ⟨⟨k, i, m⟩, r⟩ := ht.start (s.enterStage .transfer)
    exact ⟨⟨⟨k.cfg, k.init, k.role, k.ownAddr, k.overrun, k.turns, k.resets, k.hostReads, k.cur⟩, i, m⟩, r⟩
  · exact ⟨(beginStop_kept _ _).1, (beginStop_kept _ _).2.1⟩

/-- What follows a stage's result keeps them, and `rxdata`; the memory is the store's after a successful transfer
(42_composed.md R188), else as before. -/
theorem stageReturned_kept (t : Transfer) (ht : t.Keeps) (g : Stage) (r : Result) (s : State) :
    Kept s (stageReturned t g r s) ∧ (stageReturned t g r s).rxdata = s.rxdata ∧
      (stageReturned t g r s).mem = if g = .transfer ∧ r = .success then (t.store s).mem else s.mem := by
  unfold stageReturned
  by_cases hr : r = .success
  · cases g <;> simp only [hr, if_true]
    · obtain ⟨⟨k, i, m⟩, x, -⟩ := beginAddr_kept t.sla (s.enterStage .address)
      exact ⟨⟨k.cfg, k.init, k.role, k.ownAddr, k.overrun, k.turns, k.resets, k.hostReads, k.cur⟩, x,
        by simpa using m⟩
    · obtain ⟨⟨k, i, m⟩, x⟩ := loopHead_kept t ht { s with idx := 0#9 }
      exact ⟨⟨k.cfg, k.init, k.role, k.ownAddr, k.overrun, k.turns, k.resets, k.hostReads, k.cur⟩, x,
        by simpa using m⟩
    · obtain ⟨⟨k, i, m⟩, x⟩ := loopHead_kept t ht { t.store s with idx := s.idx + 1#9 }
      obtain ⟨k', x'⟩ := ht.store s
      exact ⟨k'.trans ⟨k.cfg, k.init, k.role, k.ownAddr, k.overrun, k.turns, k.resets, k.hostReads,
        k.cur⟩, x.trans x', by simpa using m⟩
  · obtain ⟨⟨k, -, m⟩, x, -⟩ := beginStop_kept r s
    cases g <;> simp only [hr, if_false, and_false]
    · exact ⟨⟨by simp, by simp, by simp, by simp, by simp, by simp, by simp, by simp, by simp⟩, by simp,
        by simp⟩
    · exact ⟨k, x, m⟩
    · exact ⟨k, x, m⟩

/-- How a polling step succeeds: on an accepted status, or for RECV after its DATA read (41_primitives.md R143, R158). -/
theorem pollNext_success (p : PollArgs) (s v : State) (h : pollNext p s = .returned .success v) :
    (p.readsRx = false ∧ s.frame.point = .gotStatus ∧ maskedStatus s.cfg s.frame.ret ∈ p.accepts) ∨
      (p.readsRx = true ∧ s.frame.point = .gotData) := by
  rcases pollNext_cases p s with ⟨_, h'⟩ | ⟨_, _, h'⟩ | ⟨_, h'⟩ | ⟨_, _, h'⟩ | ⟨_, _, h'⟩ | ⟨_, _, h'⟩ |
    ⟨_, _, h'⟩ | ⟨_, _, _, h'⟩ | ⟨_, _, _, h'⟩ | ⟨_, _, h'⟩ | ⟨_, _, h'⟩ <;>
    rw [h'] at h <;> simp at h <;> simp_all

/-- The loop head keeps the index. -/
theorem loopHead_idx (t : Transfer) (ht : t.Keeps) (s : State) : (loopHead t s).idx = s.idx :=
  (loopHead_kept t ht s).1.idx

/-- Where a composed command's index changes (42_composed.md R183): at its start, after a successful address step,
after a successful transfer. -/
theorem composedProc_idx (t : Transfer) (ht : t.Keeps) (s u : State) (h : composedProc t s = .next u) :
    u.idx = s.idx ∨ (s.frame.point = .entry ∧ u.idx = 0#9) ∨
      ∃ v, pollNext (stageArgs t s) s = .returned .success v ∧
        ((s.frame.stage = .address ∧ u.idx = 0#9) ∨ (s.frame.stage = .transfer ∧ u.idx = s.idx + 1#9)) := by
  unfold composedProc at h
  split at h
  · rename_i he
    cases h
    exact .inr (.inl ⟨he, (beginComposed_kept s).2.2.2.2.2.1⟩)
  · split at h
    · cases h
      exact .inl (by simp [endStop])
    · split at h
      · rename_i v hq
        cases h
        exact .inl (pollNext_kept _ _ _ (.inl hq)).1.idx
      · rename_i r v hq
        have hv := (pollNext_kept _ _ _ (.inr ⟨r, hq⟩)).1.idx
        cases h
        unfold stageReturned
        by_cases hr : r = .success
        · cases hg : s.frame.stage <;> simp only [hr, if_true]
          · exact .inl ((beginAddr_kept t.sla (v.enterStage .address)).1.idx.trans (by simpa using hv))
          · exact .inr (.inr ⟨v, hr ▸ hq, .inl ⟨by simp, by rw [loopHead_idx t ht]⟩⟩)
          · exact .inr (.inr ⟨v, hr ▸ hq, .inr ⟨by simp, by rw [loopHead_idx t ht, hv]⟩⟩)
        · cases hg : s.frame.stage <;> simp only [hr, if_false]
          · exact .inl (by simpa using hv)
          · exact .inl ((beginStop_kept r v).1.idx.trans hv)
          · exact .inl ((beginStop_kept r v).1.idx.trans hv)
      · cases h

/-! ## The port discipline -/

/-- A step's effect on what every command treats alike: fault bits only set, RESULT written only at completion, at
most one port event, an allowed one (R27, R33, R67); `rd` holds if the event reads DATA. -/
structure Disciplined (rd : Prop) (s t : State) : Prop where
  seqErr : s.seqErr = true → t.seqErr = true
  result : t.busy = true → t.result = s.result
  trace  : t.trace = s.trace ∨ ∃ e, t.trace = s.trace ++ [e] ∧ allowedEvent s.cfg e = true ∧
    ∀ v, e = .read .data v → rd

theorem Disciplined.weaken {rd rd' : Prop} {s t : State} (h : Disciplined rd s t) (hr : rd → rd') :
    Disciplined rd' s t :=
  ⟨h.seqErr, h.result, h.trace.imp id fun ⟨e, a, b, c⟩ => ⟨e, a, b, fun v hv => hr (c v hv)⟩⟩

/-- A step whose internal writes add no event, then a disciplined rest. -/
theorem Disciplined.after {rd : Prop} {s v t : State} (h : Disciplined False s v) (ht : v.trace = s.trace)
    (hc : v.cfg = s.cfg) (hv : v.busy = true) (g : Disciplined rd v t) : Disciplined rd s t :=
  ⟨fun x => g.seqErr (h.seqErr x), fun x => (g.result x).trans (h.result hv), by
    rw [← ht, ← hc]; exact g.trace⟩

/-- A polling step's control value is one of the block's (R142). -/
def PollArgs.Allowed (c : Params) (p : PollArgs) : Prop := allowedEvent c (.write .ctrl p.ctrl) = true

theorem startArgs_allowed (c : Params) : (startArgs c).Allowed c := by
  simp [PollArgs.Allowed, allowedEvent, startArgs]

theorem addrArgs_allowed (c : Params) (b : Byte) : (addrArgs c b).Allowed c := by
  simp [PollArgs.Allowed, allowedEvent, addrArgs]

theorem dataArgs_allowed (c : Params) (b : Byte) : (dataArgs c b).Allowed c := by
  simp [PollArgs.Allowed, allowedEvent, dataArgs]

theorem recvArgs_allowed (c : Params) (a : Bool) : (recvArgs c a).Allowed c := by
  cases a <;> simp [PollArgs.Allowed, allowedEvent, recvArgs, recvCtrl]

theorem beginPoll_disciplined (p : PollArgs) (legal : Bool) (s : State) (hp : p.Allowed s.cfg) :
    Disciplined False s (beginPoll p legal s) := by
  rw [beginPoll_eq]
  refine ⟨fun h => by simp [h], fun _ => rfl, .inr ⟨_, rfl, ?_, ?_⟩⟩
  · cases p.wdata
    · exact hp
    · rfl
  · cases p.wdata <;> simp

theorem pollNext_disciplined (p : PollArgs) (s t : State) (hp : p.Allowed s.cfg) :
    (pollNext p s = .running t → Disciplined (p.readsRx = true) s t) ∧
    (∀ r, pollNext p s = .returned r t → Disciplined False s t ∧ t.trace = s.trace) := by
  rcases pollNext_cases p s with ⟨h0, h'⟩ | ⟨h0, h1, h'⟩ | ⟨h0, h'⟩ | ⟨h0, _, h'⟩ | ⟨h0, _, h'⟩ |
    ⟨h0, _, h'⟩ | ⟨h0, _, h'⟩ | ⟨h0, _, hr, h'⟩ | ⟨h0, _, _, h'⟩ | ⟨h0, _, h'⟩ | ⟨h0, hr, h'⟩ <;>
    rw [h'] <;> refine ⟨fun h => ?_, fun r h => ?_⟩ <;> simp at h
  all_goals (first | subst h | (obtain ⟨rfl, rfl⟩ := h))
  all_goals (try (refine ⟨?_, by simp⟩))
  all_goals (refine ⟨by simp, by simp, ?_⟩)
  all_goals simp
  all_goals (first | (simp [allowedEvent]; done) | simp_all [PollArgs.Allowed, allowedEvent])

theorem beginComposed_disciplined (s : State) : Disciplined False s (beginComposed s) := by
  obtain ⟨h, r, t⟩ := beginPoll_disciplined (startArgs s.cfg) (startLegal s.phase)
    ({ s with idx := 0#9 }.enterStage .start) (startArgs_allowed s.cfg)
  exact ⟨h, r, t⟩

theorem beginStop_disciplined (r : Result) (s : State) : Disciplined False s (beginStop r s) := by
  refine ⟨by simp [beginStop], by simp [beginStop], ?_⟩
  right; simp [beginStop, allowedEvent]

theorem finish_disciplined (r : Result) (s : State) : Disciplined False s (s.finish r) := by
  refine ⟨by simp, by simp, by simp⟩

end Sys2Proof.Machine
end

