-- ==== Sys2Proof/Laws/PerInstr.lean ====
section
/-! SUPPORT. One statement about every command as syntax, a lemma per constructor: its word holds its opcode in bits
3:0 and zeros in bits 7:4 (spec/30_encoding.md R91, R101). -/

namespace Sys2Proof.Laws.OpcodeField

/-- The opcode of each command (R101). -/
def opcode : Instr → BitVec 4
  | .config _ _ => 0x1#4
  | .role _ _ _ => 0x2#4
  | .start => 0x3#4
  | .addr _ => 0x4#4
  | .data _ => 0x5#4
  | .stop => 0x6#4
  | .recv _ => 0x7#4
  | .sendb _ _ => 0x8#4
  | .send1 _ _ => 0x9#4
  | .recvb _ _ => 0xA#4

/-- The command's word holds its opcode, and its bits 7:4 are 0. -/
def Statement (i : Instr) : Prop :=
  opcodeField (encode i) = opcode i ∧ (encode i).extractLsb' 4 4 = 0#4

/-- A clear mask that covers bits 7:4 leaves them 0. -/
theorem nibble_clear (mask w : Word) (h : reservedClear mask w = true)
    (hm : mask.getLsbD 4 = true ∧ mask.getLsbD 5 = true ∧ mask.getLsbD 6 = true ∧ mask.getLsbD 7 = true) :
    w.extractLsb' 4 4 = 0#4 := by
  have h := (reservedClear_iff mask w).1 h
  obtain ⟨h4, h5, h6, h7⟩ := hm
  refine BitVec.eq_of_getLsbD_eq fun b hb => ?_
  have e4 := h 4 (by omega) h4
  have e5 := h 5 (by omega) h5
  have e6 := h 6 (by omega) h6
  have e7 := h 7 (by omega) h7
  interval_cases b <;> simp_all

theorem config (ps : BitVec 2) (speed : SpeedClass) : Statement (.config ps speed) :=
  have h := encodeC_fields 0x1#4 ps speed.code
  ⟨h.1, nibble_clear _ _ h.2.1 (by decide)⟩

theorem role (r : Role) (gc : Bool) (own : Byte) : Statement (.role r gc own) :=
  have h := encodeS_fields 0x2#4 r.code gc own
  ⟨h.1, nibble_clear _ _ h.2.1 (by decide)⟩

theorem start : Statement .start :=
  have h := encodeN_fields 0x3#4
  ⟨h.1, nibble_clear _ _ h.2 (by decide)⟩

theorem addr (byte : Byte) : Statement (.addr byte) :=
  have h := encodeB_fields 0x4#4 byte
  ⟨h.1, nibble_clear _ _ h.2.1 (by decide)⟩

theorem data (byte : Byte) : Statement (.data byte) :=
  have h := encodeB_fields 0x5#4 byte
  ⟨h.1, nibble_clear _ _ h.2.1 (by decide)⟩

theorem stop : Statement .stop :=
  have h := encodeN_fields 0x6#4
  ⟨h.1, nibble_clear _ _ h.2 (by decide)⟩

theorem recv (ack : Bool) : Statement (.recv ack) :=
  have h := encodeR_fields 0x7#4 ack
  ⟨h.1, nibble_clear _ _ h.2.1 (by decide)⟩

theorem sendb (addr7 : BitVec 7) (len : Byte) : Statement (.sendb addr7 len) :=
  have h := encodeT_fields 0x8#4 addr7 len
  ⟨h.1, nibble_clear _ _ h.2.1 (by decide)⟩

theorem send1 (addr7 : BitVec 7) (byte : Byte) : Statement (.send1 addr7 byte) :=
  have h := encodeT_fields 0x9#4 addr7 byte
  ⟨h.1, nibble_clear _ _ h.2.1 (by decide)⟩

theorem recvb (addr7 : BitVec 7) (len : Byte) : Statement (.recvb addr7 len) :=
  have h := encodeT_fields 0xA#4 addr7 len
  ⟨h.1, nibble_clear _ _ h.2.1 (by decide)⟩

end Sys2Proof.Laws.OpcodeField
end

