-- ==== Sys2Proof/Laws/Poll.lean ====
section
/-! SUPPORT. The poll loop of every polling step, step by step (spec/41_primitives.md R144): what the reads that see
the flag clear come to, for the primitives and for the polling steps of the composed commands alike. -/

namespace Sys2Proof.Machine

/-- While a polling step goes on, a step of its command is that step's own (R143, 42_composed.md R180). -/
theorem exec_of_running (i : Instr) (hi : isPollingPrimitive i = true ∨ isComposed i = true) :
    ∃ args : State → PollArgs, ∀ s s', s.busy = true → s.frame.point ≠ .entry →
      s.frame.point ≠ .stopped → pollNext (args s) s = .running s' → exec i s = .next s' := by
  rcases hi with hi | hi
  · obtain ⟨args, start, h, -⟩ := exec_primitive i hi
    refine ⟨fun s => args s.cfg, fun s s' hb he _ hr => ?_⟩
    simp [h s hb, primitiveProc, he, hr]
  · obtain ⟨t, -, h⟩ := exec_composed i hi
    refine ⟨stageArgs t, fun s s' hb he hs hr => ?_⟩
    simp [h s hb, composedProc, he, hs, hr]

/-- `k` steps, then `n` more. -/
theorem execSteps_add (i : Instr) (k n : Nat) (s t : State) (h : execSteps i k s = .next t) :
    execSteps i (k + n) s = execSteps i n t := by
  induction k generalizing s with
  | zero => simp only [execSteps, Host.Outcome.next.injEq] at h; simp [h]
  | succ k ih =>
    rw [Nat.add_right_comm, execSteps]
    rw [execSteps] at h
    cases he : exec i s with
    | next s' => rw [he] at h; exact ih s' h
    | fault r => rw [he] at h; cases h
    | refused r => rw [he] at h; cases h

theorem execSteps_one (i : Instr) (s : State) : execSteps i 1 s = exec i s := by
  simp only [execSteps]; cases exec i s <;> rfl

/-- Counting one poll that stays below the bound. -/
theorem countPoll_below (s : State) (h : s.cfg.maxPolls ≤ 65535)
    (hk : s.pollCount.toNat + 1 < s.cfg.maxPolls) :
    s.countPoll.pollsExhausted = false ∧ s.countPoll.pollCount.toNat = s.pollCount.toNat + 1 := by
  have e : (s.pollCount.toNat + 1) % 65536 = s.pollCount.toNat + 1 := by omega
  simp [State.pollsExhausted, State.countPoll, e]
  omega

/-- A run of polls that read the flag as 0, below the bound: a wait and a CTRL read each (R144). `s` stands after
the CTRL read of the first of them, and the run ends after the CTRL read of `last`. -/
theorem clear_polls (i : Instr) (hi : isPollingPrimitive i = true ∨ isComposed i = true)
    (clear : List Byte) (last : Byte) (rest : List Byte) (s : State) (t : List Event)
    (hl : s.cfg.maxPolls ≤ 65535) (hb : s.busy = true) (hp : s.frame.point = .polled)
    (ha : s.frame.ret :: s.answers = clear ++ last :: rest)
    (ht : s.trace = t ++ [.read .ctrl s.frame.ret])
    (hc : ∀ v ∈ clear, flagSeen s.cfg v = false)
    (hk : s.pollCount.toNat + clear.length < s.cfg.maxPolls) :
    execSteps i (2 * clear.length) s = .next { s with
      answers := rest, draws := s.draws + clear.length
      pollCount := s.pollCount + BitVec.ofNat 16 clear.length
      trace := t ++ clearPolls s.cfg clear ++ [.read .ctrl last]
      frame := { s.frame with ret := last } } := by
  induction clear generalizing s t with
  | nil =>
    simp only [List.nil_append, List.cons.injEq] at ha
    obtain ⟨rfl, rfl⟩ := ha
    simp [execSteps, clearPolls, ← ht]
  | cons v clear ih =>
    simp only [List.cons_append, List.cons.injEq] at ha
    obtain ⟨rfl, ha⟩ := ha
    have hf := hc _ (List.mem_cons_self ..)
    simp only [List.length_cons] at hk
    obtain ⟨args, hx⟩ := exec_of_running i hi
    have h1 : exec i s = .next s.callWait :=
      hx s _ hb (by simp [hp]) (by simp [hp]) (by simp [pollNext, hp, hf])
    obtain ⟨c1, c2⟩ := countPoll_below s.callWait (by simpa using hl) (by simp; omega)
    have h2 : exec i s.callWait = .next (s.callWait.countPoll.callRead .ctrl .polled) :=
      hx _ _ (by simpa using hb) (by simp) (by simp) (by simp [pollNext, c1])
    have hans : s.portAnswer :: s.answers.tail = clear ++ last :: rest := by
      rw [← ha]; unfold State.portAnswer
      cases hs : s.answers with
      | nil => rw [hs] at ha; simp at ha
      | cons a l => rfl
    have h3 := ih (s.callWait.countPoll.callRead .ctrl .polled) (t ++ clearPolls s.cfg [s.frame.ret])
      (by simpa using hl) (by simpa using hb) (by simp)
      (by simpa [State.portAnswer] using hans)
      (by simp [ht, clearPolls, State.portAnswer])
      (fun v hv => by simpa using hc v (List.mem_cons_of_mem _ hv))
      (by simpa using by omega)
    have e : 2 * (clear.length + 1) = (1 + 1) + 2 * clear.length := by omega
    rw [List.length_cons, e, execSteps_add i (1 + 1) _ s _ (by
      rw [execSteps_add i 1 1 s _ (by rw [execSteps_one, h1]), execSteps_one, h2]), h3]
    simp [State.callRead, State.callWait, State.countPoll, State.portRead, State.portWait, State.goto,
      State.gotoWith, clearPolls, BitVec.add_assoc]
    exact ⟨by rw [Nat.add_comm, BitVec.ofNat_add], hp.symm, by omega⟩

end Sys2Proof.Machine
end

