-- ==== Sys2Proof/Laws/Segment.lean ====
section
/-! SUPPORT. One polling step of the step machine against `poll_step` of the pseudocode (spec/41_primitives.md R143,
R144, R159), whatever the peripheral answers: the same result, the same state but for the procedure position, and
within the bound. What runs of whole commands are put together from. -/

namespace Sys2Proof.Machine

/-- A state at another procedure position. -/
def State.withFrame (f : Frame) (s : State) : State := { s with frame := f }

/-- `n` steps of a polling step that each go on. -/
inductive PollRun (p : PollArgs) : Nat → State → State → Prop
  | refl (s) : PollRun p 0 s s
  | step {n s t u} : pollNext p s = .running t → PollRun p n t u → PollRun p (n+1) s u

theorem PollRun.trans {p : PollArgs} {n m : Nat} {s t u : State} (h : PollRun p n s t)
    (g : PollRun p m t u) : PollRun p (n + m) s u := by
  induction h with
  | refl s => simpa using g
  | step h1 h2 ih => rw [Nat.add_right_comm]; exact .step h1 (ih g)

/-- The poll loop (R144): from the CTRL read that begins it, the step machine comes to the read that saw the flag, or
to the last wait, in the state the loop computes. -/
theorem pollLoop_run (p : PollArgs) (fuel : Nat) (h : State) (f : Frame) (hl : h.cfg.Legal)
    (hf : h.pollCount.toNat + fuel = h.cfg.maxPolls) (hpos : 1 ≤ fuel) :
    ∃ m s1, PollRun p m ((State.withFrame f h).callRead .ctrl .polled) s1 ∧
      s1.frame.legal = f.legal ∧ s1.frame.stage = f.stage ∧
      ((∃ w, pollLoop fuel h = (true, w) ∧ s1.frame.point = .polled ∧
          flagSeen s1.cfg s1.frame.ret = true ∧ s1 = State.withFrame s1.frame w ∧ m ≤ 2 * (fuel - 1)) ∨
       (∃ w, pollLoop fuel h = (false, w) ∧ s1.frame.point = .waited ∧
          s1.countPoll.pollsExhausted = true ∧ s1.countPoll = State.withFrame s1.frame w ∧
          m ≤ 2 * (fuel - 1) + 1)) := by
  induction fuel generalizing h f with
  | zero => omega
  | succ fuel ih =>
    have hmax := hl.2.1
    have hx : (State.withFrame f h).portAnswer = h.portAnswer := rfl
    unfold pollLoop
    cases hfl : flagSeen h.cfg h.portAnswer with
    | true =>
      refine ⟨0, _, .refl _, by simp [State.withFrame], by simp [State.withFrame], .inl ⟨h.portRead .ctrl, by simp, by simp, by simp; exact hfl, ?_, by omega⟩⟩
      rfl
    | false =>
      simp only [Bool.false_eq_true, if_false]
      have r1 : pollNext p ((State.withFrame f h).callRead .ctrl .polled) = .running ((State.withFrame f h).callRead .ctrl .polled).callWait := by
        simp only [pollNext, State.callRead_fields]
        have : flagSeen (State.withFrame f h).cfg (State.withFrame f h).portAnswer = false := hfl
        simp [this]
      have hc : ((State.withFrame f h).callRead .ctrl .polled).callWait.countPoll.pollsExhausted = ((h.portRead .ctrl).portWait.countPoll).pollsExhausted := rfl
      cases hex : ((h.portRead .ctrl).portWait.countPoll).pollsExhausted with
      | true =>
        refine ⟨1, _, .step r1 (.refl _), by simp [State.withFrame], by simp [State.withFrame], .inr ⟨(h.portRead .ctrl).portWait.countPoll, by simp, by simp, by rw [hc, hex], rfl, by omega⟩⟩
      | false =>
        simp only [Bool.false_eq_true, if_false]
        rw [hex] at hc
        have hpc : ((h.portRead .ctrl).portWait.countPoll).pollCount.toNat = h.pollCount.toNat + 1 := by
          simp [State.countPoll]; omega
        have hfp : 1 ≤ fuel := by
          rcases Nat.eq_zero_or_pos fuel with h0 | h0
          · subst h0
            simp only [State.pollsExhausted, decide_eq_false_iff_not] at hex
            exact absurd (by rw [hpc]; simpa using hf) hex
          · exact h0
        obtain ⟨m, s1, q1, q2, q3, q4⟩ := ih ((h.portRead .ctrl).portWait.countPoll) ((State.withFrame f h).callRead .ctrl .polled).callWait.frame (by simpa using hl) (by rw [hpc]; simp; omega) hfp
        have r2 : pollNext p ((State.withFrame f h).callRead .ctrl .polled).callWait = .running (((State.withFrame f h).callRead .ctrl .polled).callWait.countPoll.callRead .ctrl .polled) := by
          simp only [pollNext, State.callWait_fields]; rw [hc]; simp
        refine ⟨m + 1 + 1, s1, .step r1 (.step r2 q1), by rw [q2]; simp [State.withFrame], by rw [q3]; simp [State.withFrame], ?_⟩
        rcases q4 with ⟨w, a, b, c, d, e⟩ | ⟨w, a, b, c, d, e⟩
        · exact .inl ⟨w, a, b, c, d, by omega⟩
        · exact .inr ⟨w, a, b, c, d, by omega⟩

/-- What a polling step and RECV's DATA read come to (R143, R156). -/
def segmentResult (p : PollArgs) (legal : Bool) (s : State) : Result × State :=
  match pollStep p legal s with
  | (.success, s1) => (.success, if p.readsRx then { s1.portRead .data with rxdata := s1.portAnswer } else s1)
  | (r, s1) => (r, s1)

/-- From the first write of a polling step to its CTRL write (R145). -/
theorem beginPoll_run (p : PollArgs) (legal : Bool) (s : State) :
    ∃ m c, m ≤ (if p.wdata.isSome then 1 else 0) ∧ PollRun p m (beginPoll p legal s) c ∧
      c.frame.point = .wroteCtrl ∧ c.frame.legal = legal ∧ c.frame.stage = s.frame.stage ∧
      ({ c with pollCount := 0#16 } : State) = State.withFrame c.frame (pollHead p legal s) := by
  cases hw : p.wdata with
  | none =>
    refine ⟨0, _, by simp, .refl _, ?_, ?_, ?_, ?_⟩ <;> simp [beginPoll_eq, hw]
    simp [State.withFrame, pollHead, hw, State.raiseSeqErr, State.portWrite]
  | some b =>
    refine ⟨1, (beginPoll p legal s).callWrite .ctrl p.ctrl .wroteCtrl, by simp, .step ?_ (.refl _), ?_, ?_, ?_, ?_⟩ <;> simp [beginPoll_eq, hw, pollNext]
    simp [State.withFrame, pollHead, hw, State.raiseSeqErr, State.portWrite, State.callWrite, State.goto]

/-- A whole polling step, from its first port call to the step that returns its result (R143, R156, R159). -/
theorem segment_run (p : PollArgs) (legal : Bool) (s : State) (hl : s.cfg.Legal)
    (hx : p.wdata.isSome = true → p.readsRx = false) :
    ∃ m s1 v, m ≤ 2 * s.cfg.maxPolls + 1 ∧ PollRun p m (beginPoll p legal s) s1 ∧
      pollNext p s1 = .returned (segmentResult p legal s).1 v ∧
      v = State.withFrame v.frame (segmentResult p legal s).2 ∧ v.frame.stage = s.frame.stage ∧
      s1.frame.stage = s.frame.stage := by
  have hpos := hl.1
  obtain ⟨m0, c, hm0, r0, c1, c2, c3, c4⟩ := beginPoll_run p legal s
  have hhead : (pollHead p legal s).cfg = s.cfg ∧ (pollHead p legal s).pollCount = 0#16 := by
    unfold pollHead; cases p.wdata <;> simp
  obtain ⟨m1, s1, r1, l1, g1, d⟩ := pollLoop_run p s.cfg.maxPolls (pollHead p legal s) c.frame (by rw [hhead.1]; exact hl) (by rw [hhead.1, hhead.2]; simp) hpos
  have rc : pollNext p c = .running ((State.withFrame c.frame (pollHead p legal s)).callRead .ctrl .polled) := by
    simp only [pollNext, c1]; rw [c4]
  have R1 : PollRun p (m0 + (m1 + 1)) (beginPoll p legal s) s1 := r0.trans (.step rc r1)
  rw [c2] at l1; rw [c3] at g1
  rcases d with ⟨w, a, b, f, e, k⟩ | ⟨w, a, b, f, e, k⟩
  · -- flag seen
    have hw : w.cfg = s1.cfg := by rw [e]; rfl
    have r2 : pollNext p s1 = .running (s1.callRead .status .gotStatus) := by
      simp only [pollNext, b, f, if_true]
    have R2 := R1.trans (.step r2 (.refl _))
    have hps : pollStep p legal s = pollTail p legal w := by unfold pollStep; rw [a]
    generalize hg : s1.callRead .status .gotStatus = g at R2
    have gp : g.frame.point = .gotStatus := by rw [← hg]; simp
    have gl : g.frame.legal = legal := by rw [← hg]; simpa using l1
    have gs : g.frame.stage = s.frame.stage := by rw [← hg]; simpa using g1
    have gr : g.frame.ret = w.portAnswer := by rw [← hg, e]; simp; rfl
    have gc : g.cfg = w.cfg := by rw [← hg]; simp [hw]
    have gF : g = State.withFrame g.frame (w.portRead .status) := by rw [← hg, e]; rfl
    have gF' : ∀ ph, ({ g.latchStatus with phase := ph } : State) = State.withFrame g.frame { w.portRead .status with lastStatus := maskedStatus w.cfg w.portAnswer, phase := ph } := by
      intro ph; rw [State.latchStatus, gr, gc, gF]; rfl
    have mcl : (m0 + (m1 + 1) + (0 + 1)) ≤ 2 * s.cfg.maxPolls + if p.wdata.isSome then 1 else 0 := by omega
    by_cases hin : maskedStatus w.cfg w.portAnswer ∈ p.accepts
    · have hin' : maskedStatus g.cfg g.frame.ret ∈ p.accepts := by rw [gr, gc]; exact hin
      have hst : pollStep p legal s = (.success, { w.portRead .status with lastStatus := maskedStatus w.cfg w.portAnswer, phase := if legal then p.ok else .aborted }) := by
        rw [hps]; simp [pollTail, hin]
      have hsettle : g.latchStatus.settlePhase p.ok = State.withFrame g.frame { w.portRead .status with lastStatus := maskedStatus w.cfg w.portAnswer, phase := if legal then p.ok else .aborted } := by
        rw [← gF']; simp [State.settlePhase, gl]
      cases hr : p.readsRx with
      | false =>
        refine ⟨_, g, g.latchStatus.settlePhase p.ok, ?_, R2, ?_, ?_, by simpa using gs, gs⟩
        · split at mcl <;> omega
        · simp [pollNext, gp, validateStatus, hin', hr, segmentResult, hst]
        · rw [hsettle]; simp [segmentResult, hst, hr, State.withFrame]
      | true =>
        have hnw : p.wdata.isSome = false := by cases h : p.wdata.isSome with
          | false => rfl
          | true => rw [hx h] at hr; cases hr
        have r3 : pollNext p g = .running ((g.latchStatus.settlePhase p.ok).callRead .data .gotData) := by
          simp [pollNext, gp, validateStatus, hin', hr]
        refine ⟨_, _, { (g.latchStatus.settlePhase p.ok).callRead .data .gotData with rxdata := ((g.latchStatus.settlePhase p.ok).callRead .data .gotData).frame.ret }, ?_, R2.trans (.step r3 (.refl _)), ?_, ?_, by simpa using gs, by simpa using gs⟩
        · simp [hnw] at mcl; omega
        · simp [pollNext, hr, segmentResult, hst]
        · rw [hsettle]; simp only [segmentResult, hst, hr, if_true]; rfl
    · have hin' : maskedStatus g.cfg g.frame.ret ∉ p.accepts := by rw [gr, gc]; exact hin
      have hst : pollStep p legal s = (.protocol, ({ w.portRead .status with lastStatus := maskedStatus w.cfg w.portAnswer } : State).abort) := by
        rw [hps]; simp [pollTail, hin]
      refine ⟨_, g, g.latchStatus.abort, ?_, R2, ?_, ?_, by simpa using gs, gs⟩
      · split at mcl <;> omega
      · simp [pollNext, gp, validateStatus, hin', segmentResult, hst]
      · simp only [segmentResult, hst]; exact (gF' .aborted)
  · have hst : pollStep p legal s = (.timeout, w.abort) := by unfold pollStep; rw [a]
    refine ⟨_, s1, s1.countPoll.abort, ?_, R1, ?_, ?_, by simpa using g1, g1⟩
    · split at hm0 <;> omega
    · simp [pollNext, b, f, segmentResult, hst]
    · simp only [segmentResult, hst]; rw [e]; rfl

/-- A run of a polling step is a run of its command, as long as the step's arguments stay the same; they do where they
depend on the parameters, the index, the buffers and the stage alone. -/
theorem execSteps_of_pollRun (i : Instr) (args : State → PollArgs)
    (hx : ∀ s s', s.busy = true → s.frame.point ≠ .entry → s.frame.point ≠ .stopped →
      pollNext (args s) s = .running s' → exec i s = .next s')
    (ha : ∀ s s', PollKept s s' → s'.frame.stage = s.frame.stage → args s' = args s)
    (p : PollArgs) (m : Nat) (s u : State) (hb : s.busy = true) (hp : args s = p)
    (h : PollRun p m s u) :
    execSteps i m s = .next u ∧ u.busy = true ∧ args u = p ∧ PollKept s u := by
  induction h with
  | refl s => exact ⟨rfl, hb, hp, ⟨⟨rfl, rfl, rfl, rfl, rfl, rfl, rfl, rfl, rfl⟩, rfl, rfl⟩⟩
  | @step n s t u h1 h2 ih =>
    obtain ⟨k, -, -, bt, -, st, -⟩ := pollNext_kept p s t (.inl h1)
    have hpt := pollNext_point p s (by rw [h1]; simp)
    obtain ⟨q1, q2, q3, q4⟩ := ih (bt.trans hb) ((ha s t k st).trans hp)
    refine ⟨?_, q2, q3, ⟨k.toKept.trans q4.toKept, q4.idx.trans k.idx, q4.mem.trans k.mem⟩⟩
    rw [Nat.add_comm, execSteps_add i 1 n s t (by
      rw [execSteps_one]; exact hx s t hb hpt.1 hpt.2 (hp ▸ h1))]
    exact q1

end Sys2Proof.Machine
end

