-- ==== Sys2Proof/Laws/Step.lean ====
section
/-! SUPPORT. What one step of the whole machine can come to, said once (spec/20_memory.md R61 to R65, R72). -/

namespace Sys2Proof.Machine

/-- Every step that is not a reset is one of six: the latched command's next step, an idle wait, a command's accept
step, a host access that leaves the block alone (a read, an ignored write, a write dropped while busy), an illegal
word, a TXBUF write. A word is issued by the CMD write at the window's base. -/
theorem step_cases (s t : State) (h : step s = .next t) (hr : ∀ rest, s.turns ≠ .reset :: rest) :
    (∃ rest i, (s.turns = [] ∧ rest = [] ∨ s.turns = .sequencer :: rest) ∧ s.busy = true ∧
      decodeCommand s.cur = .ok i ∧ exec i { s with turns := rest } = .next t) ∨
    (∃ rest, (s.turns = [] ∧ rest = [] ∨ s.turns = .sequencer :: rest) ∧ s.busy = false ∧
      t = { s with turns := rest }) ∨
    (∃ rest i w, s.turns = .host (cmdWrite s.cfg w) :: rest ∧ s.busy = false ∧
      decodeCommand w = .ok i ∧ exec i { s with turns := rest } = .next t) ∨
    (∃ rest, t = { s with turns := rest, hostReads := t.hostReads, overrun := t.overrun } ∧
      (s.overrun = true → t.overrun = true)) ∨
    (∃ rest w, s.turns = .host (cmdWrite s.cfg w) :: rest ∧ s.busy = false ∧
      (∃ e, decodeCommand w = .error e) ∧ t = { s with turns := rest, result := .illegal }) ∨
    (∃ rest i v w, s.busy = false ∧
      s.turns = .host (.write (s.cfg.hostBase + txOffset i) 1 w) :: rest ∧
      t = { s with turns := rest, mem := s.mem.write (txOffset i) v }) := by
  have seq : ∀ rest, (s.turns = [] ∧ rest = [] ∨ s.turns = .sequencer :: rest) →
      sequencerStep { s with turns := rest } = .next t →
      (∃ rest i, (s.turns = [] ∧ rest = [] ∨ s.turns = .sequencer :: rest) ∧ s.busy = true ∧
        decodeCommand s.cur = .ok i ∧ exec i { s with turns := rest } = .next t) ∨
      (∃ rest, (s.turns = [] ∧ rest = [] ∨ s.turns = .sequencer :: rest) ∧ s.busy = false ∧
        t = { s with turns := rest }) := by
    intro rest hc h
    unfold sequencerStep at h
    by_cases hb : s.busy = true
    · rw [if_pos (by simpa using hb)] at h
      cases hd : decodeCommand s.cur with
      | error e => simp only [hd] at h; cases h
      | ok i => simp only [hd] at h; exact .inl ⟨rest, i, hc, hb, rfl, h⟩
    · rw [if_neg (by simp [hb])] at h
      exact .inr ⟨rest, hc, by simpa using hb, (Host.Outcome.next.inj h).symm⟩
  unfold step at h
  split at h
  · rename_i ht
    exact (seq [] (.inl ⟨ht, rfl⟩) (by rw [← ht]; exact h)).elim .inl fun h => .inr (.inl h)
  · rename_i tt rest ht
    cases tt with
    | reset => exact absurd ht (hr rest)
    | sequencer => exact (seq rest (.inr ht) h).elim .inl fun h => .inr (.inl h)
    | host a =>
      simp only [turnStep] at h
      right; right
      cases a with
      | read addr n =>
        simp only [hostStep] at h
        split at h
        · obtain rfl := Host.Outcome.next.inj h
          right; left; exact ⟨rest, by simp [State.recordRead], by simp⟩
        · cases h
      | write addr n v =>
        simp only [hostStep] at h
        split at h
        · rename_i p hp
          cases p <;> simp only [hostWrite] at h
          case cmd =>
            unfold issueCommand at h
            split at h
            · obtain rfl := Host.Outcome.next.inj h
              right; left; exact ⟨rest, by simp [State.raiseOverrun], by simp⟩
            · rename_i hb
              obtain ⟨rfl, rfl⟩ := (hostPlace_eq_cmd s.cfg addr n).mp hp
              split at h
              · rename_i i hd
                exact .inl ⟨rest, i, v, ht, by simpa using hb, hd, h⟩
              · rename_i e he
                obtain rfl := Host.Outcome.next.inj h
                right; right; left; exact ⟨rest, v, ht, by simpa using hb, ⟨e, he⟩, rfl⟩
          case tx i =>
            unfold State.hostWriteTx at h
            split at h
            · obtain rfl := Host.Outcome.next.inj h
              right; left; exact ⟨rest, by simp [State.raiseOverrun], by simp⟩
            · rename_i hb
              obtain rfl := Host.Outcome.next.inj h
              have hh : n = 1 ∧ addr = s.cfg.hostBase + txOffset i := by
                unfold hostPlace at hp
                split at hp
                · rename_i hle
                  obtain ⟨h1, h2, -⟩ := windowPlace_eq_tx _ _ _ _ hp
                  have hle : s.cfg.hostBase ≤ addr := hle
                  have h2 : addr - s.cfg.hostBase = txOffset i := h2
                  exact ⟨h1, by omega⟩
                · simp at hp
              obtain ⟨rfl, rfl⟩ := hh
              right; right; right
              exact ⟨rest, i, _, v, by simpa using hb, ht, rfl⟩
          all_goals
            obtain rfl := Host.Outcome.next.inj h
            right; left; exact ⟨rest, by simp, by simp⟩
        · cases h

end Sys2Proof.Machine
end

