-- ==== Sys2Proof/Tests/Slice0.lean ====
section
/-! SUPPORT. The model's own tests: ill-formed terms, words written out from the spec's encodings (30_encoding.md
R92 to R109, 95_test_vectors.md V-E1, V-E2), single steps with the expected values of 95_test_vectors.md, and a
concrete case that meets the hypotheses of every statement. -/

namespace Sys2Proof.Tests

open Sys2Proof.Machine

/-! ## Helpers -/

/-- Start state C of 95_test_vectors.md: reset, then one successful `CONFIG ps=1, speed=std`. -/
def stC : State :=
  { State.reset with
    init := true, result := .success, cur := 0x00001001#32
    trace := [.write .prescale 0x00#8, .write .bitrate 0x48#8] }

/-- A procedure position. -/
def pos (g : Stage) (p : Point) (ret : Byte) : Frame :=
  { Frame.start with point := p, stage := g, legal := true, ret := ret }

/-- State C with a command running. -/
def running (i : Instr) (p : Phase) (f : Frame) : State :=
  { stC with busy := true, cur := encode i, phase := p, frame := f, trace := [] }

/-- State C with one turn pending. -/
def turn (t : Turn) (s : State) : State := { s with turns := [t] }

/-- A field of the state after one step of a command. -/
def after {α : Type} (i : Instr) (s : State) (f : State → α) : Option α :=
  match exec i s with
  | .next t => some (f t)
  | .fault _ => none
  | .refused _ => none

/-- A field of the state after one step of the machine. -/
def afterStep {α : Type} (s : State) (f : State → α) : Option α :=
  match step s with
  | .next t => some (f t)
  | .fault _ => none
  | .refused _ => none

/-! ## Well-formedness -/

-- R103: RECVB with LEN = 0.
theorem test_recvb_len0_ill_formed : (Instr.recvb 0x50#7 0#8).wellFormed = false := by decide

theorem test_recvb_len0_not_decoded : decodeCommand 0x0000500A#32 = .error .zeroLength := by decide

theorem test_recvb_len0_not_assembled : assemble (.recvb 0x50 0) = none := by decide

theorem test_ill_formed_accept_is_illegal :
    after (.recvb 0x50#7 0#8) stC (fun t => (t.busy, t.result)) = some (false, .illegal) := by decide

/-! ## Words written out from the spec's encodings -/

-- V-E1, V-E2; the bits are those of R93 to R99, highest first.
theorem test_word_config : decodeCommand 0b0000000000000000_0_001_00_01_0000_0001#32 = .ok (.config 1#2 .standard) := by
  decide

theorem test_word_config_speed5 : decodeCommand 0b0000000000000000_0_101_00_00_0000_0001#32 = .error .reservedSpeedClass := by
  decide

theorem test_word_role : decodeCommand 0b00000000_01000010_00000_1_10_0000_0010#32 = .ok (.role .slaveTransmit true 0x42#8) := by
  decide

theorem test_word_start : decodeCommand 0b0000000000000000000000000000_0011#32 = .ok .start := by decide

theorem test_word_start_bit20 : decodeCommand 0x00100003#32 = .error .reservedBit := by decide

theorem test_word_addr : decodeCommand 0b0000000000000000_10100001_0000_0100#32 = .ok (.addr 0xA1#8) := by decide

theorem test_word_data : decodeCommand 0b0000000000000000_00010010_0000_0101#32 = .ok (.data 0x12#8) := by decide

theorem test_word_stop : decodeCommand 0b0000000000000000000000000000_0110#32 = .ok .stop := by decide

theorem test_word_recv : decodeCommand 0b000000000000000_1_00000000_0000_0111#32 = .ok (.recv true) := by decide

theorem test_word_sendb : decodeCommand 0b00000000_00000010_0_1010000_0000_1000#32 = .ok (.sendb 0x50#7 2#8) := by
  decide

theorem test_word_send1 : decodeCommand 0b00000000_10101011_0_0101010_0000_1001#32 = .ok (.send1 0x2A#7 0xAB#8) := by
  decide

theorem test_word_recvb : decodeCommand 0b00000000_00000011_0_1010000_0000_1010#32 = .ok (.recvb 0x50#7 3#8) := by
  decide

theorem test_word_opcode0 : decodeCommand 0#32 = .error .illegalOpcode := by decide

theorem test_table_word : decodeTableWord 32 0x007F5009 = some (.send1 0x50#7 0x7F#8) := by decide

/-! ## One step, per command (95_test_vectors.md) -/

-- V-C1: BITRATE receives 48 for ps=4, std.
theorem test_config_writes_bitrate :
    after (.config 1#2 .standard) (running (.config 1#2 .standard) .idle (pos .start .wrotePrescale 0#8))
      (fun t => t.trace) = some [.write .bitrate 0x30#8] := by decide

-- W8: divisor 792 is rejected at accept.
theorem test_config_low_rejected :
    after (.config 0#2 .low) State.reset (fun t => (t.busy, t.result, t.init, t.trace)) =
      some (false, .config, false, []) := by decide

-- V-C4: OWN bit 7 is lost.
theorem test_role_writes_ownaddr :
    after (.role .slaveReceive false 0xFF#8) (running (.role .slaveReceive false 0xFF#8) .idle Frame.start)
      (fun t => (t.role, t.ownAddr, t.trace)) =
      some (.slaveReceive, 0xFF#8, [.write .ownaddr 0xFE#8]) := by decide

-- V-C4: ROLE in START_OK.
theorem test_role_outside_idle :
    after (.role .masterTransmit false 0#8) (running (.role .masterTransmit false 0#8) .startOk Frame.start)
      (fun t => (t.seqErr, t.phase, t.result, t.trace)) = some (true, .startOk, .success, []) := by decide

-- V-P1: 0x17 masks to REP_START.
theorem test_start_masks_status :
    after .start (running .start .startPending (pos .start .gotStatus 0x17#8))
      (fun t => (t.result, t.phase, t.lastStatus)) = some (.success, .startOk, 0x10#8) := by decide

-- V-P1: ARB_LOST.
theorem test_start_arbitration_lost :
    after .start (running .start .startPending (pos .start .gotStatus 0x38#8))
      (fun t => (t.result, t.phase, t.lastStatus)) = some (.protocol, .aborted, 0x38#8) := by decide

-- V-P2: the write ACK to a read address.
theorem test_addr_wrong_direction :
    after (.addr 0xA1#8) (running (.addr 0xA1#8) .addrPending (pos .start .gotStatus 0x18#8))
      (fun t => (t.result, t.phase)) = some (.protocol, .aborted) := by decide

-- V-P2: no start.
theorem test_addr_out_of_order :
    after (.addr 0xA1#8) (running (.addr 0xA1#8) .idle Frame.start)
      (fun t => (t.seqErr, t.dir, t.phase, t.trace)) =
      some (true, true, .addrPending, [.write .data 0xA1#8]) := by decide

-- V-P3: DATA accepts DATA_RX_ACK.
theorem test_data_accepts_rx_ack :
    after (.data 0x12#8) (running (.data 0x12#8) .dataPending (pos .start .gotStatus 0x50#8))
      (fun t => (t.result, t.phase)) = some (.success, .dataOk) := by decide

-- V-P3: DATA_TX_NACK.
theorem test_data_nack :
    after (.data 0x12#8) (running (.data 0x12#8) .dataPending (pos .start .gotStatus 0x30#8))
      (fun t => (t.result, t.phase)) = some (.protocol, .aborted) := by decide

-- V-P5: STOP from ABORTED.
theorem test_stop_writes_ctrl :
    after .stop (running .stop .aborted Frame.start) (fun t => (t.trace, t.phase, t.seqErr)) =
      some ([.write .ctrl 0x94#8], .stopIssued, false) := by decide

theorem test_stop_finishes_idle :
    after .stop (running .stop .stopIssued { pos .start .stopped 0#8 with res := .success })
      (fun t => (t.busy, t.result, t.phase)) = some (false, .success, .idle) := by decide

-- V-P4: RECV ack with the NACK status leaves rxdata.
theorem test_recv_other_code :
    after (.recv true)
      { running (.recv true) .dataPending (pos .start .gotStatus 0x58#8) with rxdata := 0x33#8 }
      (fun t => (t.result, t.phase, t.rxdata, t.trace)) = some (.protocol, .aborted, 0x33#8, []) := by decide

theorem test_recv_keeps_byte :
    after (.recv false) (running (.recv false) .dataOk (pos .start .gotData 0x5A#8))
      (fun t => (t.result, t.phase, t.rxdata)) = some (.success, .dataOk, 0x5A#8) := by decide

-- W4: an address NACK is followed by the stop alone.
theorem test_sendb_address_nack :
    after (.sendb 0x50#7 2#8) (running (.sendb 0x50#7 2#8) .addrPending (pos .address .gotStatus 0x20#8))
      (fun t => (t.trace, t.frame.res, t.idx)) = some ([.write .ctrl 0x94#8], .protocol, 0#9) := by decide

-- V-SB1: TXBUF[1] after the first byte.
theorem test_sendb_second_byte :
    after (.sendb 0x50#7 2#8)
      { running (.sendb 0x50#7 2#8) .dataPending (pos .transfer .gotStatus 0x28#8) with
        mem := [(0x100, 0x12#8), (0x101, 0x34#8)] }
      (fun t => (t.trace, t.idx)) = some ([.write .data 0x34#8], 1#9) := by decide

-- W6: SEND1's byte is the command word's.
theorem test_send1_byte :
    after (.send1 0x50#7 0x7F#8)
      (running (.send1 0x50#7 0x7F#8) .addrPending (pos .address .gotStatus 0x18#8))
      (fun t => (t.trace, t.idx)) = some ([.write .data 0x7F#8], 0#9) := by decide

-- P5: the SLA byte of 0x2A.
theorem test_send1_sla :
    after (.send1 0x2A#7 0xAB#8)
      (running (.send1 0x2A#7 0xAB#8) .startPending (pos .start .gotStatus 0x08#8))
      (fun t => (t.trace, t.dir)) = some ([.write .data 0x54#8], false) := by decide

-- V-RB1: the last of two bytes is asked for with NACK, the first is stored.
theorem test_recvb_stores_and_nacks :
    after (.recvb 0x50#7 2#8) (running (.recvb 0x50#7 2#8) .dataOk (pos .transfer .gotData 0x11#8))
      (fun t => (t.trace, t.mem, t.rxdata, t.idx)) =
      some ([.write .ctrl 0x84#8], [(0x200, 0x11#8)], 0x11#8, 1#9) := by decide

-- V-RB5: the first of three is asked for with ACK.
theorem test_recvb_acks :
    after (.recvb 0x50#7 3#8) (running (.recvb 0x50#7 3#8) .addrPending (pos .address .gotStatus 0x40#8))
      (fun t => t.trace) = some [.write .ctrl 0xC4#8] := by decide

-- R144 with W2: the last wait of MAX_POLLS = 3 ends in TIMEOUT with no further read.
theorem test_timeout_after_the_last_wait :
    after .start
      { running .start .startPending (pos .start .waited 0#8) with
        cfg := { Params.reference with maxPolls := 3 }, pollCount := 2#16 }
      (fun t => (t.result, t.phase, t.pollCount, t.trace)) = some (.timeout, .aborted, 3#16, []) := by decide

/-! ## One step of the machine -/

-- V-H2: STAT while SENDB runs, and a dropped CMD write.
theorem test_stat_while_busy :
    afterStep (turn (.host (scriptRd32 Params.reference 0x004))
      (running (.sendb 0x50#7 2#8) .startPending (pos .start .wroteCtrl 0#8)))
      (fun t => t.hostReads) = some [0x13#32] := by decide

theorem test_cmd_while_busy :
    afterStep (turn (.host (cmdWrite Params.reference 0x00000003#32))
      (running (.sendb 0x50#7 2#8) .startPending (pos .start .wroteCtrl 0#8)))
      (fun t => (t.overrun, t.cur)) = some (true, 0x00025008#32) := by decide

-- V-H4: a TXBUF write at 0x105.
theorem test_txbuf_write :
    afterStep (turn (.host (scriptWr8 Params.reference 0x105 0xA5#8)) stC) (fun t => t.txByte 5#8) =
      some 0xA5#8 := by decide

-- R65: a byte access to STAT has no meaning.
theorem test_narrow_access_refused :
    (match step (turn (.host (scriptRd8 Params.reference 0x004)) stC) with
      | .refused .undefinedHostAccess => true
      | _ => false) = true := by decide

-- W7: STOP from reset.
theorem test_fetch_word_runs :
    afterStep (State.reset.withFetchWord 32 0x00000006) (fun t => (t.result, t.busy, t.trace)) =
      some (.uninit, false, []) := by decide

/-! ## Concrete cases that meet the hypotheses of the statements

Each names its statement; a statement with several clauses has a case for each. -/

/-- A transaction command at a position, of a composed command or not. -/
def sendb2 (g : Stage) (p : Point) (ret : Byte) : State :=
  running (.sendb 0x50#7 2#8) .dataPending (pos g p ret)

theorem witness_DecodeOfEncode :
    (Instr.recvb 0x7F#7 1#8).wellFormed = true ∧ (Instr.config 3#2 .highSpeed).wellFormed = true := by decide

theorem witness_EncodeOfDecode :
    decodeCommand 0x00FF7F0A#32 = .ok (.recvb 0x7F#7 0xFF#8) ∧
    decodeCommand 0x00004301#32 = .ok (.config 3#2 .highSpeed) := by decide

/-- One word for each line of R103. -/
theorem witness_IllegalWordsAreExactlyThoseListed :
    illegalWord 0x00000000#32 ∧ illegalWord 0x0000000B#32 ∧ illegalWord 0x00000013#32 ∧
    illegalWord 0x00008008#32 ∧ illegalWord 0x00005001#32 ∧ illegalWord 0x0000500A#32 ∧
    stC.busy = false ∧ (turn (.host (cmdWrite Params.reference 0#32)) stC).turns =
      .host (cmdWrite stC.cfg 0#32) :: [] := by
  refine ⟨.inl (by decide), .inr (.inl (by decide)),
    .inr (.inr (.inl ⟨(31, 4), by decide, 4, by decide, by decide, by decide⟩)),
    .inr (.inr (.inl ⟨(15, 15), by decide, 15, by decide, by decide, by decide⟩)),
    .inr (.inr (.inr (.inl (by decide)))), .inr (.inr (.inr (.inr (by decide)))), rfl, rfl⟩

theorem witness_AssembledLinesDecode :
    assemble (.recvb 127 255) = some 0x00FF7F0A#32 ∧ assemble (.slar 127) = some 0x0000FF04#32 ∧
    assemble (.slar 128) = none ∧ assemble (.config 64 .low) = some 0x00000301#32 := by decide

theorem witness_StepRunsDecodedCommand :
    (stC.busy = false ∧ decodeCommand 0x00000003#32 = .ok .start ∧
      (turn (.host (cmdWrite stC.cfg 0x00000003#32)) stC).turns =
        .host (cmdWrite stC.cfg 0x00000003#32) :: []) ∧
    ((running .start .idle Frame.start).busy = true ∧
      decodeCommand (running .start .idle Frame.start).cur = .ok .start ∧
      (turn .sequencer (running .start .idle Frame.start)).turns = .sequencer :: [] ∧
      (running .start .idle Frame.start).turns = []) ∧
    Instr.start.wellFormed = true := by decide

/-- An illegal word; a command before and after CONFIG; CONFIG out of range and in range, at 0 and at 72. -/
theorem witness_AcceptChecksInOrder :
    stC.busy = false ∧ State.reset.busy = false ∧ decodeCommand 0x00000000#32 = .error .illegalOpcode ∧
    decodeCommand 0x00000003#32 = .ok .start ∧ State.reset.init = false ∧ stC.init = true ∧
    decodeCommand 0x00003101#32 = .ok (.config 1#2 .fastPlus) ∧
    divisor stC.cfg 1#2 .fastPlus < 0 ∧
    decodeCommand 0x00003001#32 = .ok (.config 0#2 .fastPlus) ∧
    divisor stC.cfg 0#2 .fastPlus = 0 ∧ divisor stC.cfg 0#2 .low > stC.cfg.bitrateMax := by decide

/-- At TXBUF[255], and the reads while busy and while idle. -/
theorem witness_BusyBlockDropsHostWrites :
    (sendb2 .transfer .polled 0#8).busy = true ∧ 255 ≤ 255 ∧
    255 < (sendb2 .transfer .polled 0#8).cfg.bufSize ∧
    (turn (.host (.write 0x1FF 1 0#32)) (sendb2 .transfer .polled 0#8)).turns =
      .host (.write ((sendb2 .transfer .polled 0#8).cfg.hostBase + 0x100 + 255) 1 0#32) :: [] ∧
    (turn (.host (.write 0 4 3#32)) (sendb2 .transfer .polled 0#8)).turns =
      .host (.write (sendb2 .transfer .polled 0#8).cfg.hostBase 4 3#32) :: [] ∧
    (turn (.host (.read 0x2FF 1)) (sendb2 .transfer .polled 0#8)).turns =
      .host (.read ((sendb2 .transfer .polled 0#8).cfg.hostBase + 0x200 + 255) 1) :: [] ∧
    (turn (.host (.read 0x2FF 1)) stC).turns = .host (.read (stC.cfg.hostBase + 0x200 + 255) 1) :: [] ∧
    (turn (.host (.read 0x100 1)) stC).turns = .host (.read (stC.cfg.hostBase + 0x100 + 0) 1) :: [] ∧
    (turn (.host (.read 0x004 4)) stC).turns = .host (.read (stC.cfg.hostBase + 0x004) 4) :: [] ∧
    (turn (.host (.read 0x008 4)) stC).turns = .host (.read (stC.cfg.hostBase + 0x008) 4) :: [] ∧
    stC.busy = false := by decide

theorem witness_StatHoldsBusyResultInit :
    (turn (.host (.read 0x004 4)) stC).turns = .host (.read (stC.cfg.hostBase + 0x004) 4) :: [] ∧
    (turn (.host (.write 0x004 4 7#32)) stC).turns = .host (.write (stC.cfg.hostBase + 0x004) 4 7#32) :: [] := by
  decide

/-- A write at each edge of the ignored places, and a read at each edge of the reserved ones. -/
theorem witness_ReadOnlyAndReservedPlaces :
    (4 = 4 ∧ 0x004 % 4 = 0 ∧ 0x004 ≤ 0x004 ∧ 0x004 < 0x100) ∧
    (4 = 4 ∧ 0x0FC % 4 = 0 ∧ 0x004 ≤ 0x0FC ∧ 0x0FC < 0x100 ∧ 0x00C ≤ 0x0FC) ∧
    (1 = 1 ∧ 0x200 ≤ 0x200 ∧ 0x3FF < 0x400 ∧ 0x300 ≤ 0x3FF) ∧
    (turn (.host (.write 0x3FF 1 5#32)) stC).turns = .host (.write (stC.cfg.hostBase + 0x3FF) 1 5#32) :: [] ∧
    (turn (.host (.read 0x0FC 4)) stC).turns = .host (.read (stC.cfg.hostBase + 0x0FC) 4) :: [] := by decide

/-- Accesses on both sides of the rule: the last word and byte, a byte below 0x100, past the window. -/
theorem witness_UndefinedHostAccessesAreRefused :
    (turn (.host (.read 0x0FC 4)) stC).turns = .host (.read 0x0FC 4) :: [] ∧
    afterStep (turn (.host (.read 0x0FC 4)) stC) (fun t => t.turns) = some [] ∧
    afterStep (turn (.host (.read 0x3FF 1)) stC) (fun t => t.turns) = some [] ∧
    afterStep (turn (.host (.read 0x0FF 1)) stC) (fun t => t.turns) = none ∧
    afterStep (turn (.host (.read 0x400 1)) stC) (fun t => t.turns) = none := by decide

theorem witness_TxbufWritesAreReadBack :
    stC.mem.wf = true ∧ 255 ≤ 255 ∧ 255 < stC.cfg.bufSize ∧ stC.busy = false ∧
    (turn (.host (.write 0x1FF 1 0xA5#32)) stC).turns =
      .host (.write (stC.cfg.hostBase + 0x100 + 255) 1 ((0xA5#8 : Byte).setWidth 32)) :: [] ∧
    (({ stC with turns := [.host (.write 0x1FF 1 0xA5#32), .host (.read 0x1FF 1)] } : State).turns =
      .host (.write (stC.cfg.hostBase + 0x100 + 255) 1 ((0xA5#8 : Byte).setWidth 32)) ::
        .host (.read (stC.cfg.hostBase + 0x100 + 255) 1) :: []) := by decide

theorem witness_ResetTurnRestoresResetValues :
    (turn .reset (sendb2 .transfer .polled 0#8)).turns = .reset :: [] := by decide

theorem witness_IdleBlockWaits :
    stC.busy = false ∧ stC.turns = [] ∧ (turn .sequencer stC).turns = .sequencer :: [] := by decide

/-- At both ends of the range of the divisor: 0, and 255 with a core clock of 526 x 100 kHz. -/
theorem witness_ConfigProgramsTheBus :
    stC.cfg.Legal ∧ stC.busy = false ∧ 0 ≤ divisor stC.cfg 0#2 .fastPlus ∧
    divisor stC.cfg 0#2 .fastPlus ≤ stC.cfg.bitrateMax ∧
    ({ stC.cfg with fCoreHz := 52600000 } : Params).Legal ∧
    divisor { stC.cfg with fCoreHz := 52600000 } 0#2 .standard = 255 := by decide

theorem witness_RejectedConfigChangesOnlyResult :
    stC.busy = false ∧ ¬ (0 ≤ divisor stC.cfg 1#2 .fast ∧ divisor stC.cfg 1#2 .fast ≤ stC.cfg.bitrateMax) ∧
    ¬ (0 ≤ divisor stC.cfg 3#2 .low ∧ divisor stC.cfg 3#2 .low ≤ stC.cfg.bitrateMax) := by decide

theorem witness_SlaveRoleWritesTwoRegisters :
    stC.busy = false ∧ stC.init = true ∧
    (Role.slaveReceive = .slaveTransmit ∨ Role.slaveReceive = .slaveReceive) := by decide

theorem witness_MasterRoleOnlyRecordsTheRole :
    stC.busy = false ∧ stC.init = true ∧
    (Role.masterReceive = .masterTransmit ∨ Role.masterReceive = .masterReceive) := by decide

theorem witness_StopAlwaysSucceeds :
    ({ stC with phase := .aborted } : State).busy = false ∧
    ({ stC with phase := .aborted } : State).init = true := by decide

theorem witness_PrimitivesBeginWithTheirWrites :
    isPollingPrimitive (.addr 0xA1#8) = true ∧
    (running (.addr 0xA1#8) .startOk Frame.start).busy = true ∧
    (running (.addr 0xA1#8) .startOk Frame.start).frame.point = .entry := by decide

/-- State C after START's CTRL write, with MAX_POLLS = 3 and a script of answers. -/
def polling (answers : List Byte) : State :=
  { running .start .startPending (pos .start .wroteCtrl 0#8) with
    cfg := { Params.reference with maxPolls := 3 }, answers := answers }

/-- W3: the flag at the last allowed poll, for a primitive and inside SENDB. -/
theorem witness_PollLoopEndsAtTheFlag :
    (isPollingPrimitive .start = true ∨ isComposed .start = true) ∧
    (isPollingPrimitive (.sendb 0x50#7 2#8) = true ∨ isComposed (.sendb 0x50#7 2#8) = true) ∧
    (polling [0#8, 0#8, 0x80#8]).cfg.Legal ∧ (polling [0#8, 0#8, 0x80#8]).busy = true ∧
    (polling [0#8, 0#8, 0x80#8]).frame.point = .wroteCtrl ∧
    (polling [0#8, 0#8, 0x80#8]).answers = [0#8, 0#8] ++ 0x80#8 :: [] ∧ [0#8, 0#8].length < 3 ∧
    (∀ v ∈ [0#8, 0#8], v.getLsbD 7 = false) ∧ (0x80#8).getLsbD 7 = true := by decide

/-- W2. -/
theorem witness_PrimitiveTimesOutAfterMaxPolls :
    isPollingPrimitive .start = true ∧ (polling [0#8, 0#8, 0#8]).cfg.Legal ∧
    (polling [0#8, 0#8, 0#8]).busy = true ∧ (polling [0#8, 0#8, 0#8]).frame.point = .wroteCtrl ∧
    (polling [0#8, 0#8, 0#8]).answers = [0#8, 0#8, 0#8] ++ [] ∧
    [0#8, 0#8, 0#8].length = (polling []).cfg.maxPolls ∧ (∀ v ∈ [0#8, 0#8, 0#8], v.getLsbD 7 = false) := by
  decide

/-- Both outcomes: REP_START with low bits set, and ARB_LOST. -/
theorem witness_PrimitivesValidateTheStatus :
    isPollingPrimitive .start = true ∧ (∀ ack, Instr.start ≠ .recv ack) ∧
    (running .start .startPending (pos .start .gotStatus 0x17#8)).busy = true ∧
    (running .start .startPending (pos .start .gotStatus 0x17#8)).frame.point = .gotStatus ∧
    0x17#8 &&& stC.cfg.statusMask ∈ primitiveAccepts stC.cfg.statusCodes .start ∧
    0x38#8 &&& stC.cfg.statusMask ∉ primitiveAccepts stC.cfg.statusCodes .start := by decide

theorem witness_RecvReadsDataOnlyOnSuccess :
    (running (.recv true) .dataPending (pos .start .gotStatus 0x50#8)).busy = true ∧
    (running (.recv true) .dataPending (pos .start .gotStatus 0x50#8)).frame.point = .gotStatus ∧
    0x50#8 &&& stC.cfg.statusMask = stC.cfg.statusCodes.dataRxAck ∧
    0x50#8 &&& stC.cfg.statusMask ≠ stC.cfg.statusCodes.dataRxNack ∧
    (running (.recv true) .dataOk (pos .start .gotData 0x11#8)).frame.point = .gotData := by decide

/-- V-P3 and V-P4: DATA with the flag at 3, and RECV; a status accepted and one not. -/
theorem witness_PrimitiveTraceShape :
    isPollingPrimitive (.recv true) = true ∧ stC.cfg.Legal ∧ stC.busy = false ∧ stC.init = true ∧
    [0#8, 0#8].length < stC.cfg.maxPolls ∧ (∀ v ∈ [0#8, 0#8], v.getLsbD stC.cfg.flagBit.val = false) ∧
    (0x80#8).getLsbD stC.cfg.flagBit.val = true ∧
    ({ stC with answers := [0#8, 0#8, 0x80#8, 0x50#8, 0x11#8] } : State).answers =
      [0#8, 0#8] ++ 0x80#8 :: 0x50#8 :: 0x11#8 :: [] ∧
    0x50#8 &&& stC.cfg.statusMask ∈ primitiveAccepts stC.cfg.statusCodes (.recv true) ∧
    0x50#8 &&& stC.cfg.statusMask ∉ primitiveAccepts stC.cfg.statusCodes (.recv false) := by decide

theorem witness_CommandRefinesItsProcedure :
    stC.cfg.Legal ∧ stC.busy = false ∧ (accept (.sendb 0x50#7 2#8) stC).busy = true := by decide

theorem witness_MachineRunsCommandsToTheirEnd :
    stC.cfg.Legal ∧ stC.busy = false ∧ stC.turns = [] ∧ stC.frame = Frame.start ∧
    (accept (.recvb 0x50#7 255#8) stC).busy = true := by decide

theorem witness_SendOneEqualsSendOneByteSequence :
    stC.busy = false ∧ ({ stC with mem := [(0x100, 0x7F#8)] } : State).txByte 0#8 = 0x7F#8 := by decide

theorem witness_ComposedCommandsBeginWithStart :
    isComposed (.send1 0x50#7 0x7F#8) = true ∧
    (running (.send1 0x50#7 0x7F#8) .aborted Frame.start).busy = true ∧
    (running (.send1 0x50#7 0x7F#8) .aborted Frame.start).frame.point = .entry := by decide

/-- SENDB at a stage's last wait, with MAX_POLLS = 1. -/
def lastWait (g : Stage) : State :=
  { sendb2 g .waited 0#8 with cfg := { Params.reference with maxPolls := 1 } }

theorem witness_NoStopAfterFailedStart :
    isComposed (.sendb 0x50#7 2#8) = true ∧ (lastWait .start).busy = true ∧
    (lastWait .start).frame.stage = .start ∧ (lastWait .start).frame.point = .waited ∧
    (lastWait .start).pollCount.toNat + 1 = (lastWait .start).cfg.maxPolls ∧
    (lastWait .start).pollCount.toNat < 65535 ∧
    (sendb2 .start .gotStatus 0x38#8).frame.point = .gotStatus ∧
    0x38#8 &&& stC.cfg.statusMask ≠ stC.cfg.statusCodes.start ∧
    0x38#8 &&& stC.cfg.statusMask ≠ stC.cfg.statusCodes.repStart := by decide

theorem witness_LaterFailureStopsTheBus :
    isComposed (.sendb 0x50#7 2#8) = true ∧ (lastWait .address).busy = true ∧
    (lastWait .address).frame.stage ≠ .start ∧ (lastWait .address).frame.point = .waited ∧
    (lastWait .address).pollCount.toNat + 1 = (lastWait .address).cfg.maxPolls ∧
    (lastWait .address).pollCount.toNat < 65535 ∧
    (sendb2 .transfer .gotStatus 0x30#8).frame.point = .gotStatus ∧
    (0x30#8 : Byte) &&& stC.cfg.statusMask ∉
      composedAccepts (sendb2 .transfer .gotStatus 0x30#8) (.sendb 0x50#7 2#8) := by decide

theorem witness_SuccessfulStartIsFollowedByTheAddress :
    (sendb2 .start .gotStatus 0x08#8).busy = true ∧ (sendb2 .start .gotStatus 0x08#8).frame.stage = .start ∧
    (sendb2 .start .gotStatus 0x08#8).frame.point = .gotStatus ∧
    (sendb2 .start .gotStatus 0x08#8).frame.ret &&& stC.cfg.statusMask ∈
      composedAccepts (sendb2 .start .gotStatus 0x08#8) (.sendb 0x50#7 2#8) ∧
    (0x08#8 : Byte) &&& stC.cfg.statusMask ∈
      composedAccepts (sendb2 .start .gotStatus 0x08#8) (.recvb 0x50#7 2#8) := by decide

/-- After the address, after a byte with one more to go, and after the last. -/
theorem witness_SendTransfersBytesInOrder :
    (sendb2 .address .gotStatus 0x18#8).busy = true ∧
    (sendb2 .address .gotStatus 0x18#8).frame.point = .gotStatus ∧
    (sendb2 .address .gotStatus 0x18#8).frame.stage = .address ∧
    (0x18#8 : Byte) &&& stC.cfg.statusMask ∈
      composedAccepts (sendb2 .address .gotStatus 0x18#8) (.sendb 0x50#7 2#8) ∧
    (sendb2 .transfer .gotStatus 0x28#8).frame.stage = .transfer ∧
    (0x28#8 : Byte) &&& stC.cfg.statusMask ∈
      composedAccepts (sendb2 .transfer .gotStatus 0x28#8) (.sendb 0x50#7 2#8) ∧
    ((0#9 : BitVec 9) + 1#9).toNat < (2#8).toNat ∧ (2#8).toNat ≤ ((1#9 : BitVec 9) + 1#9).toNat ∧
    (0#8).toNat ≤ (0#9).toNat := by decide

theorem witness_RecvbAsksForAndReadsEachByte :
    (running (.recvb 0x50#7 1#8) .addrPending (pos .address .gotStatus 0x40#8)).busy = true ∧
    (1#8 : Byte) ≠ 0#8 ∧
    (0x40#8 : Byte) &&& stC.cfg.statusMask ∈ composedAccepts
      (running (.recvb 0x50#7 1#8) .addrPending (pos .address .gotStatus 0x40#8)) (.recvb 0x50#7 1#8) ∧
    (0x58#8 : Byte) &&& stC.cfg.statusMask ∈ composedAccepts
      (running (.recvb 0x50#7 1#8) .dataPending (pos .transfer .gotStatus 0x58#8)) (.recvb 0x50#7 1#8) := by
  decide

/-- Byte 0 of two, and the last of two. -/
theorem witness_RecvbStoresBytesInOrder :
    (running (.recvb 0x50#7 2#8) .dataOk (pos .transfer .gotData 0x11#8)).busy = true ∧
    (running (.recvb 0x50#7 2#8) .dataOk (pos .transfer .gotData 0x11#8)).frame.point = .gotData ∧
    (running (.recvb 0x50#7 2#8) .dataOk (pos .transfer .gotData 0x11#8)).frame.stage = .transfer ∧
    (running (.recvb 0x50#7 2#8) .dataOk (pos .transfer .gotData 0x11#8)).idx.toNat < (2#8).toNat ∧
    (0#9 : BitVec 9).toNat + 1 < (2#8).toNat ∧ (1#9 : BitVec 9).toNat + 1 = (2#8).toNat := by decide

theorem witness_ComposedCommandsFinishAfterTheStop :
    isComposed (.sendb 0x50#7 2#8) = true ∧ (sendb2 .transfer .stopped 0#8).busy = true ∧
    (sendb2 .transfer .stopped 0#8).frame.point = .stopped := by decide

/-- SENDB of two bytes: after its last byte and the stop, index 2; after an address NACK and the stop, index 0. -/
def stoppedSendb (g : Stage) (r : Result) (n : BitVec 9) : State :=
  { running (.sendb 0x50#7 2#8) .stopIssued { pos g .stopped 0#8 with res := r } with idx := n }

theorem stoppedSendb_inv : Inv (stoppedSendb .transfer .success 2#9) ∧ Inv (stoppedSendb .address .protocol 0#9) := by
  constructor <;>
  exact
    { params := by decide
      memory := by decide
      phase := by decide
      atRest := by decide
      running := fun _ =>
        ⟨.sendb 0x50#7 2#8, by decide, by decide, by decide, by decide, by decide, by decide⟩
      polls := by decide
      polling := by decide
      status := by decide
      index := by decide }

theorem witness_IndexCountsTheTransfers :
    Inv (stoppedSendb .transfer .success 2#9) ∧ Inv (stoppedSendb .address .protocol 0#9) ∧
    afterStep (stoppedSendb .transfer .success 2#9) (fun t => (t.busy, t.result, t.idx)) =
      some (false, .success, 2#9) ∧
    afterStep (stoppedSendb .address .protocol 0#9) (fun t => (t.busy, t.result, t.idx)) =
      some (false, .protocol, 0#9) ∧
    isComposed (.sendb 0x50#7 2#8) = true ∧
    decodeCommand (stoppedSendb .transfer .success 2#9).cur = .ok (.sendb 0x50#7 2#8) ∧
    (stoppedSendb .address .protocol 0#9).frame.stage ≠ .transfer ∧
    ∀ rest, (stoppedSendb .transfer .success 2#9).turns ≠ .reset :: rest := by
  refine ⟨stoppedSendb_inv.1, stoppedSendb_inv.2, by decide, by decide, by decide, by decide, by decide, ?_⟩
  intro rest h
  cases h

-- R21, R183: the index starts at 0, also after a command that left it at 2.
theorem test_composed_index_starts_at_0 :
    after (.sendb 0x50#7 2#8) { running (.sendb 0x50#7 2#8) .idle Frame.start with idx := 2#9 }
      (fun t => t.idx) = some 0#9 := by decide

theorem witness_PrimitiveFrame :
    (isPollingPrimitive (.data 0x12#8) = true ∧
      (after (.data 0x12#8) (running (.data 0x12#8) .addrOk Frame.start) (fun t => t.phase)).isSome = true) ∧
    (after .stop (running .stop .aborted Frame.start) (fun t => t.phase)).isSome = true := by decide

theorem witness_ConfigurationFrame :
    (after (.config 0#2 .fast) (running (.config 0#2 .fast) .idle Frame.start) (fun t => t.phase)).isSome = true ∧
    (after (.role .slaveTransmit true 0#8) (running (.role .slaveTransmit true 0#8) .idle Frame.start)
      (fun t => t.phase)).isSome = true ∧
    roleIsSlave .masterTransmit = false := by decide

/-- SENDB, and RECVB at a store and not. -/
theorem witness_ComposedFrame :
    isComposed (.recvb 0x50#7 2#8) = true ∧
    (after (.recvb 0x50#7 2#8) (running (.recvb 0x50#7 2#8) .dataOk (pos .transfer .gotData 0x11#8))
      (fun t => t.phase)).isSome = true ∧
    recvbStore (running (.recvb 0x50#7 2#8) .dataOk (pos .transfer .gotData 0x11#8)) = some 0x200 ∧
    recvbStore (running (.recvb 0x50#7 2#8) .addrPending (pos .address .polled 0#8)) = none ∧
    (after (.sendb 0x50#7 2#8) (sendb2 .address .polled 0#8) (fun t => t.phase)).isSome = true := by decide

/-- SENDB in its second transfer, one wait done. -/
def midTransfer : State :=
  { sendb2 .transfer .polled 0#8 with pollCount := 1#16, idx := 1#9, mem := [(0x100, 0x12#8)] }

theorem midTransfer_inv : Inv midTransfer where
  params := by decide
  memory := by decide
  phase := by decide
  atRest := by decide
  running := fun _ => ⟨.sendb 0x50#7 2#8, by decide, by decide, by decide, by decide, by decide, by decide⟩
  polls := by decide
  polling := by decide
  status := by decide
  index := by decide

theorem midTransfer_steps : ∃ t, step midTransfer = .next t := ⟨_, rfl⟩

theorem witness_StepKeepsTheInvariant : Inv midTransfer ∧ ∃ t, step midTransfer = .next t :=
  ⟨midTransfer_inv, midTransfer_steps⟩

theorem witness_OnlyUndefinedHostAccessesStop : Inv midTransfer := midTransfer_inv

/-- STOP's last step. -/
def stopping : State :=
  running .stop .stopIssued { Frame.start with point := .stopped, res := .success }

theorem witness_IdleBlockIsInASettledPhase :
    Inv stopping ∧ ∃ t, step stopping = .next t ∧ t.busy = false :=
  ⟨{ params := by decide
     memory := by decide
     phase := by decide
     atRest := by decide
     running := fun _ => ⟨.stop, by decide, by decide, by decide, by decide, by decide, by decide⟩
     polls := by decide
     polling := by decide
     status := by decide
     index := by decide }, _, rfl, rfl⟩

theorem witness_FaultBitsAreSticky :
    (∃ t, step { midTransfer with seqErr := true, overrun := true } = .next t) ∧
    (∀ rest, ({ midTransfer with seqErr := true, overrun := true } : State).turns ≠ .reset :: rest) :=
  ⟨⟨_, rfl⟩, fun _ h => by cases h⟩

/-- CONFIG's last step from the state after reset. -/
theorem witness_OnlyConfigSuccessSetsInit :
    let s := { running (.config 0#2 .standard) .idle (pos .start .wroteBitrate 0#8) with init := false }
    (∃ t, step s = .next t ∧ t.init ≠ s.init ∧ t.busy = false) ∧ s.busy = true ∧
    decodeCommand s.cur = .ok (.config 0#2 .standard) ∧ ∀ rest, s.turns ≠ .reset :: rest := by
  refine ⟨⟨_, rfl, by decide, rfl⟩, rfl, by decide, ?_⟩
  intro rest h
  cases h

/-- STOP's last step after a TIMEOUT, and the three rejected words: illegal, before CONFIG, out of range. -/
theorem witness_ResultIsWrittenOnlyAtCompletion :
    afterStep { stopping with result := .timeout } (fun t => (t.busy, t.result)) = some (false, .success) ∧
    afterStep (turn (.host (cmdWrite stC.cfg 0#32)) stC) (fun t => t.result) = some .illegal ∧
    afterStep (State.reset.withFetchWord 32 0x00000003) (fun t => t.result) = some .uninit ∧
    afterStep (turn (.host (cmdWrite stC.cfg 0x00003101#32)) stC) (fun t => t.result) = some .config ∧
    stC.result = .success ∧ State.reset.result = .none ∧
    ∀ rest, stopping.turns ≠ .reset :: rest := by
  refine ⟨by decide, by decide, by decide, by decide, by decide, by decide, ?_⟩
  intro rest h
  cases h

theorem witness_CommandsIgnoreTheRole : ∀ r gc own, Instr.recv true ≠ .role r gc own := by
  intro _ _ _ h; cases h

theorem witness_OnePortAccessPerStep :
    (∃ t, step midTransfer = .next t ∧ t.trace ≠ midTransfer.trace) ∧
    ∀ rest, midTransfer.turns ≠ .reset :: rest :=
  ⟨⟨_, rfl, by decide⟩, fun _ h => by cases h⟩

/-- A dropped CMD write and a STAT read. -/
theorem witness_HostCannotAlterARunningCommand :
    midTransfer.busy = true ∧ (∃ t, hostStep (cmdWrite midTransfer.cfg 3#32) midTransfer = .next t) ∧
    ∃ t, hostStep (scriptRd32 midTransfer.cfg 0x004) midTransfer = .next t :=
  ⟨rfl, ⟨_, rfl⟩, _, rfl⟩

/-- RECVB's store over a written byte, and the host's write over one. -/
theorem witness_BufferBytesChangeOnlyByTheirWriters :
    let s := { running (.recvb 0x50#7 2#8) .dataOk (pos .transfer .gotData 0x11#8) with
      mem := [(0x200, 0xEE#8)] }
    let u := turn (.host (scriptWr8 Params.reference 0x1FF 0xA5#8)) { stC with mem := [(0x1FF, 0x00#8)] }
    (∃ t, step s = .next t ∧ t.bufferByte 0x200 ≠ s.bufferByte 0x200) ∧
    (∃ t, step u = .next t ∧ t.bufferByte 0x1FF ≠ u.bufferByte 0x1FF) ∧
    (∀ rest, s.turns ≠ .reset :: rest) ∧ ∀ rest, u.turns ≠ .reset :: rest :=
  by refine ⟨⟨_, rfl, by decide⟩, ⟨_, rfl, by decide⟩, ?_, ?_⟩ <;> intro rest h <;> cases h

/-- A position of the command's own, and one that is not. -/
theorem witness_CommandsRunAtTheirOwnPositionsOnly :
    (running .stop .stopIssued (pos .start .stopped 0#8)).busy = true ∧
    procedurePoint (pos .start .stopped 0#8) .stop = true ∧
    procedurePoint (pos .start .polled 0#8) .stop = false := by decide

end Sys2Proof.Tests
end

section
/-! PROOFS. STAT (spec/10_state.md R36): what a host's turn at a place of the window comes to, the fields of STAT's
word, and the statement that a read of STAT returns them and a write to it is ignored. -/

namespace Sys2Proof.Machine

/-! ## A host's turn -/

/-- A read that reaches a place takes its turn, records the place's value and changes nothing else (log 5). -/
theorem step_host_read (s : State) (addr n : Nat) (rest : List Turn) (p : WindowPlace)
    (ht : s.turns = .host (.read addr n) :: rest) (hp : hostPlace s.cfg addr n = some p) :
    step s = .next { s with turns := rest, hostReads := s.hostReads ++ [s.hostValue p] } := by
  simp only [step, ht, turnStep, hostStep, hp]
  cases p <;> rfl

/-- A write that reaches a place takes its turn and does there what `hostWrite` says. -/
theorem step_host_write (s : State) (addr n : Nat) (v : Word) (rest : List Turn) (p : WindowPlace)
    (ht : s.turns = .host (.write addr n v) :: rest) (hp : hostPlace s.cfg addr n = some p) :
    step s = hostWrite p v { s with turns := rest } := by
  simp only [step, ht, turnStep, hostStep, hp]

/-- STAT is the word at offset 0x004 (20_memory.md R61). -/
theorem hostPlace_stat (c : Params) : hostPlace c (c.hostBase + 0x004) 4 = some .stat := by
  simp [hostPlace_add, windowPlace]

/-! ## The fields of STAT's word -/

theorem State.statWord_bit0 (s : State) : s.statWord.getLsbD 0 = s.busy := by
  simp [State.statWord, place]

theorem State.statWord_bits3_1 (s : State) : s.statWord.extractLsb' 1 3 = s.result.code := by
  ext i hi
  interval_cases i <;> simp [State.statWord, place, BitVec.getElem_extractLsb']

theorem State.statWord_bit4 (s : State) : s.statWord.getLsbD 4 = s.init := by
  simp [State.statWord, place]

/-- No field reaches bits 31:5: RESULT's code, placed at bit 1, has three bits. -/
theorem State.statWord_bits31_5 (s : State) : s.statWord.extractLsb' 5 27 = 0#27 := by
  ext i hi
  have hcode : s.result.code.getLsbD (4 + i) = false := BitVec.getLsbD_of_ge _ _ (by omega)
  have hinit : 5 + i - 4 ≠ 0 := by omega
  simp [State.statWord, place, BitVec.getElem_extractLsb', hcode, hinit]

/-- After reset every field of STAT is 0 (70_reset_and_hazards.md R230). -/
theorem State.statWord_reset : State.reset.statWord = 0#32 := by decide

/-! ## The statement -/

/-- Settles O9: a read of STAT records `statWord`, whose fields are the state's; a write to STAT is ignored. -/
theorem statHoldsBusyResultInit : Obligations.StatHoldsBusyResultInit := by
  refine ⟨fun s rest ht => ⟨s.statWord, ?read, s.statWord_bit0, s.statWord_bits3_1, s.statWord_bit4,
    s.statWord_bits31_5⟩, fun s w rest ht => ?write, State.statWord_reset⟩
  case read => exact step_host_read s _ 4 rest .stat ht (hostPlace_stat s.cfg)
  case write => exact step_host_write s _ 4 w rest .stat ht (hostPlace_stat s.cfg)

end Sys2Proof.Machine
end

section
/-! PROOFS. The host window (spec/20_memory.md R64, R65): where the buffers' bytes lie, which accesses reach no place,
and the statements that a busy block drops host writes and that exactly the undefined accesses are refused. -/

namespace Sys2Proof.Machine

/-! ## The places of the window -/

/-- RXDATA is the word at offset 0x008 (R61). -/
theorem hostPlace_rxdata (c : Params) : hostPlace c (c.hostBase + 0x008) 4 = some .rxdata := by
  simp [hostPlace_add, windowPlace]

/-- TXBUF's byte `k` is at offset 0x100 + k (R61, R69). -/
theorem hostPlace_tx (c : Params) (k : Nat) (hk : k ≤ 255) (hz : k < c.bufSize) :
    hostPlace c (c.hostBase + 0x100 + k) 1 = some (.tx (BitVec.ofNat 8 k)) := by
  rw [Nat.add_assoc, hostPlace_add, windowPlace_tx _ k hk hz]

/-- RXBUF's byte `k` is at offset 0x200 + k (R61, R69). -/
theorem hostPlace_rx (c : Params) (k : Nat) (hk : k ≤ 255) (hz : k < c.bufSize) :
    hostPlace c (c.hostBase + 0x200 + k) 1 = some (.rx (BitVec.ofNat 8 k)) := by
  rw [Nat.add_assoc, hostPlace_add, windowPlace_rx _ k hk hz]

theorem txOffset_ofNat (k : Nat) (hk : k ≤ 255) : txOffset (BitVec.ofNat 8 k) = 0x100 + k := by
  rw [txOffset, BitVec.toNat_ofNat, Nat.mod_eq_of_lt (by omega)]

theorem rxOffset_ofNat (k : Nat) (hk : k ≤ 255) : rxOffset (BitVec.ofNat 8 k) = 0x200 + k := by
  rw [rxOffset, BitVec.toNat_ofNat, Nat.mod_eq_of_lt (by omega)]

/-- The accesses R65 leaves undefined, as offsets: below 0x100 all but aligned words, from there all but bytes. -/
theorem windowPlace_eq_none_iff (z off n : Nat) :
    windowPlace z off n = none ↔
      ¬ (off < 0x100 ∧ n = 4 ∧ off % 4 = 0) ∧ ¬ (0x100 ≤ off ∧ off < 0x400 ∧ n = 1) := by
  unfold windowPlace
  split_ifs <;> simp only [true_iff, false_iff] <;> omega

/-- The same as platform addresses: an address below the window reaches no place either. -/
theorem hostPlace_eq_none_iff (c : Params) (addr n : Nat) :
    hostPlace c addr n = none ↔
      ¬ (c.hostBase ≤ addr ∧ addr < c.hostBase + 0x100 ∧ n = 4 ∧ (addr - c.hostBase) % 4 = 0) ∧
      ¬ (c.hostBase + 0x100 ≤ addr ∧ addr < c.hostBase + 0x400 ∧ n = 1) := by
  by_cases hle : c.hostBase ≤ addr
  · rw [hostPlace, if_pos hle, windowPlace_eq_none_iff]
    omega
  · rw [hostPlace, if_neg hle]
    exact iff_of_true rfl (by omega)

/-! ## Writes to a busy block -/

/-- A write to CMD or TXBUF while busy comes to OVERRUN alone, whatever the word or byte (R64). -/
theorem hostWrite_cmd_of_busy (w : Word) (s : State) (hb : s.busy = true) :
    hostWrite .cmd w s = .next s.raiseOverrun :=
  if_pos hb

theorem hostWrite_tx_of_busy (i : Byte) (v : Word) (s : State) (hb : s.busy = true) :
    hostWrite (.tx i) v s = .next s.raiseOverrun :=
  congrArg Host.Outcome.next (if_pos hb)

/-! ## Refused accesses -/

/-- A write that reaches a place is not refused: at CMD the accept step is not, and the others go on. -/
theorem hostWrite_not_refused (p : WindowPlace) (v : Word) (s : State) (r : Refusal) :
    hostWrite p v s ≠ .refused r := by
  cases p with
  | cmd =>
    simp only [hostWrite, issueCommand]
    split
    · simp
    · split
      · exact exec_not_refused _ s r
      · simp
  | _ => simp [hostWrite]

/-- A read is refused exactly where it reaches no place (R65). -/
theorem hostStep_read_refused_iff (s : State) (addr n : Nat) :
    hostStep (.read addr n) s = .refused .undefinedHostAccess ↔ hostPlace s.cfg addr n = none := by
  cases hp : hostPlace s.cfg addr n <;> simp [hostStep, hp]

/-- A write is refused exactly where it reaches no place (R65). -/
theorem hostStep_write_refused_iff (s : State) (addr n : Nat) (v : Word) :
    hostStep (.write addr n v) s = .refused .undefinedHostAccess ↔ hostPlace s.cfg addr n = none := by
  cases hp : hostPlace s.cfg addr n with
  | none => simp [hostStep, hp]
  | some p => simp [hostStep, hp, hostWrite_not_refused]

/-- The host's turn is its access, the turn taken off. -/
theorem step_host (s : State) (a : HostAccess) (rest : List Turn) (ht : s.turns = .host a :: rest) :
    step s = hostStep a { s with turns := rest } := by
  simp only [step, ht, turnStep]

/-! ## The statements -/

/-- Settles O8: a write that reaches CMD or TXBUF while busy comes to OVERRUN, and a read of a place records the
place's value in the present state. -/
theorem busyBlockDropsHostWrites : Obligations.BusyBlockDropsHostWrites := by
  intro s rest
  refine ⟨fun hb => ⟨fun w ht => ?cmdWrite, fun k v hk hz ht => ?txWrite⟩, fun ht => ?stat, fun ht => ?rxdata,
    fun k hk hz ht => ?txRead, fun k hk hz ht => ?rxRead⟩
  case cmdWrite =>
    exact (step_host_write s _ 4 w rest .cmd ht (hostPlace_cmd s.cfg)).trans (hostWrite_cmd_of_busy w _ hb)
  case txWrite =>
    exact (step_host_write s _ 1 v rest _ ht (hostPlace_tx s.cfg k hk hz)).trans (hostWrite_tx_of_busy _ v _ hb)
  case stat => exact step_host_read s _ 4 rest .stat ht (hostPlace_stat s.cfg)
  case rxdata => exact step_host_read s _ 4 rest .rxdata ht (hostPlace_rxdata s.cfg)
  case txRead =>
    rw [step_host_read s _ 1 rest _ ht (hostPlace_tx s.cfg k hk hz), State.hostValue, State.txByte,
      txOffset_ofNat k hk]
  case rxRead =>
    rw [step_host_read s _ 1 rest _ ht (hostPlace_rx s.cfg k hk hz), State.hostValue, State.rxByte,
      rxOffset_ofNat k hk]

/-- Settles O11: an access is refused exactly if it reaches no place, and those accesses are R65's. -/
theorem undefinedHostAccessesAreRefused : Obligations.UndefinedHostAccessesAreRefused := by
  intro s rest addr n a ha ht
  rw [step_host s a rest ht, ← hostPlace_eq_none_iff]
  obtain rfl | ⟨v, rfl⟩ := ha
  · exact hostStep_read_refused_iff _ addr n
  · exact hostStep_write_refused_iff _ addr n v

end Sys2Proof.Machine
end

section
/-! PROOFS. The decoder's two outcomes (spec/30_encoding.md R102): a word that decodes is the word of a well-formed
command, and what each format's decoding rejects. -/

namespace Sys2Proof

/-! ## The reserved-bit check -/

/-- The check passes on what stands behind it exactly where the reserved bits are clear. -/
theorem checked_eq_ok_iff (mask w : Word) (d : Except DecodeError Instr) (i : Instr) :
    checked mask w d = .ok i ↔ reservedClear mask w = true ∧ d = .ok i := by
  unfold checked
  split <;> simp [*]

/-- The check rejects a word with a reserved bit set, and lets through what rejects it behind. -/
theorem checked_error_iff (mask w : Word) (d : Except DecodeError Instr) :
    (∃ e, checked mask w d = .error e) ↔ reservedClear mask w = false ∨ ∃ e, d = .error e := by
  unfold checked
  split <;> simp [*]

/-- The mask has exactly the bits that the ranges, as (highest, lowest) bit numbers, name. -/
abbrev MaskIs (mask : Word) (ranges : List (Nat × Nat)) : Prop :=
  (∀ r ∈ ranges, r.1 < 32) ∧
  ∀ b < 32, mask.getLsbD b = true ↔ ∃ r ∈ ranges, r.2 ≤ b ∧ b ≤ r.1

/-- A reserved bit is set exactly if some bit of the ranges is. -/
theorem reservedClear_eq_false_iff (mask w : Word) (ranges : List (Nat × Nat)) (h : MaskIs mask ranges) :
    reservedClear mask w = false ↔ ∃ r ∈ ranges, ∃ b, r.2 ≤ b ∧ b ≤ r.1 ∧ w.getLsbD b = true := by
  obtain ⟨hlt, hmask⟩ := h
  rw [← Bool.not_eq_true, reservedClear_iff]
  constructor
  · intro hset
    push Not at hset
    obtain ⟨b, hb, hm, hw⟩ := hset
    obtain ⟨r, hr, hlo, hhi⟩ := (hmask b hb).mp hm
    exact ⟨r, hr, b, hlo, hhi, by simpa using hw⟩
  · rintro ⟨r, hr, b, hlo, hhi, hw⟩ hclear
    have hb : b < 32 := lt_of_le_of_lt hhi (hlt r hr)
    have hzero := hclear b hb ((hmask b hb).mpr ⟨r, hr, hlo, hhi⟩)
    rw [hw] at hzero
    cases hzero

/-! ## The words that decode -/

/-- CONFIG's operands are the speed class's code and the prescaler's select code, put back in place (R96). -/
theorem encode_of_decodeConfig (w : Word) (i : Instr) (hop : opcodeField w = 0x1#4)
    (hm : reservedClear 0xFFFF8CF0#32 w = true) (hd : decodeConfig w = .ok i) :
    i.wellFormed = true ∧ encode i = w := by
  unfold decodeConfig at hd
  split at hd
  case h_1 speed hs =>
    cases hd
    exact ⟨rfl, by rw [encode, SpeedClass.code_of_ofCode _ _ hs, ← hop, encodeC_of_fields w hm]⟩
  case h_2 => cases hd

/-- RECVB's length is not 0 where its operands decode (R98). -/
theorem encode_of_decodeRecvb (w : Word) (i : Instr) (hop : opcodeField w = 0xA#4)
    (hm : reservedClear 0xFF0080F0#32 w = true) (hd : decodeRecvb w = .ok i) :
    i.wellFormed = true ∧ encode i = w := by
  unfold decodeRecvb at hd
  split at hd
  case isTrue => cases hd
  case isFalse hlen =>
    cases hd
    exact ⟨by simpa [Instr.wellFormed] using hlen, by rw [encode, ← hop, encodeT_of_fields w hm]⟩

/-- A word that decodes is the word of the well-formed command it decodes to: each format's fields, put back in
place, are the word (R102). -/
theorem encode_of_decodeCommand (w : Word) (i : Instr) (h : decodeCommand w = .ok i) :
    i.wellFormed = true ∧ encode i = w := by
  unfold decodeCommand at h
  split_ifs at h with config role start addr data stop recv sendb send1 recvb
  all_goals obtain ⟨hm, hd⟩ := (checked_eq_ok_iff _ w _ i).mp h
  · exact encode_of_decodeConfig w i config hm hd
  · cases hd
    exact ⟨rfl, by rw [encode, Role.code_ofCode, ← role, encodeS_of_fields w hm]⟩
  · cases hd
    exact ⟨rfl, by rw [encode, ← start, encodeN_of_fields w hm]⟩
  · cases hd
    exact ⟨rfl, by rw [encode, ← addr, encodeB_of_fields w hm]⟩
  · cases hd
    exact ⟨rfl, by rw [encode, ← data, encodeB_of_fields w hm]⟩
  · cases hd
    exact ⟨rfl, by rw [encode, ← stop, encodeN_of_fields w hm]⟩
  · cases hd
    exact ⟨rfl, by rw [encode, ← recv, encodeR_of_fields w hm]⟩
  · cases hd
    exact ⟨rfl, by rw [encode, ← sendb, encodeT_of_fields w hm]⟩
  · cases hd
    exact ⟨rfl, by rw [encode, ← send1, encodeT_of_fields w hm]⟩
  · exact encode_of_decodeRecvb w i recvb hm hd

/-! ## The operands that do not -/

/-- The speed codes above 4 name no class (R96). -/
theorem SpeedClass.ofCode_eq_none_iff (c : BitVec 3) : SpeedClass.ofCode c = none ↔ 5 ≤ c.toNat := by
  revert c; decide

theorem decodeConfig_error_iff (w : Word) :
    (∃ e, decodeConfig w = .error e) ↔ 5 ≤ (speedField w).toNat := by
  rw [← SpeedClass.ofCode_eq_none_iff, decodeConfig]
  cases SpeedClass.ofCode (speedField w) <;> simp

theorem decodeRecvb_error_iff (w : Word) : (∃ e, decodeRecvb w = .error e) ↔ upperField w = 0#8 := by
  unfold decodeRecvb
  split <;> simp [*]

end Sys2Proof
end

section
/-! PROOFS. The illegal words (spec/30_encoding.md R103): they are the words that do not decode, and one issued to an
idle block only writes RESULT. -/

namespace Sys2Proof.Machine

/-! ## R103, opcode by opcode -/

/-- R103 for a word of a used opcode: what stands behind the reserved-bit check is to reject CONFIG's reserved speed
codes and RECVB's length 0, and nothing else. -/
theorem checked_error_iff_illegalWord (op : BitVec 4) (mask w : Word) (d : Except DecodeError Instr)
    (hop : opcodeField w = op) (hused : op.toNat ≠ 0 ∧ op.toNat < 0xB)
    (hmask : MaskIs mask (reservedRanges op.toNat))
    (hd : (∃ e, d = .error e) ↔
      op.toNat = 0x1 ∧ 5 ≤ (speedField w).toNat ∨ op.toNat = 0xA ∧ upperField w = 0#8) :
    (∃ e, checked mask w d = .error e) ↔ illegalWord w := by
  subst hop
  obtain ⟨hne, hlt⟩ := hused
  rw [checked_error_iff, reservedClear_eq_false_iff mask w _ hmask, hd]
  exact ((or_iff_right hne).trans (or_iff_right (Nat.not_le_of_lt hlt))).symm

/-- The other used opcodes: no operand of theirs is rejected. -/
theorem checked_ok_error_iff_illegalWord (op : BitVec 4) (mask w : Word) (i : Instr)
    (hop : opcodeField w = op) (hused : 0x1 < op.toNat ∧ op.toNat < 0xA)
    (hmask : MaskIs mask (reservedRanges op.toNat)) :
    (∃ e, checked mask w (.ok i) = .error e) ↔ illegalWord w :=
  checked_error_iff_illegalWord op mask w _ hop (by omega) hmask
    (iff_of_false (by simp) (by omega))

/-- The words that do not decode are the illegal words of R103, opcode by opcode. -/
theorem decodeCommand_error_iff (w : Word) : (∃ e, decodeCommand w = .error e) ↔ illegalWord w := by
  unfold decodeCommand
  split_ifs with config role start addr data stop recv sendb send1 recvb
  · exact checked_error_iff_illegalWord _ _ w _ config (by decide) (by decide)
      ((decodeConfig_error_iff w).trans (by simp))
  · exact checked_ok_error_iff_illegalWord _ _ w _ role (by decide) (by decide)
  · exact checked_ok_error_iff_illegalWord _ _ w _ start (by decide) (by decide)
  · exact checked_ok_error_iff_illegalWord _ _ w _ addr (by decide) (by decide)
  · exact checked_ok_error_iff_illegalWord _ _ w _ data (by decide) (by decide)
  · exact checked_ok_error_iff_illegalWord _ _ w _ stop (by decide) (by decide)
  · exact checked_ok_error_iff_illegalWord _ _ w _ recv (by decide) (by decide)
  · exact checked_ok_error_iff_illegalWord _ _ w _ sendb (by decide) (by decide)
  · exact checked_ok_error_iff_illegalWord _ _ w _ send1 (by decide) (by decide)
  · exact checked_error_iff_illegalWord _ _ w _ recvb (by decide) (by decide)
      ((decodeRecvb_error_iff w).trans (by simp))
  · have hunused : (opcodeField w).toNat = 0 ∨ 0xB ≤ (opcodeField w).toNat := by bv_omega
    exact iff_of_true ⟨_, rfl⟩ (hunused.elim .inl fun h => .inr (.inl h))

/-! ## Issuing a word to an idle block -/

theorem issueCommand_of_error (w : Word) (s : State) (hb : s.busy = false)
    (hd : ∃ e, decodeCommand w = .error e) : issueCommand w s = .next { s with result := .illegal } := by
  obtain ⟨e, he⟩ := hd
  simp [issueCommand, hb, he, State.rejectCommand]

theorem issueCommand_of_ok (w : Word) (s : State) (i : Instr) (hb : s.busy = false)
    (hd : decodeCommand w = .ok i) : issueCommand w s = exec i s := by
  simp [issueCommand, hb, hd]

/-! ## The statement -/

/-- Settles O3: the decoder's rejections are R103's list, and issuing a rejected word is `rejectCommand`. -/
theorem illegalWordsAreExactlyThoseListed : Obligations.IllegalWordsAreExactlyThoseListed := by
  refine ⟨decodeCommand_error_iff, fun s w rest hb hw ht => ?_⟩
  calc step s
    _ = issueCommand w { s with turns := rest } := step_host_write s _ 4 w rest .cmd ht (hostPlace_cmd s.cfg)
    _ = .next { s with turns := rest, result := .illegal } :=
      issueCommand_of_error w _ hb ((decodeCommand_error_iff w).mpr hw)

end Sys2Proof.Machine
end

section
/-! PROOFS. The accept step (spec/30_encoding.md R104): what each of its checks comes to, and the statement that an
issued word meets them in the rule's order. -/

namespace Sys2Proof.Machine

/-! ## The checks -/

/-- The second check is for every command but CONFIG. -/
theorem needsInit_eq_true_iff (i : Instr) : needsInit i = true ↔ ∀ ps spd, i ≠ .config ps spd := by
  cases i <;> simp [needsInit]

/-- The third check is for CONFIG alone. -/
theorem badDivisor_of_needsInit (c : Params) (i : Instr) (h : needsInit i = true) : badDivisor c i = false := by
  cases i with
  | config ps spd => cases h
  | _ => rfl

/-- The divisor is in range exactly if it is neither below 0 nor above BITRATE_MAX (40_configuration.md R124). -/
theorem divisorOk_iff (c : Params) (ps : BitVec 2) (spd : SpeedClass) :
    divisorOk c ps spd = true ↔ 0 ≤ divisor c ps spd ∧ divisor c ps spd ≤ c.bitrateMax := by
  simp [divisorOk]

theorem badDivisor_config_iff (c : Params) (ps : BitVec 2) (spd : SpeedClass) :
    badDivisor c (.config ps spd) = true ↔ ¬ (0 ≤ divisor c ps spd ∧ divisor c ps spd ≤ c.bitrateMax) := by
  rw [← divisorOk_iff]
  simp [badDivisor]

/-! ## The results of the checks -/

theorem accept_uninit (i : Instr) (s : State) (hw : i.wellFormed = true) (hn : needsInit i = true)
    (hi : s.init = false) : accept i s = { s with result := .uninit } := by
  simp [accept, hw, hn, hi, State.rejectCommand]

theorem accept_config_badDivisor (ps : BitVec 2) (spd : SpeedClass) (s : State)
    (hd : badDivisor s.cfg (.config ps spd) = true) :
    accept (.config ps spd) s = { s with result := .config } := by
  simp [accept, Instr.wellFormed, needsInit, hd, State.rejectCommand]

/-! ## The statement -/

/-- Settles O7: a word that decodes is its command's own, well formed, so the accept step gets to the second and third
checks, and it is the word latched. -/
theorem acceptChecksInOrder : Obligations.AcceptChecksInOrder := by
  intro s w hb
  refine ⟨issueCommand_of_error w s hb, fun i hd => ?_⟩
  obtain ⟨hw, rfl⟩ := encode_of_decodeCommand w i hd
  rw [exec_idle i s hb]
  refine ⟨(issueCommand_of_ok _ s i hb hd).trans (exec_idle i s hb), fun hnc hi => ?uninit,
    fun ps spd hc hr => ?config, fun hnc hi => ?latched, fun ps spd hc h0 hmax => ?latchedConfig⟩
  case uninit => rw [accept_uninit i s hw ((needsInit_eq_true_iff i).mpr hnc) hi]
  case config =>
    subst hc
    rw [accept_config_badDivisor ps spd s ((badDivisor_config_iff s.cfg ps spd).mpr hr)]
  case latched =>
    have hn := (needsInit_eq_true_iff i).mpr hnc
    rw [accept_latches i s hw (by simp [hi]) (badDivisor_of_needsInit s.cfg i hn), State.latchCommand]
  case latchedConfig =>
    subst hc
    have hok : badDivisor s.cfg (.config ps spd) = false := by
      rw [← Bool.not_eq_true, badDivisor_config_iff]
      exact not_not_intro ⟨h0, hmax⟩
    rw [accept_latches _ s hw rfl hok, State.latchCommand]

end Sys2Proof.Machine
end

section
/-! PROOFS. What one step of a running procedure leaves alone (spec/10_state.md R41): the procedures' own frame laws,
from the laws of their parts, and that no command but CONFIG writes `init` (40_configuration.md R126). -/

namespace Sys2Proof.Machine

/-! ## Completion and acceptance -/

theorem finish_kept (r : Result) (s : State) : Kept s (s.finish r) :=
  ⟨rfl, rfl, rfl, rfl, rfl, rfl, rfl, rfl, rfl⟩

/-- A stop's last step is its `finish` (41_primitives.md R163). -/
theorem endStop_kept (s : State) : Kept s (endStop s) :=
  ⟨rfl, rfl, rfl, rfl, rfl, rfl, rfl, rfl, rfl⟩

/-- The accept step writes RESULT or latches the command (30_encoding.md R104). -/
theorem accept_init (i : Instr) (s : State) : (accept i s).init = s.init := by
  obtain ⟨r, hrej, -⟩ | ⟨hlatch, -⟩ := accept_cases i s
  · simp [hrej]
  · simp [hlatch]

/-! ## The procedures -/

theorem primitiveProc_kept (p : PollArgs) (start : State → State) (s t : State) (hstart : Kept s (start s))
    (h : primitiveProc p start s = .next t) : Kept s t := by
  unfold primitiveProc at h
  split at h
  · cases h
    exact hstart
  · split at h
    case h_1 _ hu =>
      cases h
      exact (pollNext_kept p s _ (.inl hu)).1.toKept
    case h_2 r _ hu =>
      cases h
      exact (pollNext_kept p s _ (.inr ⟨r, hu⟩)).1.toKept.trans (finish_kept r _)
    case h_3 => cases h

theorem composedProc_kept (tr : Transfer) (htr : tr.Keeps) (s t : State) (h : composedProc tr s = .next t) :
    Kept s t := by
  unfold composedProc at h
  split at h
  · cases h
    exact (beginComposed_kept s).1
  · split at h
    · cases h
      exact endStop_kept s
    · split at h
      case h_1 _ hu =>
        cases h
        exact (pollNext_kept _ s _ (.inl hu)).1.toKept
      case h_2 r _ hu =>
        cases h
        exact (pollNext_kept _ s _ (.inr ⟨r, hu⟩)).1.toKept.trans (stageReturned_kept tr htr _ r _).1
      case h_3 => cases h

theorem stopProc_kept (s t : State) (h : stopProc s = .next t) : Kept s t := by
  unfold stopProc at h
  split at h
  case h_1 =>
    cases h
    exact (beginStop_kept .success s).1.toKept
  case h_2 =>
    cases h
    exact endStop_kept s
  all_goals cases h

/-- ROLE writes the role and the own address (40_configuration.md R130), so it has no `Kept`. -/
theorem roleProc_init (r : Role) (gc : Bool) (own : Byte) (s t : State) (h : roleProc r gc own s = .next t) :
    t.init = s.init := by
  unfold roleProc at h
  split at h
  case h_1 => split at h <;> cases h <;> simp
  case h_2 => split at h <;> cases h; simp
  case h_3 => split at h <;> cases h; simp
  all_goals cases h

/-- No running command but CONFIG writes `init`. -/
theorem exec_init (i : Instr) (s t : State) (hb : s.busy = true) (hi : ∀ ps spd, i ≠ .config ps spd)
    (h : exec i s = .next t) : t.init = s.init := by
  cases i with
  | config ps spd => exact absurd rfl (hi ps spd)
  | role r gc own => exact roleProc_init r gc own s t (exec_role r gc own s hb ▸ h)
  | start =>
    exact (primitiveProc_kept _ _ s t (beginPoll_kept _ _ s).1.toKept (exec_start s hb ▸ h)).init
  | addr b => exact (primitiveProc_kept _ _ s t (beginAddr_kept b s).1.toKept (exec_addr b s hb ▸ h)).init
  | data b => exact (primitiveProc_kept _ _ s t (beginPoll_kept _ _ s).1.toKept (exec_data b s hb ▸ h)).init
  | stop => exact (stopProc_kept s t (exec_stop s hb ▸ h)).init
  | recv a => exact (primitiveProc_kept _ _ s t (beginPoll_kept _ _ s).1.toKept (exec_recv a s hb ▸ h)).init
  | sendb a n => exact (composedProc_kept _ (sendbTransfer_keeps a n) s t (exec_sendb a n s hb ▸ h)).init
  | send1 a b => exact (composedProc_kept _ (send1Transfer_keeps a b) s t (exec_send1 a b s hb ▸ h)).init
  | recvb a n => exact (composedProc_kept _ (recvbTransfer_keeps a n) s t (exec_recvb a n s hb ▸ h)).init

end Sys2Proof.Machine
end

section
/-! PROOFS. CONFIG (spec/40_configuration.md R123 to R127): its accept step and its three steps, each as a whole next
state, the statements that it programs the bus or changes only RESULT, and that it alone sets `init`. -/

namespace Sys2Proof.Machine

/-! ## The accept step -/

theorem accept_config_of_divisor (ps : BitVec 2) (spd : SpeedClass) (s : State) (h0 : 0 ≤ divisor s.cfg ps spd)
    (hmax : divisor s.cfg ps spd ≤ s.cfg.bitrateMax) :
    accept (.config ps spd) s = s.latchCommand (encode (.config ps spd)) := by
  have hok : badDivisor s.cfg (.config ps spd) = false := by
    rw [← Bool.not_eq_true, badDivisor_config_iff]
    exact not_not_intro ⟨h0, hmax⟩
  exact accept_latches _ s rfl rfl hok

/-! ## The three steps -/

theorem exec_config_entry (ps : BitVec 2) (spd : SpeedClass) (s : State) (hb : s.busy = true)
    (hp : s.frame.point = .entry) :
    exec (.config ps spd) s = .next (s.checkIdle.callWrite .prescale (prescaleByte ps) .wrotePrescale) := by
  rw [exec_config ps spd s hb, configProc, hp]

theorem exec_config_wrotePrescale (ps : BitVec 2) (spd : SpeedClass) (s : State) (hb : s.busy = true)
    (hp : s.frame.point = .wrotePrescale) :
    exec (.config ps spd) s = .next (s.callWrite .bitrate (bitrateByte s.cfg ps spd) .wroteBitrate) := by
  rw [exec_config ps spd s hb, configProc, hp]

theorem exec_config_wroteBitrate (ps : BitVec 2) (spd : SpeedClass) (s : State) (hb : s.busy = true)
    (hp : s.frame.point = .wroteBitrate) :
    exec (.config ps spd) s = .next ({ s with init := true }.finish .success) := by
  rw [exec_config ps spd s hb, configProc, hp]

/-- A running CONFIG goes on with `init` as it is, or stands after its BITRATE write and ends with `init` set. -/
theorem exec_config_cases (ps : BitVec 2) (spd : SpeedClass) (s t : State) (hb : s.busy = true)
    (h : exec (.config ps spd) s = .next t) :
    (t.busy = true ∧ t.init = s.init) ∨
      (s.frame.point = .wroteBitrate ∧ t = { s with init := true }.finish .success) := by
  rw [exec_config ps spd s hb, configProc] at h
  split at h
  case h_1 =>
    cases h
    exact .inl (by simp [hb])
  case h_2 =>
    cases h
    exact .inl (by simp [hb])
  case h_3 hp =>
    cases h
    exact .inr ⟨hp, rfl⟩
  all_goals cases h

/-- A divisor in range fits BITRATE's byte, so the byte written is the divisor itself (R123, R124). -/
theorem bitrateByte_toNat (c : Params) (ps : BitVec 2) (spd : SpeedClass) (hreg : c.bitrateMax ≤ 255)
    (h0 : 0 ≤ divisor c ps spd) (hmax : divisor c ps spd ≤ c.bitrateMax) :
    ((bitrateByte c ps spd).toNat : Int) = divisor c ps spd := by
  rw [bitrateByte, BitVec.toNat_ofInt]
  omega

/-! ## `init` over a step of the machine -/

/-- A step that is not a reset is a CONFIG's last step, which sets `init`, or leaves `init` as it is and does not end
a running CONFIG (R126). -/
theorem step_init_cases (s t : State) (h : step s = .next t) (hr : ∀ rest, s.turns ≠ .reset :: rest) :
    (∃ ps spd, s.busy = true ∧ decodeCommand s.cur = .ok (.config ps spd) ∧ s.frame.point = .wroteBitrate ∧
      t.init = true ∧ t.busy = false ∧ t.result = .success) ∨
    (t.init = s.init ∧
      ∀ ps spd, s.busy = true → decodeCommand s.cur = .ok (.config ps spd) → t.busy = true) := by
  obtain ⟨rest, i, -, hb, hd, he⟩ | ⟨rest, -, hb, rfl⟩ | ⟨rest, i, w, -, hb, -, he⟩ | ⟨rest, ht, -⟩ |
    ⟨rest, w, -, hb, -, rfl⟩ | ⟨rest, j, v, w, hb, -, rfl⟩ := step_cases s t h hr
  · by_cases hi : ∃ ps spd, i = .config ps spd
    · obtain ⟨ps, spd, rfl⟩ := hi
      obtain ⟨hbt, hinit⟩ | ⟨hp, rfl⟩ := exec_config_cases ps spd { s with turns := rest } t hb he
      · exact .inr ⟨hinit, fun _ _ _ _ => hbt⟩
      · exact .inl ⟨ps, spd, hb, hd, hp, by simp⟩
    · have hnc : ∀ ps spd, i ≠ .config ps spd := fun ps spd hc => hi ⟨ps, spd, hc⟩
      refine .inr ⟨exec_init i { s with turns := rest } t hb hnc he, fun ps spd _ hcur => ?_⟩
      exact absurd (Except.ok.inj (hd.symm.trans hcur)) (hnc ps spd)
  · exact .inr ⟨rfl, by simp [hb]⟩
  · rw [exec_idle i { s with turns := rest } hb] at he
    cases he
    exact .inr ⟨accept_init i _, by simp [hb]⟩
  · rw [ht]
    exact .inr ⟨rfl, fun _ _ hb _ => hb⟩
  · exact .inr ⟨rfl, by simp [hb]⟩
  · exact .inr ⟨rfl, by simp [hb]⟩

/-! ## The statements -/

/-- Settles O18: the accept step latches the word, since the divisor is in range, and the three steps of the procedure
follow, each from the position the one before it leaves. -/
theorem configProgramsTheBus : Obligations.ConfigProgramsTheBus := by
  intro s ps spd hlegal hb h0 hmax
  obtain ⟨-, -, -, -, -, -, -, -, -, -, -, -, hreg, -, -⟩ := hlegal
  have haccept : exec (.config ps spd) s = .next (s.latchCommand (encode (.config ps spd))) := by
    rw [exec_idle _ s hb, accept_config_of_divisor ps spd s h0 hmax]
  refine ⟨_, _, _, bitrateByte s.cfg ps spd, haccept, exec_config_entry ps spd _ (by simp) rfl,
    exec_config_wrotePrescale ps spd _ (by simp) (by simp), bitrateByte_toNat s.cfg ps spd hreg h0 hmax, ?_⟩
  rw [exec_config_wroteBitrate ps spd _ (by simp) (by simp)]
  simp [State.finish, State.callWrite, State.portWrite, State.goto, State.checkIdle, State.raiseSeqErr,
    State.latchCommand, prescaleByte, hb, bne, beq_eq_decide]

/-- Settles O48: `step_init_cases` says both ways when `init` changes. -/
theorem onlyConfigSuccessSetsInit : Obligations.OnlyConfigSuccessSetsInit := by
  intro s t h hr
  obtain ⟨ps, spd, hb, hd, hp, hinit, hbt, hres⟩ | ⟨hinit, hrun⟩ := step_init_cases s t h hr
  case inl =>
    exact ⟨fun _ => ⟨hinit, hb, hbt, hres, ps, spd, hd, hp⟩, fun _ _ _ _ _ => ⟨hinit, hres⟩⟩
  case inr =>
    refine ⟨fun hne => absurd hinit hne, fun ps spd hb hbt hd => ?_⟩
    rw [hrun ps spd hb hd] at hbt
    cases hbt

/-- Settles O19: an idle block's step is the accept step, whose third check rejects the divisor. -/
theorem rejectedConfigChangesOnlyResult : Obligations.RejectedConfigChangesOnlyResult := by
  intro s ps spd hb hbad
  rw [exec_idle _ s hb, accept_config_badDivisor ps spd s ((badDivisor_config_iff s.cfg ps spd).mpr hbad)]

end Sys2Proof.Machine
end

section
/-! PROOFS. The single-step commands (spec/41_primitives.md R143 to R164): the steps of STOP, the first steps of START,
ADDR, DATA and RECV, and RECV's read of DATA, each as a whole next state, and the statements made of them. -/

namespace Sys2Proof.Machine

/-! ## STOP -/

theorem accept_stop_of_init (s : State) (hi : s.init = true) : accept .stop s = s.latchCommand (encode .stop) :=
  accept_latches .stop s rfl (by simp [hi]) rfl

theorem exec_stop_entry (s : State) (hb : s.busy = true) (hp : s.frame.point = .entry) :
    exec .stop s = .next (beginStop .success s) := by
  rw [exec_stop s hb, stopProc, hp]

theorem exec_stop_stopped (s : State) (hb : s.busy = true) (hp : s.frame.point = .stopped) :
    exec .stop s = .next (endStop s) := by
  rw [exec_stop s hb, stopProc, hp]

theorem beginStop_eq (r : Result) (s : State) :
    beginStop r s = { s with
      phase := .stopIssued, trace := s.trace ++ [.write .ctrl s.cfg.ctrl.stop],
      frame := { s.frame with point := .stopped, res := r } } :=
  rfl

theorem endStop_eq (s : State) :
    endStop s = { s with phase := .idle, result := s.frame.res, busy := false, frame := Frame.start } :=
  rfl

/-- Settles O22: STOP is accepted, writes CTRL and ends with the result it has held since its write, in IDLE. -/
theorem stopAlwaysSucceeds : Obligations.StopAlwaysSucceeds := by
  intro s hb hi
  have haccept : exec .stop s = .next (s.latchCommand (encode .stop)) := by
    rw [exec_idle .stop s hb, accept_stop_of_init s hi]
  refine ⟨_, _, haccept, exec_stop_entry _ (by simp) (by simp [Frame.start]), ?_⟩
  rw [beginStop_eq]
  refine ⟨rfl, rfl, rfl, ?_⟩
  rw [exec_stop_stopped _ rfl rfl, endStop_eq]
  simp [State.latchCommand, hb]

/-! ## The procedure of a polling primitive -/

theorem primitiveProc_entry (p : PollArgs) (start : State → State) (s : State) (hp : s.frame.point = .entry) :
    primitiveProc p start s = .next (start s) :=
  if_pos hp

theorem primitiveProc_running (p : PollArgs) (start : State → State) (s t : State) (hp : s.frame.point ≠ .entry)
    (h : pollNext p s = .running t) : primitiveProc p start s = .next t := by
  rw [primitiveProc, if_neg hp, h]

theorem primitiveProc_returned (p : PollArgs) (start : State → State) (s t : State) (r : Result)
    (hp : s.frame.point ≠ .entry) (h : pollNext p s = .returned r t) :
    primitiveProc p start s = .next (t.finish r) := by
  rw [primitiveProc, if_neg hp, h]

/-! ## How START, ADDR, DATA and RECV begin -/

/-- `S.dir` once a polling primitive has begun: ADDR takes it from its byte (R151). -/
def primitiveDir (dir : Bool) : Instr → Bool
  | .addr b => b.getLsbD 0
  | _ => dir

/-- The port writes of `poll_step` (R143, R145). -/
def PollArgs.writes (p : PollArgs) : List Event :=
  match p.wdata with
  | some b => [.write .data b, .write .ctrl p.ctrl]
  | none => [.write .ctrl p.ctrl]

theorem startLegal_iff (p : Phase) : startLegal p = true ↔ p = .idle ∨ p = .addrOk ∨ p = .dataOk := by
  simp [startLegal, or_assoc]

theorem addrLegal_iff (p : Phase) : addrLegal p = true ↔ p = .startOk := by
  simp [addrLegal]

theorem dataLegal_iff (p : Phase) : dataLegal p = true ↔ p = .addrOk ∨ p = .dataOk := by
  simp [dataLegal]

theorem recvLegal_iff (p : Phase) (dir : Bool) :
    recvLegal p dir = true ↔ (p = .addrOk ∨ p = .dataOk) ∧ dir = true := by
  simp [recvLegal]

/-- The polling primitives are `poll_step` from its beginning on, each with its own arguments and order (R146, R148,
R150, R153, R156). -/
theorem exec_primitive_beginPoll (i : Instr) (hi : isPollingPrimitive i = true) :
    ∃ (args : Params → PollArgs) (start : State → State) (legal : Phase → Bool → Bool),
      (∀ s, s.busy = true → exec i s = primitiveProc (args s.cfg) start s) ∧
      (∀ s, start s =
        beginPoll (args s.cfg) (legal s.phase s.dir) { s with dir := primitiveDir s.dir i }) ∧
      (∀ p dir, legal p dir = true ↔ primitiveLegal p dir i) ∧
      (∀ c, (args c).pend = (primitivePhases i).1) ∧ ∀ c, (args c).writes = primitiveWrites c i := by
  cases i with
  | start =>
    exact ⟨startArgs, beginStart, fun p _ => startLegal p, exec_start, fun _ => rfl,
      fun p _ => startLegal_iff p, fun _ => rfl, fun _ => rfl⟩
  | addr b =>
    exact ⟨(addrArgs · b), beginAddr b, fun p _ => addrLegal p, exec_addr b, fun _ => rfl,
      fun p _ => addrLegal_iff p, fun _ => rfl, fun _ => rfl⟩
  | data b =>
    exact ⟨(dataArgs · b), beginData b, fun p _ => dataLegal p, exec_data b, fun _ => rfl,
      fun p _ => dataLegal_iff p, fun _ => rfl, fun _ => rfl⟩
  | recv a =>
    exact ⟨(recvArgs · a), beginRecv a, recvLegal, exec_recv a, fun _ => rfl, recvLegal_iff,
      fun _ => rfl, fun _ => rfl⟩
  | _ => cases hi

/-- After the DATA write comes the CTRL write (R145). -/
theorem pollNext_wroteData (p : PollArgs) (s : State) (hw : p.wdata.isSome = true)
    (hp : s.frame.point = .wroteData) : pollNext p s = .running (s.callWrite .ctrl p.ctrl .wroteCtrl) := by
  simp [pollNext, hp, hw]

/-- Settles O23: the first step is `poll_step`'s. Without a byte to send it makes the one CTRL write; with one it
writes DATA, and the next step writes CTRL. -/
theorem primitivesBeginWithTheirWrites : Obligations.PrimitivesBeginWithTheirWrites := by
  intro s i hi hb hp
  obtain ⟨args, start, legal, hexec, hstart, hlegal, hpend, hwrites⟩ := exec_primitive_beginPoll i hi
  have hfirst := (hexec s hb).trans (primitiveProc_entry _ start s hp)
  rw [hstart, beginPoll_eq, hpend] at hfirst
  have hw := (hwrites s.cfg).symm
  rw [PollArgs.writes] at hw
  cases hd : (args s.cfg).wdata with
  | none =>
    rw [hd] at hfirst hw
    exact ⟨_, _, [], legal s.phase s.dir, hfirst, hw, hlegal _ _, rfl, fun h => absurd rfl h⟩
  | some b =>
    rw [hd] at hfirst hw
    have hsecond : ∀ t, t.busy = true → t.cfg = s.cfg → t.frame.point = .wroteData →
        exec i t = .next (t.callWrite .ctrl (args s.cfg).ctrl .wroteCtrl) := by
      intro t htb hcfg htp
      rw [hexec t htb, hcfg]
      exact primitiveProc_running _ start t _ (by simp [htp]) (pollNext_wroteData _ t (by simp [hd]) htp)
    exact ⟨_, _, [.write .ctrl (args s.cfg).ctrl], legal s.phase s.dir, hfirst, hw, hlegal _ _, rfl,
      fun _ => ⟨_, rfl, hsecond _ hb rfl rfl⟩⟩

/-! ## RECV's status and its DATA read -/

/-- RECV accepts one status, by the chosen acknowledgement (R157). -/
theorem mem_recvArgs_accepts (c : Params) (ack : Bool) (st : Byte) :
    st ∈ (recvArgs c ack).accepts ↔
      st = if ack then c.statusCodes.dataRxAck else c.statusCodes.dataRxNack := by
  cases ack <;> simp [recvArgs, recvAccepts]

/-- An accepted status lets RECV read DATA (R158). -/
theorem pollNext_gotStatus_reads (p : PollArgs) (s : State) (hp : s.frame.point = .gotStatus)
    (hr : p.readsRx = true) (hm : maskedStatus s.cfg s.frame.ret ∈ p.accepts) :
    pollNext p s = .running ((s.latchStatus.settlePhase p.ok).callRead .data .gotData) := by
  simp [pollNext, hp, validateStatus, hm, hr]

/-- Any other status ends the step with PROTOCOL in ABORTED (R143, R147). -/
theorem pollNext_gotStatus_rejects (p : PollArgs) (s : State) (hp : s.frame.point = .gotStatus)
    (hm : maskedStatus s.cfg s.frame.ret ∉ p.accepts) :
    pollNext p s = .returned .protocol s.latchStatus.abort := by
  simp [pollNext, hp, validateStatus, hm]

theorem pollNext_gotData (p : PollArgs) (s : State) (hp : s.frame.point = .gotData) (hr : p.readsRx = true) :
    pollNext p s = .returned .success { s with rxdata := s.frame.ret } := by
  simp [pollNext, hp, hr]

theorem State.portAnswer_eq_headD (s : State) :
    s.portAnswer = s.answers.headD (Config.peripheralAnswer s.draws) := by
  unfold State.portAnswer
  cases s.answers <;> rfl

/-- Settles O27: the masked status is the accepted one and DATA is read, or it is not and RECV ends; a read DATA ends
RECV with the byte in `S.rxdata`. -/
theorem recvReadsDataOnlyOnSuccess : Obligations.RecvReadsDataOnlyOnSuccess := by
  intro s ack hb
  rw [exec_recv ack s hb]
  refine ⟨fun hp hst => ⟨s.portAnswer, ?accepted, s.portAnswer_eq_headD⟩, fun hp hst => ?rejected,
    fun hp => ?finished⟩
  case accepted =>
    have hm := (mem_recvArgs_accepts s.cfg ack _).mpr hst
    exact primitiveProc_running _ _ s _ (by simp [hp]) (pollNext_gotStatus_reads _ s hp rfl hm)
  case rejected =>
    have hm := mt (mem_recvArgs_accepts s.cfg ack _).mp hst
    exact primitiveProc_returned _ _ s _ _ (by simp [hp]) (pollNext_gotStatus_rejects _ s hp hm)
  case finished =>
    exact primitiveProc_returned _ _ s _ _ (by simp [hp]) (pollNext_gotData _ s hp rfl)

end Sys2Proof.Machine
end

section
/-! PROOFS. Reset (spec/70_reset_and_hazards.md R230): the values the block's fields hold after reset. -/

namespace Sys2Proof.Machine

/-- Settles O13: each value is the one `State.reset` gives that field, so every conjunct holds by computation. -/
theorem resetValues : Obligations.ResetValues :=
  ⟨rfl, rfl, rfl, rfl, rfl, rfl, rfl, rfl, rfl, rfl, rfl, rfl, rfl, rfl, rfl⟩

end Sys2Proof.Machine
end

section
/-! PROOFS. The round trip of encoder and decoder (spec/30_encoding.md R92 to R102) and the assembler (R106, R107,
R109): every well-formed command is read back from its word, and so is what the assembler accepts. -/

namespace Sys2Proof

/-! ## Decoding an encoded command -/

/-- A clear mask lets through what stands behind the check. -/
theorem checked_of_clear (mask w : Word) (d : Except DecodeError Instr) (h : reservedClear mask w = true) :
    checked mask w d = d :=
  if_pos h

theorem decodeConfig_encodeC (op : BitVec 4) (ps : BitVec 2) (spd : SpeedClass) :
    decodeConfig (encodeC op ps spd.code) = .ok (.config ps spd) := by
  obtain ⟨-, -, hps, hspd⟩ := encodeC_fields op ps spd.code
  rw [decodeConfig, hspd, SpeedClass.ofCode_code, hps]

theorem decodeRecvb_encodeT (op : BitVec 4) (a : BitVec 7) (n : Byte) (hn : n ≠ 0#8) :
    decodeRecvb (encodeT op a n) = .ok (.recvb a n) := by
  obtain ⟨-, -, ha, hu⟩ := encodeT_fields op a n
  rw [decodeRecvb, hu, ha, if_neg hn]

/-- Every well-formed command is read back from its word: the opcode selects the command's format, whose reserved
bits are clear and whose fields are the operands (R102). -/
theorem decodeCommand_encode (i : Instr) (hw : i.wellFormed = true) : decodeCommand (encode i) = .ok i := by
  cases i with
  | config ps spd =>
    obtain ⟨hop, hm, -⟩ := encodeC_fields 0x1#4 ps spd.code
    simp [encode, decodeCommand, hop, checked_of_clear _ _ _ hm, decodeConfig_encodeC]
  | role r gc own =>
    obtain ⟨hop, hm, hr, hu, hg⟩ := encodeS_fields 0x2#4 r.code gc own
    simpa [encode, decodeCommand, hop, checked_of_clear _ _ _ hm, hr, hu, Role.ofCode_code] using hg
  | start =>
    obtain ⟨hop, hm⟩ := encodeN_fields 0x3#4
    simp [encode, decodeCommand, hop, checked_of_clear _ _ _ hm]
  | addr b =>
    obtain ⟨hop, hm, hb⟩ := encodeB_fields 0x4#4 b
    simp [encode, decodeCommand, hop, checked_of_clear _ _ _ hm, hb]
  | data b =>
    obtain ⟨hop, hm, hb⟩ := encodeB_fields 0x5#4 b
    simp [encode, decodeCommand, hop, checked_of_clear _ _ _ hm, hb]
  | stop =>
    obtain ⟨hop, hm⟩ := encodeN_fields 0x6#4
    simp [encode, decodeCommand, hop, checked_of_clear _ _ _ hm]
  | recv a =>
    obtain ⟨hop, hm, ha⟩ := encodeR_fields 0x7#4 a
    simpa [encode, decodeCommand, hop, checked_of_clear _ _ _ hm] using ha
  | sendb a n =>
    obtain ⟨hop, hm, ha, hu⟩ := encodeT_fields 0x8#4 a n
    simp [encode, decodeCommand, hop, checked_of_clear _ _ _ hm, ha, hu]
  | send1 a b =>
    obtain ⟨hop, hm, ha, hu⟩ := encodeT_fields 0x9#4 a b
    simp [encode, decodeCommand, hop, checked_of_clear _ _ _ hm, ha, hu]
  | recvb a n =>
    obtain ⟨hop, hm, -⟩ := encodeT_fields 0xA#4 a n
    have hn : n ≠ 0#8 := by simpa [Instr.wellFormed] using hw
    simp [encode, decodeCommand, hop, checked_of_clear _ _ _ hm, decodeRecvb_encodeT _ _ _ hn]

/-! ## The assembler's operands -/

theorem asmByte_eq_none_iff (n : Nat) : asmByte n = none ↔ 255 < n := by
  unfold asmByte; split <;> simp <;> omega

theorem asmAddr7_eq_none_iff (n : Nat) : asmAddr7 n = none ↔ 127 < n := by
  unfold asmAddr7; split <;> simp <;> omega

theorem asmPrescaler_eq_none_iff (p : Nat) :
    asmPrescaler p = none ↔ p ≠ 1 ∧ p ≠ 4 ∧ p ≠ 16 ∧ p ≠ 64 := by
  unfold asmPrescaler
  split_ifs <;> simp [*]

/-- Only a slave role needs its own address written out (R106). -/
theorem asmOwn_none_eq_none_iff (r : Role) : asmOwn r none = none ↔ r = .slaveTransmit ∨ r = .slaveReceive := by
  cases r <;> simp [asmOwn]

/-- An address beside a second operand is rejected where either is. -/
theorem bind_map_eq_none_iff {α β γ : Type} (a : Option α) (b : Option β) (f : α → β → γ) :
    (a.bind fun x => b.map (f x)) = none ↔ a = none ∨ b = none := by
  cases a <;> cases b <;> simp

/-- The flag below a 7-bit address is its bit 0 as a number. -/
theorem toNat_append_flagBits (a : BitVec 7) (rd : Bool) :
    (a ++ flagBits rd).toNat = 2 * a.toNat + rd.toNat := by
  rw [BitVec.toNat_append, ← Nat.shiftLeft_add_eq_or_of_lt (flagBits rd).isLt, Nat.shiftLeft_eq, Nat.mul_comm]
  cases rd <;> rfl

/-- The SLA byte of a pseudo-command is ADDR's byte for twice the address, plus 1 for read (R107). -/
theorem asmSla_eq_asmByte (a : Nat) (rd : Bool) (ha : a ≤ 127) : asmSla a rd = asmByte (2 * a + rd.toNat) := by
  have hr : rd.toNat ≤ 1 := Bool.toNat_le rd
  rw [asmSla, asmAddr7, if_pos ha, asmByte, if_pos (by omega), Option.map_some]
  refine congrArg some (BitVec.eq_of_toNat_eq ((toNat_append_flagBits _ rd).trans ?_))
  rw [BitVec.toNat_ofNat, BitVec.toNat_ofNat]
  omega

theorem asmSla_eq_none (a : Nat) (rd : Bool) (ha : 127 < a) : asmSla a rd = none := by
  rw [asmSla, (asmAddr7_eq_none_iff a).mpr ha, Option.map_none]

/-- A line is rejected exactly if its command is. -/
theorem assemble_eq_none_iff (l : AsmLine) : assemble l = none ↔ assembleInstr l = none := by
  rw [assemble, Option.map_eq_none_iff]

/-- The low byte of a number in 1..255 is not 0, so an assembled RECVB has a length. -/
theorem asmByte_ne_zero (n : Nat) (b : Byte) (hn : n ≠ 0) (h : asmByte n = some b) : b ≠ 0#8 := by
  unfold asmByte at h
  split at h
  · cases h
    intro h0
    have := congrArg BitVec.toNat h0
    simp at this
    omega
  · cases h

/-- Every command the assembler gives is well formed: RECVB's length 0 is rejected before (R106). -/
theorem assembleInstr_wellFormed (l : AsmLine) (i : Instr) (h : assembleInstr l = some i) :
    i.wellFormed = true := by
  cases l with
  | recvb a n =>
    by_cases hn : n = 0
    · rw [assembleInstr, if_pos hn] at h
      cases h
    · rw [assembleInstr, if_neg hn] at h
      obtain ⟨x, -, h⟩ := Option.bind_eq_some_iff.mp h
      obtain ⟨b, hb, rfl⟩ := Option.map_eq_some_iff.mp h
      simpa [Instr.wellFormed] using asmByte_ne_zero n b hn hb
  | sendb a n =>
    obtain ⟨x, -, h⟩ := Option.bind_eq_some_iff.mp h
    obtain ⟨b, -, rfl⟩ := Option.map_eq_some_iff.mp h
    rfl
  | send1 a n =>
    obtain ⟨x, -, h⟩ := Option.bind_eq_some_iff.mp h
    obtain ⟨b, -, rfl⟩ := Option.map_eq_some_iff.mp h
    rfl
  | start | stop | rstart | recover | recv _ => cases h; rfl
  | config _ _ | role _ _ _ | addr _ | data _ | slaw _ | slar _ =>
    obtain ⟨x, -, rfl⟩ := Option.map_eq_some_iff.mp h
    rfl

end Sys2Proof

namespace Sys2Proof.Machine

/-! ## The statements -/

/-- Settles O1: `decodeCommand_encode`, format by format. -/
theorem decodeOfEncode : Obligations.DecodeOfEncode :=
  decodeCommand_encode

/-- Settles O2: each format's fields, put back in place, are the word. -/
theorem encodeOfDecode : Obligations.EncodeOfDecode :=
  encode_of_decodeCommand

/-- Settles O4: each line and each word is computed. -/
theorem exampleWordsDecode : Obligations.ExampleWordsDecode := by
  unfold Obligations.ExampleWordsDecode
  decide

/-- Settles O5: an assembled word is that of a well-formed command and is read back; a line is rejected where an
operand is; SLAW and SLAR are ADDR of the SLA byte. -/
theorem assembledLinesDecode : Obligations.AssembledLinesDecode := by
  refine ⟨fun l w h => ?accepted, fun n => ?addr, fun n => ?data, fun a n => ?sendb, fun a n => ?send1,
    fun a n => ?recvb, fun p c => ?config, fun r gc n => ?roleOwn, fun r gc => ?roleNone, fun a ha => ?sla,
    fun a ha => ?slaRange, rfl, rfl⟩
  case accepted =>
    obtain ⟨i, hi, rfl⟩ := Option.map_eq_some_iff.mp h
    have hw := assembleInstr_wellFormed l i hi
    exact ⟨i, hi, hw, decodeCommand_encode i hw⟩
  case addr => rw [assemble_eq_none_iff, assembleInstr, Option.map_eq_none_iff, asmByte_eq_none_iff]
  case data => rw [assemble_eq_none_iff, assembleInstr, Option.map_eq_none_iff, asmByte_eq_none_iff]
  case sendb =>
    rw [assemble_eq_none_iff, assembleInstr, bind_map_eq_none_iff, asmAddr7_eq_none_iff, asmByte_eq_none_iff]
  case send1 =>
    rw [assemble_eq_none_iff, assembleInstr, bind_map_eq_none_iff, asmAddr7_eq_none_iff, asmByte_eq_none_iff]
  case recvb =>
    rw [assemble_eq_none_iff, assembleInstr]
    split
    case isTrue hn => simp [hn]
    case isFalse hn =>
      rw [bind_map_eq_none_iff, asmAddr7_eq_none_iff, asmByte_eq_none_iff, or_iff_right hn]
  case config =>
    rw [assemble_eq_none_iff, assembleInstr, Option.map_eq_none_iff, asmPrescaler_eq_none_iff]
  case roleOwn =>
    rw [assemble_eq_none_iff, assembleInstr, Option.map_eq_none_iff, asmOwn, asmByte_eq_none_iff]
  case roleNone =>
    rw [assemble_eq_none_iff, assembleInstr, Option.map_eq_none_iff, asmOwn_none_eq_none_iff]
  case sla =>
    simp [assemble, assembleInstr, asmSla_eq_asmByte a _ ha]
  case slaRange =>
    simp [assemble, assembleInstr, asmSla_eq_none a _ ha]

end Sys2Proof.Machine
end

section
/-! PROOFS. The turns of a step (spec/20_memory.md R61 to R63, R72) and reset (70_reset_and_hazards.md R230 to R232):
the command a step runs, the places the host cannot write, TXBUF, and the state a reset leaves. -/

namespace Sys2Proof.Machine

/-! ## The command a step runs -/

theorem sequencerStep_of_busy (s : State) (i : Instr) (hb : s.busy = true) (hd : decodeCommand s.cur = .ok i) :
    sequencerStep s = exec i s := by
  rw [sequencerStep, if_pos hb, hd]

theorem sequencerStep_of_idle (s : State) (hb : s.busy = false) : sequencerStep s = .next s := by
  rw [sequencerStep, if_neg (by simp [hb])]

theorem step_of_no_turns (s : State) (ht : s.turns = []) : step s = sequencerStep s := by
  rw [step, ht]

theorem step_sequencer (s : State) (rest : List Turn) (ht : s.turns = .sequencer :: rest) :
    step s = sequencerStep { s with turns := rest } := by
  rw [step, ht]; rfl

theorem step_reset (s : State) (rest : List Turn) (ht : s.turns = .reset :: rest) :
    step s = .next { s with turns := rest }.resetBlock := by
  rw [step, ht]; rfl

/-- A CMD write to an idle block runs the accept step of the command issued (R62). -/
theorem step_cmdWrite (s : State) (w : Word) (i : Instr) (rest : List Turn) (hb : s.busy = false)
    (hd : decodeCommand w = .ok i) (ht : s.turns = .host (cmdWrite s.cfg w) :: rest) :
    step s = exec i { s with turns := rest } := by
  rw [step_host_write s _ 4 w rest .cmd ht (hostPlace_cmd s.cfg)]
  exact issueCommand_of_ok w _ i hb hd

/-- The command placed is the next one issued, to the block made idle (log 15). -/
theorem step_withFetchWord (s : State) (i : Instr) (hw : i.wellFormed = true) :
    step (s.withFetchWord 32 (encode i).toNat) = exec i { s with busy := false, frame := Frame.start } := by
  have hword : BitVec.ofNat 32 ((encode i).toNat % 2 ^ 32) = encode i := by
    rw [Nat.mod_eq_of_lt (encode i).isLt, BitVec.ofNat_toNat, BitVec.setWidth_eq]
  exact step_cmdWrite _ (encode i) i s.turns rfl (decodeCommand_encode i hw) (by simp only [State.withFetchWord, hword])

/-- Settles O6: a turn runs the command that its word, or the latched one, decodes to. -/
theorem stepRunsDecodedCommand : Obligations.StepRunsDecodedCommand := by
  refine ⟨step_cmdWrite, fun s i rest hb hd ht => ?turn, fun s i hb hd ht => ?noTurn, step_withFetchWord⟩
  case turn => exact (step_sequencer s rest ht).trans (sequencerStep_of_busy _ i hb hd)
  case noTurn => exact (step_of_no_turns s ht).trans (sequencerStep_of_busy s i hb hd)

/-- Settles O16: a sequencer's step of an idle block is a wait. -/
theorem idleBlockWaits : Obligations.IdleBlockWaits := by
  refine fun s hb => ⟨fun ht => ?noTurn, fun rest ht => ?turn⟩
  case noTurn => exact (step_of_no_turns s ht).trans (sequencerStep_of_idle s hb)
  case turn => exact (step_sequencer s rest ht).trans (sequencerStep_of_idle _ hb)

/-! ## The places the host cannot write, and those that read as 0 -/

/-- CMD and TXBUF are the only places a write acts at (R61, R63). -/
theorem hostWrite_ignored (p : WindowPlace) (v : Word) (s : State) (hcmd : p ≠ .cmd) (htx : ∀ i, p ≠ .tx i) :
    hostWrite p v s = .next s := by
  cases p with
  | cmd => exact absurd rfl hcmd
  | tx i => exact absurd rfl (htx i)
  | _ => rfl

theorem windowPlace_reservedWord (z off : Nat) (ha : off % 4 = 0) (h1 : 0x00C ≤ off) (h2 : off < 0x100) :
    windowPlace z off 4 = some .reservedWord := by
  have hcmd : off ≠ 0x000 := by omega
  have hstat : off ≠ 0x004 := by omega
  have hrx : off ≠ 0x008 := by omega
  simp [windowPlace, ha, h2, hcmd, hstat, hrx]

theorem windowPlace_reservedByte (z off : Nat) (h1 : 0x300 ≤ off) (h2 : off < 0x400) :
    windowPlace z off 1 = some .reservedByte := by
  have hword : ¬ off < 0x100 := by omega
  have htx : ¬ off < 0x200 := by omega
  have hrx : ¬ off < 0x300 := by omega
  simp [windowPlace, hword, htx, hrx, h2]

/-- Settles O10: the writes reach a place, since R65 defines them, and it is neither CMD nor TXBUF; the reads reach
CMD or a reserved place, whose value is 0. -/
theorem readOnlyAndReservedPlaces : Obligations.ReadOnlyAndReservedPlaces := by
  refine fun s rest off n v => ⟨fun hoff ht => ?write, fun hoff ht => ?read⟩
  case write =>
    cases hp : hostPlace s.cfg (s.cfg.hostBase + off) n with
    | none =>
      rw [hostPlace_add, windowPlace_eq_none_iff] at hp
      omega
    | some p =>
      rw [step_host_write s _ n v rest p ht hp]
      refine hostWrite_ignored p v _ ?_ fun i hi => ?_
      · rintro rfl
        have := (hostPlace_eq_cmd _ _ _).mp hp
        omega
      · subst hi
        rw [hostPlace_add] at hp
        obtain ⟨-, hi, -⟩ := windowPlace_eq_tx _ _ _ _ hp
        have := txOffset_range i
        omega
  case read =>
    obtain ⟨rfl, ha, rfl | ⟨h1, h2⟩⟩ | ⟨rfl, h1, h2⟩ := hoff
    · exact step_host_read s _ 4 rest .cmd ht (hostPlace_cmd s.cfg)
    · exact step_host_read s _ 4 rest .reservedWord ht
        ((hostPlace_add _ _ _).trans (windowPlace_reservedWord _ off ha h1 h2))
    · exact step_host_read s _ 1 rest .reservedByte ht
        ((hostPlace_add _ _ _).trans (windowPlace_reservedByte _ off h1 h2))

/-! ## TXBUF -/

theorem hostWrite_tx_of_idle (i : Byte) (v : Word) (s : State) (hb : s.busy = false) :
    hostWrite (.tx i) v s = .next (s.writeTx i (v.setWidth 8)) :=
  congrArg Host.Outcome.next (if_neg (by simp [hb]))

/-- Settles O12: the write is the memory's own at TXBUF's offset, and the read returns the byte at that offset. -/
theorem txbufWritesAreReadBack : Obligations.TxbufWritesAreReadBack := by
  intro s rest k v hwf hk hz hb ht
  have hv : (v.setWidth 32).setWidth 8 = v := by simp
  have hoff := txOffset_ofNat k hk
  have hstep : step s = .next ({ s with turns := rest }.writeTx (BitVec.ofNat 8 k) v) := by
    rw [← hv]
    exact (step_host_write s _ 1 _ rest _ ht (hostPlace_tx s.cfg k hk hz)).trans (hostWrite_tx_of_idle _ _ _ hb)
  have hbyte := State.bufferByte_writeTx { s with turns := rest } (BitVec.ofNat 8 k) v
  rw [hoff] at hbyte
  refine ⟨_, hstep, rfl, State.writeTx_wf _ _ v hwf, ?same, fun off hne => ?other, fun rest' hrest => ?read⟩
  case same => rw [hbyte, if_pos rfl]
  case other => exact (hbyte off).trans (if_neg hne)
  case read =>
    refine (step_host_read ({ s with turns := rest }.writeTx _ v) _ 1 rest' _ hrest
      (hostPlace_tx s.cfg k hk hz)).trans ?_
    rw [State.hostValue, State.txByte, hoff, hbyte, if_pos rfl]
    rfl

/-! ## Reset -/

/-- A memory without written bytes reads as its draws (10_state.md R35). -/
theorem State.bufferByte_of_nil (s : State) (off : Nat) (hm : s.mem = []) :
    s.bufferByte off = Config.bufferByte s.resets off := by
  rw [State.bufferByte, hm, Memory.read]

/-- A reset block meets the invariant for any admitted parameters: it is idle, at the start position, in IDLE, with
empty buffers and every count at 0. -/
theorem resetBlock_inv (s : State) (hl : s.cfg.Legal) : Inv s.resetBlock where
  params := hl
  memory := rfl
  phase := rfl
  atRest _ := rfl
  running h := by cases h
  polls := Nat.zero_le _
  polling h := by cases h
  status := by simp [maskedStatus, State.resetBlock, State.reset]
  index := Nat.zero_le _

/-- Settles O14: the reset state is like a reset block, but for the count of resets. -/
theorem resetMeetsTheInvariant : Obligations.ResetMeetsTheInvariant := by
  refine ⟨?_, fun off => State.bufferByte_of_nil _ off rfl⟩
  have h := resetBlock_inv State.reset (by decide)
  exact ⟨h.params, h.memory, h.phase, h.atRest, fun hb => (by cases hb), h.polls, h.polling, h.status, h.index⟩

/-- Settles O15: the reset turn is `resetBlock`, which empties the memory and counts one reset more. -/
theorem resetTurnRestoresResetValues : Obligations.ResetTurnRestoresResetValues := by
  intro s rest ht
  exact ⟨_, step_reset s rest ht, rfl, fun off => State.bufferByte_of_nil _ off rfl⟩

end Sys2Proof.Machine
end

section
/-! PROOFS. What the commands of one kind have in common, said once: a polling primitive is `poll_step` with its own
arguments (spec/41_primitives.md R143, R146 to R158), a composed command is its transfer (42_composed.md R180 to
R189), and one step of either has few outcomes. -/

namespace Sys2Proof.Machine

/-! ## The polling primitives -/

/-- A primitive without a DATA read is `poll_step` alone. -/
theorem segmentResult_of_not_reads (p : PollArgs) (legal : Bool) (s : State) (hr : p.readsRx = false) :
    segmentResult p legal s = pollStep p legal s := by
  unfold segmentResult
  split <;> simp [*]

/-- RECV is `poll_step` and its DATA read (R156, R158). -/
theorem recvStep_eq_segmentResult (ack : Bool) (s : State) :
    recvStep ack s = segmentResult (recvArgs s.cfg ack) (recvLegal s.phase s.dir) s := by
  rcases hpoll : pollStep (recvArgs s.cfg ack) (recvLegal s.phase s.dir) s with ⟨r, t⟩
  rw [recvStep, segmentResult, hpoll]
  cases r <;> rfl

/-- A polling primitive: its arguments for the parameters, how it begins and how its order is judged. -/
structure PrimitiveShape (i : Instr) (args : Params → PollArgs) (start : State → State)
    (legal : Phase → Bool → Bool) : Prop where
  exec : ∀ s, s.busy = true → exec i s = primitiveProc (args s.cfg) start s
  start : ∀ s, start s =
    beginPoll (args s.cfg) (legal s.phase s.dir) { s with dir := primitiveDir s.dir i }
  phases : ∀ c, ((args c).pend, (args c).ok) = primitivePhases i
  pending : ∀ c, (args c).pend.pending = true
  settled : ∀ c, (args c).ok.settled = true
  writes : ∀ c, (args c).writes = primitiveWrites c i
  accepts : ∀ c, (args c).accepts = primitiveAccepts c.statusCodes i
  reads : ∀ c, (args c).readsRx = true ↔ ∃ a, i = .recv a
  noByte : ∀ c, (args c).wdata.isSome = true → (args c).readsRx = false
  allowed : ∀ c, (args c).Allowed c
  point : ∀ c f, procedurePoint f i =
    (f.point == .entry || pollPoint (args c).wdata.isSome (args c).readsRx f.point)
  result : ∀ s, commandResult i s =
    segmentResult (args s.cfg) (legal s.phase s.dir) { s with dir := primitiveDir s.dir i }

theorem startShape : PrimitiveShape .start startArgs beginStart (fun p _ => startLegal p) where
  exec := exec_start
  start _ := rfl
  phases _ := rfl
  pending _ := rfl
  settled _ := rfl
  writes _ := rfl
  accepts _ := rfl
  reads _ := by simp [startArgs]
  noByte _ _ := rfl
  allowed := startArgs_allowed
  point _ _ := rfl
  result s := (segmentResult_of_not_reads (startArgs s.cfg) _ _ rfl).symm

theorem addrShape (b : Byte) :
    PrimitiveShape (.addr b) (addrArgs · b) (beginAddr b) (fun p _ => addrLegal p) where
  exec := exec_addr b
  start _ := rfl
  phases _ := rfl
  pending _ := rfl
  settled _ := rfl
  writes _ := rfl
  accepts _ := rfl
  reads _ := by simp [addrArgs]
  noByte _ _ := rfl
  allowed c := addrArgs_allowed c b
  point _ _ := rfl
  result s := (segmentResult_of_not_reads (addrArgs s.cfg b) _ _ rfl).symm

theorem dataShape (b : Byte) :
    PrimitiveShape (.data b) (dataArgs · b) (beginData b) (fun p _ => dataLegal p) where
  exec := exec_data b
  start _ := rfl
  phases _ := rfl
  pending _ := rfl
  settled _ := rfl
  writes _ := rfl
  accepts _ := rfl
  reads _ := by simp [dataArgs]
  noByte _ _ := rfl
  allowed c := dataArgs_allowed c b
  point _ _ := rfl
  result s := (segmentResult_of_not_reads (dataArgs s.cfg b) _ _ rfl).symm

theorem recvShape (a : Bool) :
    PrimitiveShape (.recv a) (recvArgs · a) (beginRecv a) recvLegal where
  exec := exec_recv a
  start _ := rfl
  phases _ := rfl
  pending _ := rfl
  settled _ := rfl
  writes _ := rfl
  accepts _ := rfl
  reads _ := by simp [recvArgs]
  noByte _ h := by cases h
  allowed c := recvArgs_allowed c a
  point _ _ := rfl
  result s := recvStep_eq_segmentResult a s

theorem exists_primitiveShape (i : Instr) (hi : isPollingPrimitive i = true) :
    ∃ args start legal, PrimitiveShape i args start legal := by
  cases i with
  | start => exact ⟨_, _, _, startShape⟩
  | addr b => exact ⟨_, _, _, addrShape b⟩
  | data b => exact ⟨_, _, _, dataShape b⟩
  | recv a => exact ⟨_, _, _, recvShape a⟩
  | _ => cases hi

/-- One step of a polling primitive: it begins, goes on, or returns a result and finishes. -/
theorem primitiveProc_cases (p : PollArgs) (start : State → State) (s t : State)
    (h : primitiveProc p start s = .next t) :
    (s.frame.point = .entry ∧ t = start s) ∨ pollNext p s = .running t ∨
      ∃ r u, pollNext p s = .returned r u ∧ t = u.finish r := by
  unfold primitiveProc at h
  split at h
  case isTrue he =>
    cases h
    exact .inl ⟨he, rfl⟩
  case isFalse =>
    split at h
    case h_1 u hu =>
      cases h
      exact .inr (.inl hu)
    case h_2 r u hu =>
      cases h
      exact .inr (.inr ⟨r, u, hu, rfl⟩)
    case h_3 => cases h

/-! ## The composed commands -/

/-- A composed command: its transfer, how a transfer step is judged, and whether it reads DATA. -/
structure ComposedShape (i : Instr) (t : Transfer) (judge : Phase → Bool → Bool) (reads : Bool) : Prop where
  exec : ∀ s, s.busy = true → exec i s = composedProc t s
  point : ∀ f, procedurePoint f i = composedPoint reads f
  count : t.count = transferCount i
  count_le : t.count ≤ 255
  keeps : t.Keeps
  start : ∀ s, t.start s = beginPoll (t.args s) (judge s.phase s.dir) s
  pend : ∀ s, (t.args s).pend = .dataPending
  ok : ∀ s, (t.args s).ok = .dataOk
  wdata : ∀ s, (t.args s).wdata.isSome = !reads
  readsRx : ∀ s, (t.args s).readsRx = reads
  isRecvb : reads = true ↔ ∃ a n, i = .recvb a n
  allowed : ∀ s, (t.args s).Allowed s.cfg
  accepts : ∀ s, (stageArgs t s).accepts = composedAccepts s i
  args : ∀ s u, PollKept s u → t.args u = t.args s
  store : ∀ s, t.store s = if reads then s.writeRx s.bufIndex s.rxdata else s
  result : ∀ s, commandResult i s =
    composedResult t.sla t.count (fun u => segmentResult (t.args u) (judge u.phase u.dir) u) t.store s

/-- The direction bit of an SLA byte is the one it was built with (30_encoding.md R100). -/
theorem slaIsRead_slaByte (a : BitVec 7) (rd : Bool) : slaIsRead (slaByte a rd) = rd := by
  simp [slaIsRead, slaByte]

theorem addrAccepts_slaByte (c : Params) (a : BitVec 7) (rd : Bool) :
    addrAccepts c (slaByte a rd) = if rd then [c.statusCodes.slaRAck] else [c.statusCodes.slaWAck] := by
  rw [addrAccepts, slaIsRead_slaByte]

/-- The byte a send step reads depends on the index and the buffers alone. -/
theorem State.txByte_congr (s u : State) (k : PollKept s u) : u.txByte u.bufIndex = s.txByte s.bufIndex := by
  rw [State.txByte, State.txByte, State.bufIndex, State.bufIndex, k.idx]
  exact State.bufferByte_congr s u _ k.mem k.resets

theorem sendbShape (a : BitVec 7) (n : Byte) :
    ComposedShape (.sendb a n) (sendbTransfer a n) (fun p _ => dataLegal p) false where
  exec := exec_sendb a n
  point _ := rfl
  count := rfl
  count_le := Nat.le_of_lt_succ n.isLt
  keeps := sendbTransfer_keeps a n
  start _ := rfl
  pend _ := rfl
  ok _ := rfl
  wdata _ := rfl
  readsRx _ := rfl
  isRecvb := by simp
  allowed s := dataArgs_allowed s.cfg _
  accepts s := by
    unfold stageArgs composedAccepts
    cases s.frame.stage
    · rfl
    · exact addrAccepts_slaByte s.cfg a false
    · rfl
  args s u k := by
    show dataArgs u.cfg _ = dataArgs s.cfg _
    rw [k.cfg, State.txByte_congr s u k]
  store _ := rfl
  result s := by
    have hone : (fun u : State => dataStep (u.txByte u.bufIndex) u) = fun u =>
        segmentResult ((sendbTransfer a n).args u) (dataLegal u.phase) u := by
      funext u
      exact (segmentResult_of_not_reads _ _ u rfl).symm
    rw [commandResult, hone]
    rfl

theorem send1Shape (a : BitVec 7) (b : Byte) :
    ComposedShape (.send1 a b) (send1Transfer a b) (fun p _ => dataLegal p) false where
  exec := exec_send1 a b
  point _ := rfl
  count := rfl
  count_le := (by omega : 1 ≤ 255)
  keeps := send1Transfer_keeps a b
  start _ := rfl
  pend _ := rfl
  ok _ := rfl
  wdata _ := rfl
  readsRx _ := rfl
  isRecvb := by simp
  allowed s := dataArgs_allowed s.cfg b
  accepts s := by
    unfold stageArgs composedAccepts
    cases s.frame.stage
    · rfl
    · exact addrAccepts_slaByte s.cfg a false
    · rfl
  args s u k := by
    show dataArgs u.cfg b = dataArgs s.cfg b
    rw [k.cfg]
  store _ := rfl
  result s := by
    have hone : dataStep b = fun u =>
        segmentResult ((send1Transfer a b).args u) (dataLegal u.phase) u := by
      funext u
      exact (segmentResult_of_not_reads _ _ u rfl).symm
    rw [commandResult, hone]
    rfl

theorem recvbShape (a : BitVec 7) (n : Byte) :
    ComposedShape (.recvb a n) (recvbTransfer a n) recvLegal true where
  exec := exec_recvb a n
  point _ := rfl
  count := rfl
  count_le := Nat.le_of_lt_succ n.isLt
  keeps := recvbTransfer_keeps a n
  start _ := rfl
  pend _ := rfl
  ok _ := rfl
  wdata _ := rfl
  readsRx _ := rfl
  isRecvb := by simp
  allowed s := recvArgs_allowed s.cfg _
  accepts s := by
    unfold stageArgs composedAccepts
    cases s.frame.stage
    · rfl
    · exact addrAccepts_slaByte s.cfg a true
    · show recvAccepts s.cfg (recvbAck s.idx n) = _
      simp [recvAccepts, recvbAck]
  args s u k := by
    show recvArgs u.cfg (recvbAck u.idx n) = recvArgs s.cfg (recvbAck s.idx n)
    rw [k.cfg, k.idx]
  store _ := rfl
  result s := by
    have hone : (fun u : State => recvStep (recvbAck u.idx n) u) = fun u =>
        segmentResult ((recvbTransfer a n).args u) (recvLegal u.phase u.dir) u := by
      funext u
      exact recvStep_eq_segmentResult _ u
    rw [commandResult, hone]
    rfl

theorem exists_composedShape (i : Instr) (hi : isComposed i = true) :
    ∃ t judge reads, ComposedShape i t judge reads := by
  cases i with
  | sendb a n => exact ⟨_, _, _, sendbShape a n⟩
  | send1 a b => exact ⟨_, _, _, send1Shape a b⟩
  | recvb a n => exact ⟨_, _, _, recvbShape a n⟩
  | _ => cases hi

/-- One step of a composed command: it begins, finishes after the stop, goes on in its polling step, or does what
follows that step's result. -/
theorem composedProc_cases (tr : Transfer) (s t : State) (h : composedProc tr s = .next t) :
    (s.frame.point = .entry ∧ t = beginComposed s) ∨ (s.frame.point = .stopped ∧ t = endStop s) ∨
      pollNext (stageArgs tr s) s = .running t ∨
      ∃ r u, pollNext (stageArgs tr s) s = .returned r u ∧ t = stageReturned tr s.frame.stage r u := by
  unfold composedProc at h
  split at h
  case isTrue he =>
    cases h
    exact .inl ⟨he, rfl⟩
  case isFalse =>
    split at h
    case isTrue hs =>
      cases h
      exact .inr (.inl ⟨hs, rfl⟩)
    case isFalse =>
      split at h
      case h_1 u hu =>
        cases h
        exact .inr (.inr (.inl hu))
      case h_2 r u hu =>
        cases h
        exact .inr (.inr (.inr ⟨r, u, hu, rfl⟩))
      case h_3 => cases h

theorem composedProc_entry (tr : Transfer) (s : State) (hp : s.frame.point = .entry) :
    composedProc tr s = .next (beginComposed s) :=
  if_pos hp

theorem composedProc_stopped (tr : Transfer) (s : State) (hp : s.frame.point = .stopped) :
    composedProc tr s = .next (endStop s) := by
  rw [composedProc, if_neg (by simp [hp]), if_pos hp]

theorem composedProc_running (tr : Transfer) (s t : State) (h : pollNext (stageArgs tr s) s = .running t) :
    composedProc tr s = .next t := by
  obtain ⟨he, hs⟩ := pollNext_point (stageArgs tr s) s (by simp [h])
  rw [composedProc, if_neg he, if_neg hs, h]

theorem composedProc_returned (tr : Transfer) (s t : State) (r : Result)
    (h : pollNext (stageArgs tr s) s = .returned r t) :
    composedProc tr s = .next (stageReturned tr s.frame.stage r t) := by
  obtain ⟨he, hs⟩ := pollNext_point (stageArgs tr s) s (by simp [h])
  rw [composedProc, if_neg he, if_neg hs, h]

/-! ## The other commands -/

/-- The commands are of five kinds: CONFIG, ROLE, STOP, the polling primitives and the composed commands. -/
theorem instr_kinds (i : Instr) :
    (∃ ps spd, i = .config ps spd) ∨ (∃ r gc own, i = .role r gc own) ∨ i = .stop ∨
      isPollingPrimitive i = true ∨ isComposed i = true := by
  cases i <;> simp [isPollingPrimitive, isComposed]

/-- One step of CONFIG (40_configuration.md R123). -/
theorem configProc_cases (ps : BitVec 2) (spd : SpeedClass) (s t : State) (h : configProc ps spd s = .next t) :
    (s.frame.point = .entry ∧ t = s.checkIdle.callWrite .prescale (prescaleByte ps) .wrotePrescale) ∨
    (s.frame.point = .wrotePrescale ∧ t = s.callWrite .bitrate (bitrateByte s.cfg ps spd) .wroteBitrate) ∨
    (s.frame.point = .wroteBitrate ∧ t = { s with init := true }.finish .success) := by
  unfold configProc at h
  split at h
  case h_1 hp =>
    cases h
    exact .inl ⟨hp, rfl⟩
  case h_2 hp =>
    cases h
    exact .inr (.inl ⟨hp, rfl⟩)
  case h_3 hp =>
    cases h
    exact .inr (.inr ⟨hp, rfl⟩)
  all_goals cases h

/-- One step of ROLE (R130 to R132). -/
theorem roleProc_cases (r : Role) (gc : Bool) (own : Byte) (s t : State) (h : roleProc r gc own s = .next t) :
    (s.frame.point = .entry ∧ roleIsSlave r = false ∧ t = (s.recordRole r own).finish .success) ∨
    (s.frame.point = .entry ∧ roleIsSlave r = true ∧
      t = (s.recordRole r own).callWrite .ownaddr (ownAddrByte own gc) .wroteOwnAddr) ∨
    (s.frame.point = .wroteOwnAddr ∧ roleIsSlave r = true ∧
      t = s.callWrite .ctrl s.cfg.ctrl.slave .wroteSlaveCtrl) ∨
    (s.frame.point = .wroteSlaveCtrl ∧ roleIsSlave r = true ∧ t = s.finish .success) := by
  unfold roleProc at h
  split at h
  case h_1 hp =>
    split at h
    case isTrue hr =>
      cases h
      exact .inr (.inl ⟨hp, hr, rfl⟩)
    case isFalse hr =>
      cases h
      exact .inl ⟨hp, by simpa using hr, rfl⟩
  case h_2 hp =>
    split at h <;> cases h
    rename_i hr
    exact .inr (.inr (.inl ⟨hp, hr, rfl⟩))
  case h_3 hp =>
    split at h <;> cases h
    rename_i hr
    exact .inr (.inr (.inr ⟨hp, hr, rfl⟩))
  all_goals cases h

/-- One step of STOP (41_primitives.md R162). -/
theorem stopProc_cases (s t : State) (h : stopProc s = .next t) :
    (s.frame.point = .entry ∧ t = beginStop .success s) ∨ (s.frame.point = .stopped ∧ t = endStop s) := by
  unfold stopProc at h
  split at h
  case h_1 hp =>
    cases h
    exact .inl ⟨hp, rfl⟩
  case h_2 hp =>
    cases h
    exact .inr ⟨hp, rfl⟩
  all_goals cases h

end Sys2Proof.Machine
end

section
/-! PROOFS. ROLE (spec/40_configuration.md R130 to R132), the reference divisors (R128), and what every kind of command
leaves alone (10_state.md R41). -/

namespace Sys2Proof.Machine

/-! ## ROLE -/

theorem accept_role_of_init (r : Role) (gc : Bool) (own : Byte) (s : State) (hi : s.init = true) :
    accept (.role r gc own) s = s.latchCommand (encode (.role r gc own)) :=
  accept_latches _ s rfl (by simp [hi]) rfl

/-- A value shifted left by one with a bit below it is twice the value plus the bit, where there is room. -/
theorem toNat_shiftLeft_one_or_ofBool {n : Nat} (w : Nat) (x : BitVec n) (b : Bool) (hw : n < w) :
    (x.setWidth w <<< 1 ||| (BitVec.ofBool b).setWidth w).toNat = 2 * x.toNat + b.toNat := by
  have hx : 2 * x.toNat < 2 ^ w := by
    have hlt := x.isLt
    have hpow : 2 ^ (n + 1) ≤ 2 ^ w := Nat.pow_le_pow_right (by omega) hw
    rw [Nat.pow_succ] at hpow
    omega
  have hshift : (x.setWidth w <<< 1).toNat = x.toNat <<< 1 := by
    rw [BitVec.toNat_shiftLeft, BitVec.toNat_setWidth, Nat.mod_eq_of_lt (by omega : x.toNat < 2 ^ w),
      Nat.shiftLeft_eq, Nat.mod_eq_of_lt (by omega)]
  have hbit : ((BitVec.ofBool b).setWidth w).toNat = b.toNat := by
    rw [BitVec.toNat_setWidth, BitVec.toNat_ofBool, Nat.mod_eq_of_lt]
    exact lt_of_le_of_lt (Bool.toNat_le b) (Nat.one_lt_two_pow (by omega))
  rw [BitVec.toNat_or, hshift, hbit, ← Nat.shiftLeft_add_eq_or_of_lt (Bool.toNat_lt b), Nat.shiftLeft_eq, Nat.mul_comm]

/-- The OWNADDR byte (R130). -/
theorem ownAddrByte_toNat (own : Byte) (gc : Bool) :
    (ownAddrByte own gc).toNat = (2 * own.toNat + gc.toNat) % 256 := by
  rw [ownAddrByte, BitVec.toNat_setWidth, toNat_shiftLeft_one_or_ofBool 9 own gc (by omega)]

/-- The SLA byte (30_encoding.md R100). -/
theorem slaByte_toNat (a : BitVec 7) (rd : Bool) : (slaByte a rd).toNat = 2 * a.toNat + rd.toNat :=
  toNat_shiftLeft_one_or_ofBool 8 a rd (by omega)

theorem exec_role_entry_slave (r : Role) (gc : Bool) (own : Byte) (s : State) (hb : s.busy = true)
    (hp : s.frame.point = .entry) (hr : roleIsSlave r = true) :
    exec (.role r gc own) s =
      .next ((s.recordRole r own).callWrite .ownaddr (ownAddrByte own gc) .wroteOwnAddr) := by
  simp [exec_role r gc own s hb, roleProc, hp, hr]

theorem exec_role_entry_master (r : Role) (gc : Bool) (own : Byte) (s : State) (hb : s.busy = true)
    (hp : s.frame.point = .entry) (hr : roleIsSlave r = false) :
    exec (.role r gc own) s = .next ((s.recordRole r own).finish .success) := by
  simp [exec_role r gc own s hb, roleProc, hp, hr]

theorem exec_role_wroteOwnAddr (r : Role) (gc : Bool) (own : Byte) (s : State) (hb : s.busy = true)
    (hp : s.frame.point = .wroteOwnAddr) (hr : roleIsSlave r = true) :
    exec (.role r gc own) s = .next (s.callWrite .ctrl s.cfg.ctrl.slave .wroteSlaveCtrl) := by
  simp [exec_role r gc own s hb, roleProc, hp, hr]

theorem exec_role_wroteSlaveCtrl (r : Role) (gc : Bool) (own : Byte) (s : State) (hb : s.busy = true)
    (hp : s.frame.point = .wroteSlaveCtrl) (hr : roleIsSlave r = true) :
    exec (.role r gc own) s = .next (s.finish .success) := by
  simp [exec_role r gc own s hb, roleProc, hp, hr]

/-- Settles O20: accepted, then the three steps of a slave role, each from the position the one before it leaves. -/
theorem slaveRoleWritesTwoRegisters : Obligations.SlaveRoleWritesTwoRegisters := by
  intro s r gc own hb hi hr
  have hslave : roleIsSlave r = true := by obtain rfl | rfl := hr <;> rfl
  have haccept : exec (.role r gc own) s = .next (s.latchCommand (encode (.role r gc own))) := by
    rw [exec_idle _ s hb, accept_role_of_init r gc own s hi]
  refine ⟨_, _, _, ownAddrByte own gc, haccept, exec_role_entry_slave r gc own _ (by simp) rfl hslave,
    exec_role_wroteOwnAddr r gc own _ (by simp) (by simp) hslave, ownAddrByte_toNat own gc, ?_⟩
  rw [exec_role_wroteSlaveCtrl r gc own _ (by simp) (by simp) hslave]
  simp [State.finish, State.callWrite, State.portWrite, State.goto, State.recordRole, State.checkIdle,
    State.raiseSeqErr, State.latchCommand, hb, hslave, bne, beq_eq_decide]

/-- Settles O21: accepted, then the one step of a master role. -/
theorem masterRoleOnlyRecordsTheRole : Obligations.MasterRoleOnlyRecordsTheRole := by
  intro s r gc own hb hi hr
  have hmaster : roleIsSlave r = false := by obtain rfl | rfl := hr <;> rfl
  have haccept : exec (.role r gc own) s = .next (s.latchCommand (encode (.role r gc own))) := by
    rw [exec_idle _ s hb, accept_role_of_init r gc own s hi]
  refine ⟨_, haccept, ?_⟩
  rw [exec_role_entry_master r gc own _ (by simp) rfl hmaster]
  simp [State.finish, State.recordRole, State.checkIdle, State.raiseSeqErr, State.latchCommand, hb, hmaster,
    bne, beq_eq_decide]

/-- Settles O17: each divisor is computed. -/
theorem referenceDivisors : Obligations.ReferenceDivisors := by
  unfold Obligations.ReferenceDivisors
  decide

/-! ## What the accept step leaves alone -/

/-- The accept step writes RESULT, or latches the command: nothing else (30_encoding.md R104). -/
theorem accept_frame (i : Instr) (s : State) :
    accept i s = { s with
      result := (accept i s).result, cur := (accept i s).cur, busy := (accept i s).busy,
      frame := (accept i s).frame } := by
  obtain ⟨r, h, -⟩ | ⟨h, -⟩ := accept_cases i s <;> rw [h] <;> rfl

/-- A command's step is its accept step or one of its procedure. -/
theorem exec_next_cases (i : Instr) (s t : State) (h : exec i s = .next t) :
    s.busy = false ∧ t = accept i s ∨ s.busy = true := by
  cases hb : s.busy
  · rw [exec_idle i s hb] at h
    exact .inl ⟨rfl, (Host.Outcome.next.inj h).symm⟩
  · exact .inr rfl

/-! ## CONFIG and ROLE -/

/-- The fields neither CONFIG nor ROLE writes. -/
structure SetupKept (s t : State) : Prop where
  cfg        : t.cfg = s.cfg
  phase      : t.phase = s.phase
  dir        : t.dir = s.dir
  pollCount  : t.pollCount = s.pollCount
  lastStatus : t.lastStatus = s.lastStatus
  rxdata     : t.rxdata = s.rxdata
  overrun    : t.overrun = s.overrun
  idx        : t.idx = s.idx
  mem        : t.mem = s.mem
  turns      : t.turns = s.turns
  answers    : t.answers = s.answers
  draws      : t.draws = s.draws
  resets     : t.resets = s.resets
  hostReads  : t.hostReads = s.hostReads
  cur        : s.busy = true → t.cur = s.cur

theorem accept_setupKept (i : Instr) (s : State) (hb : s.busy = false) : SetupKept s (accept i s) := by
  rw [accept_frame]
  exact ⟨rfl, rfl, rfl, rfl, rfl, rfl, rfl, rfl, rfl, rfl, rfl, rfl, rfl, rfl, fun h => by simp [hb] at h⟩

theorem configProc_setupKept (ps : BitVec 2) (spd : SpeedClass) (s t : State) (h : configProc ps spd s = .next t) :
    SetupKept s t ∧ t.role = s.role ∧ t.ownAddr = s.ownAddr := by
  obtain ⟨-, rfl⟩ | ⟨-, rfl⟩ | ⟨-, rfl⟩ := configProc_cases ps spd s t h
  all_goals
    exact ⟨⟨rfl, rfl, rfl, rfl, rfl, rfl, rfl, rfl, rfl, rfl, rfl, rfl, rfl, rfl, fun _ => rfl⟩, rfl, rfl⟩

theorem roleProc_setupKept (r : Role) (gc : Bool) (own : Byte) (s t : State)
    (h : roleProc r gc own s = .next t) :
    SetupKept s t ∧ (roleIsSlave r = false → t.ownAddr = s.ownAddr) := by
  obtain ⟨-, hr, rfl⟩ | ⟨-, hr, rfl⟩ | ⟨-, hr, rfl⟩ | ⟨-, hr, rfl⟩ := roleProc_cases r gc own s t h
  all_goals
    exact ⟨⟨rfl, rfl, rfl, rfl, rfl, rfl, rfl, rfl, rfl, rfl, rfl, rfl, rfl, rfl, fun _ => rfl⟩,
      fun hm => by simp [hm] at hr ⊢⟩

/-- CONFIG keeps role and own address; ROLE keeps `init`, and with a master role the own address. -/
theorem exec_setupKept (s t : State) (i : Instr)
    (hi : (∃ ps spd, i = .config ps spd) ∨ ∃ r gc own, i = .role r gc own) (h : exec i s = .next t) :
    SetupKept s t ∧ ((∀ ps spd, i ≠ .config ps spd) → t.init = s.init) ∧
      ((∀ r gc own, i ≠ .role r gc own) → t.role = s.role ∧ t.ownAddr = s.ownAddr) ∧
      (∀ r gc own, i = .role r gc own → roleIsSlave r = false → t.ownAddr = s.ownAddr) := by
  obtain ⟨hb, rfl⟩ | hb := exec_next_cases i s t h
  · refine ⟨accept_setupKept i s hb, ?_⟩
    rw [accept_frame]
    exact ⟨fun _ => rfl, fun _ => ⟨rfl, rfl⟩, fun _ _ _ _ _ => rfl⟩
  · obtain ⟨ps, spd, rfl⟩ | ⟨r, gc, own, rfl⟩ := hi
    · obtain ⟨hk, hrole⟩ := configProc_setupKept ps spd s t (exec_config ps spd s hb ▸ h)
      exact ⟨hk, fun hc => absurd rfl (hc ps spd), fun _ => hrole, fun _ _ _ he => by cases he⟩
    · have hproc := exec_role r gc own s hb ▸ h
      obtain ⟨hk, hown⟩ := roleProc_setupKept r gc own s t hproc
      refine ⟨hk, fun _ => roleProc_init r gc own s t hproc, fun hr => absurd rfl (hr r gc own),
        fun _ _ _ he => ?_⟩
      cases he
      exact hown

/-- Settles O42: `exec_setupKept`, with the buffers read from the memory that is kept. -/
theorem configurationFrame : Obligations.ConfigurationFrame := by
  intro s t i hi h
  obtain ⟨k, hinit, hrole, hown⟩ := exec_setupKept s t i hi h
  exact ⟨k.cfg, k.phase, k.dir, k.pollCount, k.lastStatus, k.rxdata, k.overrun, k.idx, k.turns, k.answers, k.draws,
    k.resets, k.hostReads, fun off => State.bufferByte_congr s t off k.mem k.resets, hinit, hrole, hown, k.cur⟩

/-! ## The primitives -/

theorem PollKept.trans {s t u : State} (h : PollKept s t) (g : PollKept t u) : PollKept s u :=
  ⟨h.toKept.trans g.toKept, g.idx.trans h.idx, g.mem.trans h.mem⟩

theorem finish_pollKept (r : Result) (s : State) : PollKept s (s.finish r) :=
  ⟨finish_kept r s, rfl, rfl⟩

/-- A running polling primitive: only ADDR writes the direction, only RECV `rxdata`. -/
theorem primitive_pollKept (i : Instr) (hi : isPollingPrimitive i = true) (s t : State) (hb : s.busy = true)
    (h : exec i s = .next t) :
    PollKept s t ∧ ((∀ b, i ≠ .addr b) → t.dir = s.dir) ∧ ((∀ a, i ≠ .recv a) → t.rxdata = s.rxdata) := by
  obtain ⟨args, start, legal, sh⟩ := exists_primitiveShape i hi
  have hrx : (∀ a, i ≠ .recv a) → (args s.cfg).readsRx ≠ true := fun hn hr =>
    have ⟨a, ha⟩ := (sh.reads s.cfg).mp hr
    hn a ha
  have later : ∀ u, (pollNext (args s.cfg) s = .running u ∨ ∃ r, pollNext (args s.cfg) s = .returned r u) →
      PollKept s u ∧ u.dir = s.dir ∧ ((∀ a, i ≠ .recv a) → u.rxdata = s.rxdata) := fun u hu =>
    have ⟨k, hdir, _, _, _, _, hx⟩ := pollNext_kept _ s u hu
    ⟨k, hdir, fun hn => hx.resolve_right fun hr => hrx hn hr.1⟩
  obtain ⟨-, rfl⟩ | hu | ⟨r, u, hu, rfl⟩ := primitiveProc_cases _ _ s t (sh.exec s hb ▸ h)
  · rw [sh.start, beginPoll_eq]
    refine ⟨⟨⟨rfl, rfl, rfl, rfl, rfl, rfl, rfl, rfl, rfl⟩, rfl, rfl⟩, fun hn => ?_, fun _ => rfl⟩
    cases i with
    | addr b => exact absurd rfl (hn b)
    | _ => rfl
  · obtain ⟨k, hdir, hx⟩ := later t (.inl hu)
    exact ⟨k, fun _ => hdir, hx⟩
  · obtain ⟨k, hdir, hx⟩ := later u (.inr ⟨r, hu⟩)
    exact ⟨k.trans (finish_pollKept r u), fun _ => hdir, hx⟩

/-- Settles O41: at accept only RESULT or the latch is written; a running STOP writes the phase, the trace and its
completion; a running polling primitive keeps what `primitive_pollKept` says. -/
theorem primitiveFrame : Obligations.PrimitiveFrame := by
  intro s t i hi h
  obtain ⟨hb, rfl⟩ | hb := exec_next_cases i s t h
  · rw [accept_frame]
    exact ⟨rfl, rfl, rfl, rfl, rfl, rfl, rfl, rfl, rfl, fun _ => rfl, fun _ => rfl, fun _ => rfl,
      fun _ => ⟨rfl, rfl, rfl, rfl, rfl⟩, fun hbusy => by simp [hb] at hbusy⟩
  · obtain hi | rfl := hi
    · obtain ⟨k, hdir, hx⟩ := primitive_pollKept i hi s t hb h
      exact ⟨k.cfg, k.init, k.role, k.ownAddr, k.overrun, k.idx, k.turns, k.resets, k.hostReads,
        fun off => State.bufferByte_congr s t off k.mem k.resets, hdir, hx,
        fun hs => (by rw [hs] at hi; cases hi), fun _ => k.cur⟩
    · obtain ⟨-, rfl⟩ | ⟨-, rfl⟩ := stopProc_cases s t (exec_stop s hb ▸ h)
      all_goals
        exact ⟨rfl, rfl, rfl, rfl, rfl, rfl, rfl, rfl, rfl, fun _ => rfl, fun _ => rfl, fun _ => rfl,
          fun _ => ⟨rfl, rfl, rfl, rfl, rfl⟩, fun _ => rfl⟩

/-! ## The composed commands -/

/-- Which stages send a byte, and which read one. -/
theorem ComposedShape.stagePoint_eq {i : Instr} {tr : Transfer} {judge : Phase → Bool → Bool} {reads : Bool}
    (sh : ComposedShape i tr judge reads) (s : State) (p : Point) :
    pollPoint (stageArgs tr s).wdata.isSome (stageArgs tr s).readsRx p =
      stagePoint reads { s.frame with point := p } := by
  unfold stageArgs stagePoint
  cases s.frame.stage
  · rfl
  · rfl
  · simp [sh.wdata, sh.readsRx]

theorem ComposedShape.stageArgs_readsRx {i : Instr} {tr : Transfer} {judge : Phase → Bool → Bool} {reads : Bool}
    (sh : ComposedShape i tr judge reads) (s : State) :
    (stageArgs tr s).readsRx = true ↔ s.frame.stage = .transfer ∧ reads = true := by
  unfold stageArgs
  cases s.frame.stage <;> simp [startArgs, addrArgs, sh.readsRx]

/-- The memory after a composed command's step: RECVB's store of the byte read, in the step after its DATA read, or
the memory before (42_composed.md R188). -/
theorem composed_mem {i : Instr} {tr : Transfer} {judge : Phase → Bool → Bool} {reads : Bool}
    (sh : ComposedShape i tr judge reads) (s t : State) (h : composedProc tr s = .next t) :
    t.mem = if reads = true ∧ s.frame.point = .gotData ∧ s.frame.stage = .transfer then
      (s.writeRx s.bufIndex s.frame.ret).mem else s.mem := by
  obtain ⟨hp, rfl⟩ | ⟨hp, rfl⟩ | hu | ⟨r, u, hu, rfl⟩ := composedProc_cases tr s t h
  · rw [if_neg (by simp [hp])]
    obtain ⟨-, -, -, hm, -⟩ := beginComposed_kept s
    exact hm
  · rw [if_neg (by simp [hp])]
    rfl
  · obtain ⟨k, -⟩ := pollNext_kept _ s t (.inl hu)
    rw [k.mem, if_neg]
    rintro ⟨hr, hp, hg⟩
    rw [pollNext_gotData _ s hp ((sh.stageArgs_readsRx s).mpr ⟨hg, hr⟩)] at hu
    cases hu
  · obtain ⟨k, -, -, -, -, -, hx⟩ := pollNext_kept _ s u (.inr ⟨r, hu⟩)
    obtain ⟨-, -, hm⟩ := stageReturned_kept tr sh.keeps s.frame.stage r u
    rw [hm, sh.store]
    by_cases hread : reads = true ∧ s.frame.point = .gotData ∧ s.frame.stage = .transfer
    · obtain ⟨hr, hp, hg⟩ := hread
      rw [pollNext_gotData _ s hp ((sh.stageArgs_readsRx s).mpr ⟨hg, hr⟩)] at hu
      cases hu
      rw [if_pos ⟨hg, rfl⟩, if_pos hr, if_pos ⟨hr, hp, hg⟩]
      rfl
    · rw [if_neg hread, ← k.mem]
      split
      case isFalse => rfl
      case isTrue hs =>
        obtain ⟨hg, rfl⟩ := hs
        rw [if_neg]
        intro hr
        obtain ⟨hnr, -⟩ | ⟨-, hp⟩ := pollNext_success _ s u hu
        · rw [(sh.stageArgs_readsRx s).mpr ⟨hg, hr⟩] at hnr
          cases hnr
        · exact hread ⟨hr, hp, hg⟩

/-- SENDB and SEND1 leave `rxdata` alone. -/
theorem composed_rxdata {i : Instr} {tr : Transfer} {judge : Phase → Bool → Bool}
    (sh : ComposedShape i tr judge false) (s t : State) (h : composedProc tr s = .next t) :
    t.rxdata = s.rxdata := by
  have hnr : (stageArgs tr s).readsRx ≠ true := fun hr => by simpa using (sh.stageArgs_readsRx s).mp hr
  obtain ⟨-, rfl⟩ | ⟨-, rfl⟩ | hu | ⟨r, u, hu, rfl⟩ := composedProc_cases tr s t h
  · obtain ⟨-, -, hrx, -⟩ := beginComposed_kept s
    exact hrx
  · rfl
  · obtain ⟨-, -, -, -, -, -, hx⟩ := pollNext_kept _ s t (.inl hu)
    exact hx.resolve_right fun hr => hnr hr.1
  · obtain ⟨-, -, -, -, -, -, hx⟩ := pollNext_kept _ s u (.inr ⟨r, hu⟩)
    obtain ⟨-, hrx, -⟩ := stageReturned_kept tr sh.keeps s.frame.stage r u
    exact hrx.trans (hx.resolve_right fun hr => hnr hr.1)

/-- Settles O43: at accept only RESULT or the latch is written; a running composed command keeps what the frame laws
say, and its memory is `composed_mem`'s. -/
theorem composedFrame : Obligations.ComposedFrame := by
  intro s t i hi h
  obtain ⟨hb, rfl⟩ | hb := exec_next_cases i s t h
  · have hstore : recvbStore s = none := by simp [recvbStore, hb]
    rw [accept_frame]
    exact ⟨rfl, rfl, rfl, rfl, rfl, rfl, rfl, rfl, fun hbusy => by simp [hb] at hbusy,
      fun _ => ⟨rfl, fun _ => rfl⟩, fun _ _ _ => ⟨fun _ _ => rfl, fun o ho => by simp [hstore] at ho⟩⟩
  · obtain ⟨tr, judge, reads, sh⟩ := exists_composedShape i hi
    have hproc := sh.exec s hb ▸ h
    have k := composedProc_kept tr sh.keeps s t hproc
    have hmem := composed_mem sh s t hproc
    refine ⟨k.cfg, k.init, k.role, k.ownAddr, k.overrun, k.turns, k.resets, k.hostReads, fun _ => k.cur,
      fun hn => ?send, fun a n hr => ⟨fun hnone off => ?recvNone, fun o ho => ?recvStore⟩⟩
    case send =>
      cases reads with
      | false => exact ⟨composed_rxdata sh s t hproc,
          fun off => State.bufferByte_congr s t off (hmem.trans (if_neg (by simp))) k.resets⟩
      | true =>
        obtain ⟨a, n, hr⟩ := sh.isRecvb.mp rfl
        exact absurd hr (hn a n)
    case recvNone =>
      refine State.bufferByte_congr s t off (hmem.trans (if_neg fun hg => ?_)) k.resets
      simp [recvbStore, hb, hg] at hnone
    case recvStore =>
      have hread : reads = true := sh.isRecvb.mpr ⟨a, n, hr⟩
      have hpos : s.frame.point = .gotData ∧ s.frame.stage = .transfer := by
        by_contra hpos
        simp [recvbStore, hb, hpos] at ho
      obtain rfl : rxOffset s.bufIndex = o := by simpa [recvbStore, hb, hpos] using ho
      have hbyte : ∀ off, t.bufferByte off = (s.writeRx s.bufIndex s.frame.ret).bufferByte off := fun off =>
        State.bufferByte_congr _ t off (hmem.trans (if_pos ⟨hread, hpos⟩)) k.resets
      exact ⟨(hbyte _).trans ((State.bufferByte_writeRx ..).trans (if_pos rfl)),
        fun off hne => (hbyte off).trans ((State.bufferByte_writeRx ..).trans (if_neg hne))⟩

end Sys2Proof.Machine
end

section
/-! PROOFS. What every step of the machine keeps to: the fault bits are sticky (spec/10_state.md R33), RESULT changes at
completion alone (R27), the port discipline (20_memory.md R67) and the writers of the buffers (10_state.md R35). -/

namespace Sys2Proof.Machine

/-! ## The port discipline of a command's step -/

/-- The same effect seen from a state that agrees with the first on what the discipline reads. -/
theorem Disciplined.of_start {rd : Prop} {s s' t : State} (h : Disciplined rd s t) (he : s.seqErr = s'.seqErr)
    (hr : s.result = s'.result) (ht : s.trace = s'.trace) (hc : s.cfg = s'.cfg) : Disciplined rd s' t :=
  ⟨he ▸ h.seqErr, hr ▸ h.result, ht ▸ hc ▸ h.trace⟩

theorem loopHead_disciplined {i : Instr} {tr : Transfer} {judge : Phase → Bool → Bool} {reads : Bool}
    (sh : ComposedShape i tr judge reads) (s : State) : Disciplined False s (loopHead tr s) := by
  unfold loopHead
  split
  case isTrue =>
    rw [sh.start]
    exact (beginPoll_disciplined _ _ (s.enterStage .transfer) (sh.allowed _)).of_start rfl rfl rfl rfl
  case isFalse => exact beginStop_disciplined .success s

/-- What follows a polling step of a composed command makes at most one port write. -/
theorem stageReturned_disciplined {i : Instr} {tr : Transfer} {judge : Phase → Bool → Bool} {reads : Bool}
    (sh : ComposedShape i tr judge reads) (g : Stage) (r : Result) (s : State) :
    Disciplined False s (stageReturned tr g r s) := by
  unfold stageReturned
  cases g with
  | start =>
    dsimp only
    split
    case isTrue =>
      exact (beginPoll_disciplined _ _ ({ s.enterStage .address with dir := slaIsRead tr.sla })
        (addrArgs_allowed _ _)).of_start rfl rfl rfl rfl
    case isFalse => exact finish_disciplined r s
  | address =>
    dsimp only
    split
    case isTrue => exact (loopHead_disciplined sh { s with idx := 0#9 }).of_start rfl rfl rfl rfl
    case isFalse => exact beginStop_disciplined r s
  | transfer =>
    dsimp only
    split
    case isTrue =>
      have hstore : (tr.store s).seqErr = s.seqErr ∧ (tr.store s).result = s.result ∧
          (tr.store s).trace = s.trace ∧ (tr.store s).cfg = s.cfg := by
        rw [sh.store]
        split <;> exact ⟨rfl, rfl, rfl, rfl⟩
      obtain ⟨he, hr, ht, hc⟩ := hstore
      exact (loopHead_disciplined sh { tr.store s with idx := s.idx + 1#9 }).of_start he hr ht hc
    case isFalse => exact beginStop_disciplined r s

theorem primitive_disciplined {i : Instr} {args : Params → PollArgs} {start : State → State}
    {legal : Phase → Bool → Bool} (sh : PrimitiveShape i args start legal) (s t : State) (hb : s.busy = true)
    (h : primitiveProc (args s.cfg) start s = .next t) : Disciplined ((args s.cfg).readsRx = true) s t := by
  obtain ⟨-, rfl⟩ | hu | ⟨r, u, hu, rfl⟩ := primitiveProc_cases _ _ s t h
  · rw [sh.start]
    refine Disciplined.weaken (rd := False) ?_ False.elim
    exact (beginPoll_disciplined _ _ { s with dir := primitiveDir s.dir i } (sh.allowed _)).of_start rfl rfl rfl rfl
  · exact (pollNext_disciplined _ s t (sh.allowed _)).1 hu
  · obtain ⟨hd, ht⟩ := (pollNext_disciplined _ s u (sh.allowed _)).2 r hu
    obtain ⟨k, -, -, hbu, -⟩ := pollNext_kept _ s u (.inr ⟨r, hu⟩)
    exact (hd.after ht k.cfg (hbu.trans hb) (finish_disciplined r u)).weaken False.elim

theorem stageArgs_allowed {i : Instr} {tr : Transfer} {judge : Phase → Bool → Bool} {reads : Bool}
    (sh : ComposedShape i tr judge reads) (s : State) : (stageArgs tr s).Allowed s.cfg := by
  unfold stageArgs
  cases s.frame.stage
  · exact startArgs_allowed s.cfg
  · exact addrArgs_allowed s.cfg tr.sla
  · exact sh.allowed s

theorem composed_disciplined {i : Instr} {tr : Transfer} {judge : Phase → Bool → Bool} {reads : Bool}
    (sh : ComposedShape i tr judge reads) (s t : State) (hb : s.busy = true)
    (h : composedProc tr s = .next t) : Disciplined (reads = true) s t := by
  have hargs := stageArgs_allowed sh s
  obtain ⟨-, rfl⟩ | ⟨-, rfl⟩ | hu | ⟨r, u, hu, rfl⟩ := composedProc_cases tr s t h
  · exact (beginComposed_disciplined s).weaken False.elim
  · refine Disciplined.weaken (rd := False) ?_ False.elim
    exact (finish_disciplined s.frame.res { s with phase := .idle }).of_start rfl rfl rfl rfl
  · exact ((pollNext_disciplined _ s t hargs).1 hu).weaken fun hr => ((sh.stageArgs_readsRx s).mp hr).2
  · obtain ⟨hd, ht⟩ := (pollNext_disciplined _ s u hargs).2 r hu
    obtain ⟨k, -, -, hbu, -⟩ := pollNext_kept _ s u (.inr ⟨r, hu⟩)
    exact (hd.after ht k.cfg (hbu.trans hb) (stageReturned_disciplined sh _ r u)).weaken False.elim

/-- A step that makes one allowed write. -/
theorem callWrite_disciplined (s : State) (r : PortReg) (v : Byte) (p : Point)
    (ha : allowedEvent s.cfg (.write r v) = true) : Disciplined False s (s.callWrite r v p) :=
  ⟨fun h => h, fun _ => rfl, .inr ⟨_, rfl, ha, fun _ h => by cases h⟩⟩

theorem config_disciplined (ps : BitVec 2) (spd : SpeedClass) (s t : State)
    (h : configProc ps spd s = .next t) : Disciplined False s t := by
  obtain ⟨-, rfl⟩ | ⟨-, rfl⟩ | ⟨-, rfl⟩ := configProc_cases ps spd s t h
  · exact ⟨fun he => by simp [he], fun _ => rfl, .inr ⟨_, rfl, rfl, fun _ h => by cases h⟩⟩
  · exact callWrite_disciplined s _ _ _ rfl
  · exact (finish_disciplined .success { s with init := true }).of_start rfl rfl rfl rfl

theorem role_disciplined (r : Role) (gc : Bool) (own : Byte) (s t : State)
    (h : roleProc r gc own s = .next t) : Disciplined False s t := by
  obtain ⟨-, -, rfl⟩ | ⟨-, -, rfl⟩ | ⟨-, -, rfl⟩ | ⟨-, -, rfl⟩ := roleProc_cases r gc own s t h
  · exact ⟨fun he => by simp [he], fun hb => by simp at hb, .inl rfl⟩
  · exact ⟨fun he => by simp [he], fun _ => rfl, .inr ⟨_, rfl, rfl, fun _ h => by cases h⟩⟩
  · exact callWrite_disciplined s _ _ _ (by simp [allowedEvent])
  · exact finish_disciplined .success s

theorem stop_disciplined (s t : State) (h : stopProc s = .next t) : Disciplined False s t := by
  obtain ⟨-, rfl⟩ | ⟨-, rfl⟩ := stopProc_cases s t h
  · exact beginStop_disciplined .success s
  · exact (finish_disciplined s.frame.res { s with phase := .idle }).of_start rfl rfl rfl rfl

/-- Every step of a running command is disciplined, and only RECV's and RECVB's read DATA. -/
theorem exec_disciplined (i : Instr) (s t : State) (hb : s.busy = true) (h : exec i s = .next t) :
    Disciplined ((∃ a, i = .recv a) ∨ ∃ a n, i = .recvb a n) s t := by
  obtain ⟨ps, spd, rfl⟩ | ⟨r, gc, own, rfl⟩ | rfl | hi | hi := instr_kinds i
  · exact (config_disciplined ps spd s t (exec_config ps spd s hb ▸ h)).weaken False.elim
  · exact (role_disciplined r gc own s t (exec_role r gc own s hb ▸ h)).weaken False.elim
  · exact (stop_disciplined s t (exec_stop s hb ▸ h)).weaken False.elim
  · obtain ⟨args, start, legal, sh⟩ := exists_primitiveShape i hi
    exact (primitive_disciplined sh s t hb (sh.exec s hb ▸ h)).weaken fun hr => .inl ((sh.reads _).mp hr)
  · obtain ⟨tr, judge, reads, sh⟩ := exists_composedShape i hi
    exact (composed_disciplined sh s t hb (sh.exec s hb ▸ h)).weaken fun hr => .inr (sh.isRecvb.mp hr)

/-! ## The steps of the machine -/

/-- The commands by the frame statement they come under. -/
theorem instr_frames (i : Instr) :
    ((∃ ps spd, i = .config ps spd) ∨ ∃ r gc own, i = .role r gc own) ∨
      (isPollingPrimitive i = true ∨ i = .stop) ∨ isComposed i = true := by
  cases i <;> simp [isPollingPrimitive, isComposed]

/-- No command's step clears OVERRUN, or sets it. -/
theorem exec_overrun (i : Instr) (s t : State) (h : exec i s = .next t) : t.overrun = s.overrun := by
  obtain hset | hprim | hcomp := instr_frames i
  · exact (exec_setupKept s t i hset h).1.overrun
  · obtain ⟨-, -, -, -, ho, -⟩ := primitiveFrame s t i hprim h
    exact ho
  · obtain ⟨-, -, -, -, ho, -⟩ := composedFrame s t i hcomp h
    exact ho

/-- Settles O47: a command's step is disciplined and leaves OVERRUN alone, its accept step writes neither bit, and the
host's accesses only set OVERRUN. -/
theorem faultBitsAreSticky : Obligations.FaultBitsAreSticky := by
  intro s t h hr
  obtain ⟨rest, i, -, hb, -, he⟩ | ⟨rest, -, hb, rfl⟩ | ⟨rest, i, w, -, hb, -, he⟩ | ⟨rest, ht, ho⟩ |
    ⟨rest, w, -, hb, -, rfl⟩ | ⟨rest, j, v, w, hb, -, rfl⟩ := step_cases s t h hr
  · exact ⟨(exec_disciplined i { s with turns := rest } t hb he).seqErr,
      fun ho => (exec_overrun i { s with turns := rest } t he).trans ho⟩
  · exact ⟨id, id⟩
  · rw [exec_idle i { s with turns := rest } hb] at he
    cases he
    rw [accept_frame]
    exact ⟨id, id⟩
  · exact ⟨fun hs => by rw [ht]; exact hs, ho⟩
  · exact ⟨id, id⟩
  · exact ⟨id, id⟩

/-- Settles O51: a running command's step is disciplined; the other steps make no port access. -/
theorem onePortAccessPerStep : Obligations.OnePortAccessPerStep := by
  intro s t h hr
  obtain ⟨rest, i, -, hb, hd, he⟩ | ⟨rest, -, hb, rfl⟩ | ⟨rest, i, w, -, hb, -, he⟩ | ⟨rest, ht, ho⟩ |
    ⟨rest, w, -, hb, -, rfl⟩ | ⟨rest, j, v, w, hb, -, rfl⟩ := step_cases s t h hr
  · refine (exec_disciplined i { s with turns := rest } t hb he).trace.imp_right ?_
    rintro ⟨e, htr, ha, hrd⟩
    exact ⟨e, htr, ha, fun v hv => ⟨i, hd, hrd v hv⟩⟩
  · exact .inl rfl
  · rw [exec_idle i { s with turns := rest } hb] at he
    cases he
    rw [accept_frame]
    exact .inl rfl
  · rw [ht]
    exact .inl rfl
  · exact .inl rfl
  · exact .inl rfl

/-! ## How a running command ends -/

/-- A polling step returns SUCCESS, TIMEOUT or PROTOCOL. -/
theorem pollNext_result (p : PollArgs) (s u : State) (r : Result) (h : pollNext p s = .returned r u) :
    r = .success ∨ r = .timeout ∨ r = .protocol := by
  rcases pollNext_cases p s with ⟨_, h'⟩ | ⟨_, _, h'⟩ | ⟨_, h'⟩ | ⟨_, _, h'⟩ | ⟨_, _, h'⟩ | ⟨_, _, h'⟩ |
    ⟨_, _, h'⟩ | ⟨_, _, _, h'⟩ | ⟨_, _, _, h'⟩ | ⟨_, _, h'⟩ | ⟨_, _, h'⟩
  all_goals
    rw [h'] at h
    simp only [reduceCtorEq, Progress.returned.injEq] at h
  all_goals simp [← h.1]

theorem loopHead_busy {i : Instr} {tr : Transfer} {judge : Phase → Bool → Bool} {reads : Bool}
    (sh : ComposedShape i tr judge reads) (s : State) (hb : s.busy = true) : (loopHead tr s).busy = true := by
  unfold loopHead
  split
  case isTrue =>
    rw [sh.start]
    obtain ⟨-, -, -, hbusy, -⟩ := beginPoll_kept (tr.args (s.enterStage .transfer)) _ (s.enterStage .transfer)
    exact hbusy.trans hb
  case isFalse => exact hb

/-- After a polling step a composed command goes on, but for a failed start (42_composed.md R185). -/
theorem stageReturned_busy_or {i : Instr} {tr : Transfer} {judge : Phase → Bool → Bool} {reads : Bool}
    (sh : ComposedShape i tr judge reads) (g : Stage) (r : Result) (s : State) (hb : s.busy = true) :
    (stageReturned tr g r s).busy = true ∨
      (g = .start ∧ r ≠ .success ∧ stageReturned tr g r s = s.finish r) := by
  by_cases hr : r = .success
  · left
    cases g with
    | start =>
      rw [stageReturned, if_pos hr]
      obtain ⟨-, -, hbt⟩ := beginAddr_kept tr.sla (s.enterStage .address)
      exact hbt.trans hb
    | address =>
      rw [stageReturned, if_pos hr]
      exact loopHead_busy sh _ hb
    | transfer =>
      rw [stageReturned, if_pos hr]
      refine loopHead_busy sh _ ?_
      rw [sh.store]
      split <;> exact hb
  · cases g with
    | start => exact .inr ⟨rfl, hr, if_neg hr⟩
    | address =>
      rw [stageReturned, if_neg hr]
      exact .inl hb
    | transfer =>
      rw [stageReturned, if_neg hr]
      exact .inl hb

/-- The step that ends a running command is a `finish` with SUCCESS, TIMEOUT, PROTOCOL or the result kept. -/
theorem exec_ends (i : Instr) (s t : State) (hb : s.busy = true) (h : exec i s = .next t) (ht : t.busy = false) :
    t.frame = Frame.start ∧
      (t.result = .success ∨ t.result = .timeout ∨ t.result = .protocol ∨ t.result = s.frame.res) := by
  obtain ⟨ps, spd, rfl⟩ | ⟨r, gc, own, rfl⟩ | rfl | hi | hi := instr_kinds i
  · obtain ⟨hbt, -⟩ | ⟨-, rfl⟩ := exec_config_cases ps spd s t hb h
    · simp [hbt] at ht
    · exact ⟨rfl, .inl rfl⟩
  · obtain ⟨-, -, rfl⟩ | ⟨-, -, rfl⟩ | ⟨-, -, rfl⟩ | ⟨-, -, rfl⟩ :=
      roleProc_cases r gc own s t (exec_role r gc own s hb ▸ h)
    · exact ⟨rfl, .inl rfl⟩
    · simp [hb] at ht
    · simp [hb] at ht
    · exact ⟨rfl, .inl rfl⟩
  · obtain ⟨-, rfl⟩ | ⟨-, rfl⟩ := stopProc_cases s t (exec_stop s hb ▸ h)
    · obtain ⟨-, -, hbt⟩ := beginStop_kept .success s
      simp [hbt, hb] at ht
    · exact ⟨rfl, .inr (.inr (.inr rfl))⟩
  · obtain ⟨args, start, legal, sh⟩ := exists_primitiveShape i hi
    obtain ⟨-, rfl⟩ | hu | ⟨r, u, hu, rfl⟩ := primitiveProc_cases _ _ s t (sh.exec s hb ▸ h)
    · rw [sh.start, beginPoll_eq] at ht
      exact absurd hb (by simpa using ht)
    · obtain ⟨-, -, -, hbt, -⟩ := pollNext_kept _ s t (.inl hu)
      simp [hbt, hb] at ht
    · have hr := pollNext_result _ s u r hu
      exact ⟨rfl, hr.imp_right (Or.imp_right Or.inl)⟩
  · obtain ⟨tr, judge, reads, sh⟩ := exists_composedShape i hi
    obtain ⟨-, rfl⟩ | ⟨-, rfl⟩ | hu | ⟨r, u, hu, rfl⟩ := composedProc_cases tr s t (sh.exec s hb ▸ h)
    · obtain ⟨-, -, -, -, hbt, -⟩ := beginComposed_kept s
      simp [hbt, hb] at ht
    · exact ⟨rfl, .inr (.inr (.inr rfl))⟩
    · obtain ⟨-, -, -, hbt, -⟩ := pollNext_kept _ s t (.inl hu)
      simp [hbt, hb] at ht
    · obtain ⟨-, -, -, hbu, -⟩ := pollNext_kept _ s u (.inr ⟨r, hu⟩)
      obtain hbt | ⟨-, -, hfin⟩ := stageReturned_busy_or sh s.frame.stage r u (hbu.trans hb)
      · simp [hbt] at ht
      · have hr := pollNext_result _ s u r hu
        rw [hfin]
        exact ⟨rfl, hr.imp_right (Or.imp_right Or.inl)⟩

/-- Settles O49: a running command's step that changes RESULT ends it, since the others are disciplined; an accept step
that changes RESULT rejects the word, for one of R104's reasons. -/
theorem resultIsWrittenOnlyAtCompletion : Obligations.ResultIsWrittenOnlyAtCompletion := by
  intro s t h hr hne
  obtain ⟨rest, i, hturns, hb, hd, he⟩ | ⟨rest, -, hb, rfl⟩ | ⟨rest, i, w, hturns, hb, hd, he⟩ | ⟨rest, ht, ho⟩ |
    ⟨rest, w, hturns, hb, herr, rfl⟩ | ⟨rest, j, v, w, hb, -, rfl⟩ := step_cases s t h hr
  · have hbt : t.busy = false := by
      by_contra hbt
      exact hne ((exec_disciplined i { s with turns := rest } t hb he).result (by simpa using hbt))
    obtain ⟨hf, hres⟩ := exec_ends i { s with turns := rest } t hb he hbt
    exact .inl ⟨hb, hbt, hf, hres, rest, i, hturns, hd, he⟩
  · exact absurd rfl hne
  · rw [exec_idle i { s with turns := rest } hb] at he
    cases he
    obtain ⟨r, hrej, hwhy⟩ | ⟨hlatch, -⟩ := accept_cases i { s with turns := rest }
    · refine .inr ⟨hb, w, rest, hturns, by rw [hrej]; rfl, .inr ⟨i, hd, ?_⟩⟩
      rw [hrej]
      obtain ⟨-, hw⟩ | ⟨rfl, hn, hi⟩ | ⟨rfl, hbad⟩ := hwhy
      · simp [(encode_of_decodeCommand w i hd).1] at hw
      · exact .inl ⟨(needsInit_eq_true_iff i).mp hn, hi, rfl⟩
      · refine .inr ⟨?_, rfl⟩
        by_contra hnc
        have hn := (needsInit_eq_true_iff i).mpr fun ps spd hc => hnc ⟨ps, spd, hc⟩
        simp [badDivisor_of_needsInit _ i hn] at hbad
    · rw [hlatch] at hne
      exact absurd rfl hne
  · rw [ht] at hne
    exact absurd rfl hne
  · exact .inr ⟨hb, w, rest, hturns, rfl, .inl ⟨herr, rfl⟩⟩
  · exact absurd rfl hne

/-! ## The writers of the buffers -/

/-- A command's step changes no buffer byte but the one RECVB stores. -/
theorem exec_bufferByte (i : Instr) (s t : State) (off : Nat) (h : exec i s = .next t)
    (hne : t.bufferByte off ≠ s.bufferByte off) : recvbStore s = some off ∧ ∃ a n, i = .recvb a n := by
  by_cases hi : isComposed i = true
  · obtain ⟨-, -, -, -, -, -, -, -, -, hsend, hrecv⟩ := composedFrame s t i hi h
    by_cases hr : ∃ a n, i = .recvb a n
    · refine ⟨?_, hr⟩
      obtain ⟨a, n, hr⟩ := hr
      obtain ⟨hnone, hsome⟩ := hrecv a n hr
      cases ho : recvbStore s with
      | none => exact absurd (hnone ho off) hne
      | some o =>
        obtain ⟨-, hother⟩ := hsome o ho
        by_contra hoff
        exact hne (hother off fun heq => hoff (congrArg some heq.symm))
    · exact absurd ((hsend fun a n hc => hr ⟨a, n, hc⟩).2 off) hne
  · refine absurd ?_ hne
    obtain hset | hprim | hcomp := instr_frames i
    · obtain ⟨k, -⟩ := exec_setupKept s t i hset h
      exact State.bufferByte_congr s t off k.mem k.resets
    · obtain ⟨-, -, -, -, -, -, -, -, -, hbyte, -⟩ := primitiveFrame s t i hprim h
      exact hbyte off
    · exact absurd hcomp hi

/-- Settles O53: of the steps of the machine only a command's and the host's TXBUF write touch the memory. -/
theorem bufferBytesChangeOnlyByTheirWriters : Obligations.BufferBytesChangeOnlyByTheirWriters := by
  intro s t off h hr hne
  obtain ⟨rest, i, -, hb, hd, he⟩ | ⟨rest, -, hb, rfl⟩ | ⟨rest, i, w, -, hb, -, he⟩ | ⟨rest, ht, ho⟩ |
    ⟨rest, w, -, hb, -, rfl⟩ | ⟨rest, j, v, w, hb, hturns, rfl⟩ := step_cases s t h hr
  · obtain ⟨hstore, a, n, rfl⟩ := exec_bufferByte i { s with turns := rest } t off he hne
    exact .inr ⟨hstore, a, n, hd⟩
  · exact absurd rfl hne
  · obtain ⟨hstore, -⟩ := exec_bufferByte i { s with turns := rest } t off he hne
    simp [recvbStore, hb] at hstore
  · rw [ht] at hne
    exact absurd rfl hne
  · exact absurd rfl hne
  · have hbyte := State.bufferByte_writeTx { s with turns := rest } j v off
    have hoff : off = txOffset j := by
      by_contra hoff
      exact hne (hbyte.trans (if_neg hoff))
    obtain ⟨h1, h2⟩ := txOffset_range j
    subst hoff
    exact .inl ⟨hb, h1, h2, w, rest, hturns⟩

end Sys2Proof.Machine
end

section
/-! PROOFS. The machine's invariant (spec/10_state.md R21, R25, R30): the positions a command runs at, what a polling
step, a composed command's stage and the other procedures keep, and that every step of the machine keeps it. -/

namespace Sys2Proof.Machine

/-! ## The positions a command runs at -/

/-- From every position of its own a polling step goes on or returns. -/
theorem pollNext_of_point (p : PollArgs) (s : State) (h : pollPoint p.wdata.isSome p.readsRx s.frame.point = true) :
    (∃ t, pollNext p s = .running t) ∨ ∃ r u, pollNext p s = .returned r u := by
  cases hn : pollNext p s with
  | running t => exact .inl ⟨t, rfl⟩
  | returned r u => exact .inr ⟨r, u, rfl⟩
  | lost => simp [(pollNext_lost_iff p s).mp hn] at h

theorem primitiveProc_lost (p : PollArgs) (start : State → State) (s : State) (he : s.frame.point ≠ .entry)
    (h : pollPoint p.wdata.isSome p.readsRx s.frame.point = false) :
    primitiveProc p start s = .fault .offProcedure := by
  rw [primitiveProc, if_neg he, (pollNext_lost_iff p s).mpr h]

theorem composedProc_lost (tr : Transfer) (s : State) (he : s.frame.point ≠ .entry) (hs : s.frame.point ≠ .stopped)
    (h : pollPoint (stageArgs tr s).wdata.isSome (stageArgs tr s).readsRx s.frame.point = false) :
    composedProc tr s = .fault .offProcedure := by
  rw [composedProc, if_neg he, if_neg hs, (pollNext_lost_iff _ s).mpr h]

theorem config_point (ps : BitVec 2) (spd : SpeedClass) (s : State) :
    (procedurePoint s.frame (.config ps spd) = true → ∃ t, configProc ps spd s = .next t) ∧
    (procedurePoint s.frame (.config ps spd) = false → configProc ps spd s = .fault .offProcedure) := by
  unfold procedurePoint configProc
  cases s.frame.point <;> simp

theorem role_point (r : Role) (gc : Bool) (own : Byte) (s : State) :
    (procedurePoint s.frame (.role r gc own) = true → ∃ t, roleProc r gc own s = .next t) ∧
    (procedurePoint s.frame (.role r gc own) = false → roleProc r gc own s = .fault .offProcedure) := by
  unfold procedurePoint roleProc
  cases hr : roleIsSlave r <;> cases s.frame.point <;> simp [hr]

theorem stop_point (s : State) :
    (procedurePoint s.frame .stop = true → ∃ t, stopProc s = .next t) ∧
    (procedurePoint s.frame .stop = false → stopProc s = .fault .offProcedure) := by
  unfold procedurePoint stopProc
  cases s.frame.point <;> simp

theorem primitive_point {i : Instr} {args : Params → PollArgs} {start : State → State}
    {legal : Phase → Bool → Bool} (sh : PrimitiveShape i args start legal) (s : State) :
    (procedurePoint s.frame i = true → ∃ t, primitiveProc (args s.cfg) start s = .next t) ∧
    (procedurePoint s.frame i = false → primitiveProc (args s.cfg) start s = .fault .offProcedure) := by
  rw [sh.point s.cfg]
  by_cases he : s.frame.point = .entry
  · simp [he, primitiveProc_entry]
  · simp only [beq_eq_false_iff_ne.mpr he, Bool.false_or]
    refine ⟨fun h => ?_, primitiveProc_lost _ start s he⟩
    obtain ⟨t, ht⟩ | ⟨r, u, hu⟩ := pollNext_of_point _ s h
    · exact ⟨t, primitiveProc_running _ start s t he ht⟩
    · exact ⟨_, primitiveProc_returned _ start s u r he hu⟩

theorem composed_point {i : Instr} {tr : Transfer} {judge : Phase → Bool → Bool} {reads : Bool}
    (sh : ComposedShape i tr judge reads) (s : State) :
    (procedurePoint s.frame i = true → ∃ t, composedProc tr s = .next t) ∧
    (procedurePoint s.frame i = false → composedProc tr s = .fault .offProcedure) := by
  rw [sh.point, composedPoint]
  by_cases he : s.frame.point = .entry
  · simp [he, composedProc_entry]
  by_cases hs : s.frame.point = .stopped
  · simp [hs, composedProc_stopped]
  have hstage := sh.stagePoint_eq s s.frame.point
  simp only [beq_eq_false_iff_ne.mpr he, beq_eq_false_iff_ne.mpr hs, Bool.false_or, ← hstage]
  refine ⟨fun h => ?_, composedProc_lost tr s he hs⟩
  obtain ⟨t, ht⟩ | ⟨r, u, hu⟩ := pollNext_of_point _ s h
  · exact ⟨t, composedProc_running tr s t ht⟩
  · exact ⟨_, composedProc_returned tr s u r hu⟩

/-- Settles O54: each kind of command steps exactly at its own positions. -/
theorem commandsRunAtTheirOwnPositionsOnly : Obligations.CommandsRunAtTheirOwnPositionsOnly := by
  intro s i hb
  obtain ⟨ps, spd, rfl⟩ | ⟨r, gc, own, rfl⟩ | rfl | hi | hi := instr_kinds i
  · rw [exec_config ps spd s hb]
    exact config_point ps spd s
  · rw [exec_role r gc own s hb]
    exact role_point r gc own s
  · rw [exec_stop s hb]
    exact stop_point s
  · obtain ⟨args, start, legal, sh⟩ := exists_primitiveShape i hi
    rw [sh.exec s hb]
    exact primitive_point sh s
  · obtain ⟨tr, judge, reads, sh⟩ := exists_composedShape i hi
    rw [sh.exec s hb]
    exact composed_point sh s

/-! ## The invariant of a polling step -/

/-- The steps of a polling step that go on. -/
theorem pollNext_running_cases (p : PollArgs) (s t : State) (h : pollNext p s = .running t) :
    (s.frame.point = .wroteData ∧ t = s.callWrite .ctrl p.ctrl .wroteCtrl) ∨
    (s.frame.point = .wroteCtrl ∧ t = { s with pollCount := 0#16 }.callRead .ctrl .polled) ∨
    (s.frame.point = .polled ∧ t = s.callRead .status .gotStatus) ∨
    (s.frame.point = .polled ∧ t = s.callWait) ∨
    (s.frame.point = .waited ∧ s.countPoll.pollsExhausted = false ∧ t = s.countPoll.callRead .ctrl .polled) ∨
    (s.frame.point = .gotStatus ∧ p.readsRx = true ∧
      t = (s.latchStatus.settlePhase p.ok).callRead .data .gotData) := by
  rcases pollNext_cases p s with ⟨_, h'⟩ | ⟨hp, _, h'⟩ | ⟨hp, h'⟩ | ⟨hp, _, h'⟩ | ⟨hp, _, h'⟩ | ⟨hp, _, h'⟩ |
    ⟨hp, hn, h'⟩ | ⟨hp, _, hr, h'⟩ | ⟨hp, _, _, h'⟩ | ⟨hp, _, h'⟩ | ⟨hp, _, h'⟩
  all_goals
    rw [h'] at h
    cases h
  all_goals simp [*]

/-- The steps of a polling step that return to its command. -/
theorem pollNext_returned_cases (p : PollArgs) (s u : State) (r : Result) (h : pollNext p s = .returned r u) :
    (s.frame.point = .waited ∧ r = .timeout ∧ u = s.countPoll.abort) ∨
    (s.frame.point = .gotStatus ∧ p.readsRx = false ∧ r = .success ∧ u = s.latchStatus.settlePhase p.ok) ∨
    (s.frame.point = .gotStatus ∧ r = .protocol ∧ u = s.latchStatus.abort) ∨
    (s.frame.point = .gotData ∧ p.readsRx = true ∧ r = .success ∧ u = { s with rxdata := s.frame.ret }) := by
  rcases pollNext_cases p s with ⟨_, h'⟩ | ⟨hp, _, h'⟩ | ⟨hp, h'⟩ | ⟨hp, _, h'⟩ | ⟨hp, _, h'⟩ | ⟨hp, _, h'⟩ |
    ⟨hp, hn, h'⟩ | ⟨hp, _, hr, h'⟩ | ⟨hp, _, _, h'⟩ | ⟨hp, _, h'⟩ | ⟨hp, _, h'⟩
  all_goals
    rw [h'] at h
    cases h
  all_goals simp [*]

/-- The part of the invariant that does not speak of the position. -/
structure Sound (s : State) : Prop where
  params : s.cfg.Legal
  memory : s.mem.wf = true
  polls  : s.pollCount.toNat ≤ s.cfg.maxPolls
  status : maskedStatus s.cfg s.lastStatus = s.lastStatus
  index  : s.idx.toNat ≤ s.cfg.lenMax

/-- Besides, phase and poll count fit the position. -/
structure Placed (s : State) : Prop extends Sound s where
  phase   : phaseFits s.phase s.frame.point = true
  polling : s.frame.point.polling = true → s.pollCount.toNat < s.cfg.maxPolls

theorem Inv.placed {s : State} (h : Inv s) : Placed s :=
  ⟨⟨h.params, h.memory, h.polls, h.status, h.index⟩, h.phase, h.polling⟩

/-- The masked status is a masked one (41_primitives.md R140). -/
theorem maskedStatus_idem (c : Params) (v : Byte) : maskedStatus c (maskedStatus c v) = maskedStatus c v := by
  simp [maskedStatus, BitVec.and_assoc]

theorem beginPoll_point (p : PollArgs) (legal : Bool) (s : State) :
    pollPoint p.wdata.isSome p.readsRx (beginPoll p legal s).frame.point = true := by
  rw [beginPoll_eq]
  cases p.wdata <;> rfl

theorem beginPoll_placed (p : PollArgs) (legal : Bool) (s : State) (h : Sound s) (hp : p.pend.pending = true) :
    Placed (beginPoll p legal s) := by
  rw [beginPoll_eq]
  refine ⟨⟨h.params, h.memory, h.polls, h.status, h.index⟩, ?_, ?_⟩
  · cases p.wdata <;> exact hp
  · cases p.wdata <;> exact fun hpoll => by cases hpoll

/-- The phase of a step that succeeded is settled (R147, R161). -/
theorem settlePhase_settled (s : State) (ok : Phase) (hok : ok.settled = true) :
    (s.settlePhase ok).phase.settled = true := by
  rw [State.settlePhase]
  dsimp only
  split
  · exact hok
  · rfl

theorem latchStatus_sound (s : State) (h : Sound s) : Sound s.latchStatus :=
  ⟨h.params, h.memory, h.polls, maskedStatus_idem s.cfg s.frame.ret, h.index⟩

/-- Counting one poll more after a wait: the count was below the bound, so it does not pass it (R144). -/
theorem countPoll_toNat (s : State) (h : Placed s) (hp : s.frame.point = .waited) :
    s.countPoll.pollCount.toNat = s.pollCount.toNat + 1 ∧ s.pollCount.toNat + 1 ≤ s.cfg.maxPolls := by
  have hlt := h.polling (by rw [hp]; rfl)
  obtain ⟨-, hmax, -⟩ := h.params
  refine ⟨?_, hlt⟩
  rw [State.countPoll, BitVec.toNat_add]
  exact Nat.mod_eq_of_lt (by simp; omega)

/-- A polling step that goes on stays inside its procedure. -/
theorem pollNext_running_point (p : PollArgs) (s t : State) (h : pollNext p s = .running t) :
    pollPoint p.wdata.isSome p.readsRx t.frame.point = true := by
  obtain ⟨-, rfl⟩ | ⟨-, rfl⟩ | ⟨-, rfl⟩ | ⟨-, rfl⟩ | ⟨-, -, rfl⟩ | ⟨-, hr, rfl⟩ := pollNext_running_cases p s t h
  case inr.inr.inr.inr.inr => exact hr
  all_goals rfl

/-- While a polling step goes on, phase and count fit the position. -/
theorem pollNext_placed (p : PollArgs) (s t : State) (h : Placed s) (hok : p.ok.settled = true)
    (hu : pollNext p s = .running t) : Placed t := by
  have hphase := h.phase
  obtain ⟨hp, rfl⟩ | ⟨hp, rfl⟩ | ⟨hp, rfl⟩ | ⟨hp, rfl⟩ | ⟨hp, hn, rfl⟩ | ⟨hp, -, rfl⟩ :=
    pollNext_running_cases p s t hu
  all_goals rw [hp] at hphase
  · exact ⟨⟨h.params, h.memory, h.polls, h.status, h.index⟩, hphase, fun hpoll => by cases hpoll⟩
  · exact ⟨⟨h.params, h.memory, Nat.zero_le _, h.status, h.index⟩, hphase, fun _ => h.params.1⟩
  · exact ⟨⟨h.params, h.memory, h.polls, h.status, h.index⟩, hphase, fun hpoll => by cases hpoll⟩
  · exact ⟨⟨h.params, h.memory, h.polls, h.status, h.index⟩, hphase, fun _ => h.polling (by rw [hp]; rfl)⟩
  · obtain ⟨hcount, hle⟩ := countPoll_toNat s h hp
    have hne : s.countPoll.pollCount.toNat ≠ s.cfg.maxPolls := of_decide_eq_false hn
    exact ⟨⟨h.params, h.memory, hcount ▸ hle, h.status, h.index⟩, hphase,
      fun _ => lt_of_le_of_ne (hcount ▸ hle) hne⟩
  · have hs := latchStatus_sound s h.toSound
    exact ⟨⟨hs.params, hs.memory, hs.polls, hs.status, hs.index⟩, settlePhase_settled s.latchStatus p.ok hok,
      fun hpoll => by cases hpoll⟩

/-- A polling step returns in a settled phase, its poll count not past the bound (R144, R147). -/
theorem pollNext_returned_sound (p : PollArgs) (s u : State) (r : Result) (h : Placed s)
    (hok : p.ok.settled = true) (hu : pollNext p s = .returned r u) : Sound u ∧ u.phase.settled = true := by
  have hs := latchStatus_sound s h.toSound
  obtain ⟨hp, -, rfl⟩ | ⟨-, -, -, rfl⟩ | ⟨-, -, rfl⟩ | ⟨hp, -, -, rfl⟩ := pollNext_returned_cases p s u r hu
  · obtain ⟨hcount, hle⟩ := countPoll_toNat s h hp
    exact ⟨⟨h.params, h.memory, hcount ▸ hle, h.status, h.index⟩, rfl⟩
  · exact ⟨⟨hs.params, hs.memory, hs.polls, hs.status, hs.index⟩, settlePhase_settled s.latchStatus p.ok hok⟩
  · exact ⟨⟨hs.params, hs.memory, hs.polls, hs.status, hs.index⟩, rfl⟩
  · have hphase := h.phase
    rw [hp] at hphase
    exact ⟨⟨h.params, h.memory, h.polls, h.status, h.index⟩, hphase⟩

/-! ## The invariant of a composed command's stages -/

theorem beginStop_placed (r : Result) (s : State) (h : Sound s) : Placed (beginStop r s) :=
  ⟨⟨h.params, h.memory, h.polls, h.status, h.index⟩, rfl, fun hpoll => by cases hpoll⟩

theorem loopHead_placed {i : Instr} {tr : Transfer} {judge : Phase → Bool → Bool} {reads : Bool}
    (sh : ComposedShape i tr judge reads) (s : State) (h : Sound s) : Placed (loopHead tr s) := by
  unfold loopHead
  split
  case isTrue =>
    rw [sh.start]
    exact beginPoll_placed _ _ (s.enterStage .transfer) ⟨h.params, h.memory, h.polls, h.status, h.index⟩
      (by rw [sh.pend]; rfl)
  case isFalse => exact beginStop_placed .success s h

/-- What a composed command's index is at a position: below the count at a transfer, 0 before the first, the whole
count where the bus was stopped with SUCCESS (42_composed.md R183). -/
structure IndexFits (n : Nat) (s : State) : Prop where
  index  : s.frame.stage = .transfer → s.frame.point ≠ .stopped → s.idx.toNat < n
  before : s.frame.stage ≠ .transfer → s.frame.point ≠ .entry → s.idx = 0#9
  done   : s.frame.point = .stopped → s.frame.res = .success → s.idx.toNat = n

/-- The index stays 9 bits wide where the count is a byte's. -/
theorem idx_add_one_toNat (k : BitVec 9) (n : Nat) (hk : k.toNat < n) (hn : n ≤ 255) :
    (k + 1#9).toNat = k.toNat + 1 := by
  rw [BitVec.toNat_add]
  exact Nat.mod_eq_of_lt (by simp; omega)

/-- The store of a transfer touches the memory alone, at RXBUF. -/
theorem ComposedShape.store_sound {i : Instr} {tr : Transfer} {judge : Phase → Bool → Bool} {reads : Bool}
    (sh : ComposedShape i tr judge reads) (s : State) (k : BitVec 9) (h : Sound s) (hk : k.toNat ≤ s.cfg.lenMax) :
    Sound { tr.store s with idx := k } := by
  rw [sh.store]
  split
  · exact ⟨h.params, State.writeRx_wf s _ _ h.memory, h.polls, h.status, hk⟩
  · exact ⟨h.params, h.memory, h.polls, h.status, hk⟩

theorem Sound.lenMax {s : State} (h : Sound s) : s.cfg.lenMax = 255 := by
  obtain ⟨-, -, -, -, -, -, -, -, -, -, -, -, -, -, hlen⟩ := h.params
  exact hlen

/-- Where a composed command goes on after a polling step, phase and count fit the position. -/
theorem stageReturned_placed {i : Instr} {tr : Transfer} {judge : Phase → Bool → Bool} {reads : Bool}
    (sh : ComposedShape i tr judge reads) (g : Stage) (r : Result) (s : State) (h : Sound s)
    (hidx : g = .transfer → s.idx.toNat < tr.count) (hgo : (stageReturned tr g r s).busy = true) :
    Placed (stageReturned tr g r s) := by
  by_cases hr : r = .success
  · cases g with
    | start =>
      rw [stageReturned, if_pos hr]
      exact beginPoll_placed _ _ { s.enterStage .address with dir := slaIsRead tr.sla }
        ⟨h.params, h.memory, h.polls, h.status, h.index⟩ rfl
    | address =>
      rw [stageReturned, if_pos hr]
      exact loopHead_placed sh _ ⟨h.params, h.memory, h.polls, h.status, Nat.zero_le _⟩
    | transfer =>
      rw [stageReturned, if_pos hr]
      have hlt := hidx rfl
      have hle := sh.count_le
      refine loopHead_placed sh _ (sh.store_sound s _ h ?_)
      rw [idx_add_one_toNat s.idx _ hlt hle, h.lenMax]
      omega
  · cases g with
    | start =>
      rw [stageReturned, if_neg hr] at hgo
      cases hgo
    | address =>
      rw [stageReturned, if_neg hr]
      exact beginStop_placed r s h
    | transfer =>
      rw [stageReturned, if_neg hr]
      exact beginStop_placed r s h

/-! ## The index of a composed command -/

theorem pollPoint_ne (w r : Bool) (p : Point) (h : pollPoint w r p = true) : p ≠ .entry ∧ p ≠ .stopped := by
  constructor <;> rintro rfl <;> cases h

/-- A state at the start position fits any count. -/
theorem indexFits_of_start (n : Nat) (s : State) (h : s.frame = Frame.start) : IndexFits n s := by
  constructor <;> simp [h, Frame.start]

theorem beginStop_indexFits (n : Nat) (r : Result) (s : State) (hzero : s.frame.stage ≠ .transfer → s.idx = 0#9)
    (hdone : r = .success → s.idx.toNat = n) : IndexFits n (beginStop r s) :=
  ⟨fun _ hp => absurd rfl hp, fun hg _ => hzero hg, fun _ => hdone⟩

theorem loopHead_indexFits {i : Instr} {tr : Transfer} {judge : Phase → Bool → Bool} {reads : Bool}
    (sh : ComposedShape i tr judge reads) (s : State) (hle : s.idx.toNat ≤ tr.count)
    (hzero : s.frame.stage ≠ .transfer → s.idx = 0#9) : IndexFits tr.count (loopHead tr s) := by
  unfold loopHead
  split
  case isTrue hmore =>
    rw [sh.start]
    obtain ⟨k, -, -, -, hstage⟩ := beginPoll_kept (tr.args (s.enterStage .transfer))
      (judge (s.enterStage .transfer).phase (s.enterStage .transfer).dir) (s.enterStage .transfer)
    obtain ⟨-, hns⟩ := pollPoint_ne _ _ _ (beginPoll_point (tr.args (s.enterStage .transfer))
      (judge (s.enterStage .transfer).phase (s.enterStage .transfer).dir) (s.enterStage .transfer))
    exact ⟨fun _ _ => k.idx ▸ of_decide_eq_true hmore, fun hg => absurd hstage hg, fun hs => absurd hs hns⟩
  case isFalse hmore =>
    have hge : ¬ s.idx.toNat < tr.count := fun hlt => hmore (decide_eq_true hlt)
    exact beginStop_indexFits _ _ s hzero fun _ => by omega

/-- After a polling step: the first 0 is still there for the address, the loop starts at 0, and a transfer that
succeeded is counted. -/
theorem stageReturned_indexFits {i : Instr} {tr : Transfer} {judge : Phase → Bool → Bool} {reads : Bool}
    (sh : ComposedShape i tr judge reads) (r : Result) (s : State)
    (hidx : s.frame.stage = .transfer → s.idx.toNat < tr.count)
    (hzero : s.frame.stage ≠ .transfer → s.idx = 0#9) :
    IndexFits tr.count (stageReturned tr s.frame.stage r s) := by
  by_cases hr : r = .success
  · cases hg : s.frame.stage with
    | start =>
      rw [stageReturned, if_pos hr]
      refine ⟨fun hstage => ?_, fun _ _ => hzero (by simp [hg]), fun hs => ?_⟩
      · cases hstage
      · cases hs
    | address =>
      rw [stageReturned, if_pos hr]
      exact loopHead_indexFits sh _ (Nat.zero_le _) fun _ => rfl
    | transfer =>
      rw [stageReturned, if_pos hr]
      have hlt := hidx hg
      refine loopHead_indexFits sh _ ?_ fun hn => absurd ?_ hn
      · rw [idx_add_one_toNat s.idx _ hlt sh.count_le]
        omega
      · rw [sh.store]
        split <;> exact hg
  · cases hg : s.frame.stage with
    | start =>
      rw [stageReturned, if_neg hr]
      exact indexFits_of_start _ _ rfl
    | address =>
      rw [stageReturned, if_neg hr]
      exact beginStop_indexFits _ r s hzero fun h => absurd h hr
    | transfer =>
      rw [stageReturned, if_neg hr]
      exact beginStop_indexFits _ r s hzero fun h => absurd h hr

/-- A composed command's step keeps its index fitting the position. -/
theorem composed_indexFits {i : Instr} {tr : Transfer} {judge : Phase → Bool → Bool} {reads : Bool}
    (sh : ComposedShape i tr judge reads) (s t : State) (h : IndexFits tr.count s)
    (he : composedProc tr s = .next t) : IndexFits tr.count t := by
  obtain ⟨-, rfl⟩ | ⟨-, rfl⟩ | hu | ⟨r, u, hu, rfl⟩ := composedProc_cases tr s t he
  · refine ⟨fun hstage => ?_, fun _ _ => rfl, fun hs => ?_⟩
    · cases hstage
    · cases hs
  · exact indexFits_of_start _ _ rfl
  · obtain ⟨k, -, -, -, -, hstage, -⟩ := pollNext_kept _ s t (.inl hu)
    obtain ⟨hne, hns⟩ := pollNext_point (stageArgs tr s) s (by simp [hu])
    obtain ⟨-, hnst⟩ := pollPoint_ne _ _ _ (pollNext_running_point _ s t hu)
    refine ⟨fun hg _ => ?_, fun hg _ => ?_, fun hs => absurd hs hnst⟩
    · rw [k.idx]
      exact h.index (hstage ▸ hg) hns
    · rw [k.idx]
      exact h.before (hstage ▸ hg) hne
  · obtain ⟨k, -, -, -, -, hstage, -⟩ := pollNext_kept _ s u (.inr ⟨r, hu⟩)
    obtain ⟨hne, hns⟩ := pollNext_point (stageArgs tr s) s (by simp [hu])
    rw [← hstage]
    refine stageReturned_indexFits sh r u (fun hg => ?_) fun hg => ?_
    · rw [k.idx]
      exact h.index (hstage ▸ hg) hns
    · rw [k.idx]
      exact h.before (hstage ▸ hg) hne

/-! ## The position after a step -/

theorem stagePoint_congr (reads : Bool) (f g : Frame) (hs : f.stage = g.stage) (hp : f.point = g.point) :
    stagePoint reads f = stagePoint reads g := by
  rw [stagePoint, stagePoint, hs, hp]

theorem composedPoint_of_stagePoint (reads : Bool) (f : Frame) (h : stagePoint reads f = true) :
    composedPoint reads f = true := by
  simp [composedPoint, h]

theorem loopHead_point {i : Instr} {tr : Transfer} {judge : Phase → Bool → Bool} {reads : Bool}
    (sh : ComposedShape i tr judge reads) (s : State) : composedPoint reads (loopHead tr s).frame = true := by
  unfold loopHead
  split
  case isTrue =>
    have hp := beginPoll_point (tr.args (s.enterStage .transfer))
      (judge (s.enterStage .transfer).phase (s.enterStage .transfer).dir) (s.enterStage .transfer)
    rw [sh.wdata, sh.readsRx] at hp
    rw [sh.start]
    refine composedPoint_of_stagePoint reads _ ?_
    rw [beginPoll_eq] at hp ⊢
    exact hp
  case isFalse => rfl

theorem stageReturned_point {i : Instr} {tr : Transfer} {judge : Phase → Bool → Bool} {reads : Bool}
    (sh : ComposedShape i tr judge reads) (g : Stage) (r : Result) (s : State) :
    composedPoint reads (stageReturned tr g r s).frame = true := by
  by_cases hr : r = .success
  · cases g with
    | start =>
      rw [stageReturned, if_pos hr]
      rfl
    | address =>
      rw [stageReturned, if_pos hr]
      exact loopHead_point sh _
    | transfer =>
      rw [stageReturned, if_pos hr]
      exact loopHead_point sh _
  · cases g <;> rw [stageReturned, if_neg hr] <;> rfl

/-- A composed command's step ends at one of its positions. -/
theorem composed_next_point {i : Instr} {tr : Transfer} {judge : Phase → Bool → Bool} {reads : Bool}
    (sh : ComposedShape i tr judge reads) (s t : State) (he : composedProc tr s = .next t) :
    composedPoint reads t.frame = true := by
  obtain ⟨-, rfl⟩ | ⟨-, rfl⟩ | hu | ⟨r, u, hu, rfl⟩ := composedProc_cases tr s t he
  · rfl
  · rfl
  · obtain ⟨-, -, -, -, -, hstage, -⟩ := pollNext_kept _ s t (.inl hu)
    have hp := pollNext_running_point _ s t hu
    rw [sh.stagePoint_eq] at hp
    exact composedPoint_of_stagePoint reads _
      ((stagePoint_congr reads t.frame { s.frame with point := t.frame.point } hstage rfl).trans hp)
  · exact stageReturned_point sh _ r u

/-! ## Every step keeps the invariant -/

theorem finish_inv (r : Result) (s : State) (h : Sound s) (hp : s.phase.settled = true) : Inv (s.finish r) where
  params := h.params
  memory := h.memory
  phase := hp
  atRest _ := rfl
  running hb := by cases hb
  polls := h.polls
  polling hpoll := by cases hpoll
  status := h.status
  index := h.index

/-- A running command goes on in the invariant: it stays latched and let in. -/
theorem Inv.of_running {s t : State} {i : Instr} (hrun : Running s i) (h : Placed t) (hb : t.busy = true)
    (hcur : t.cur = s.cur) (hinit : t.init = s.init) (hpoint : procedurePoint t.frame i = true)
    (hidx : isComposed i = true → IndexFits (transferCount i) t) : Inv t where
  params := h.params
  memory := h.memory
  phase := h.phase
  atRest hidle := by simp [hb] at hidle
  running _ := ⟨i, hcur ▸ hrun.latched, hpoint, hinit ▸ hrun.admitted, fun hi => (hidx hi).index,
    fun hi => (hidx hi).before, fun hi => (hidx hi).done⟩
  polls := h.polls
  polling := h.polling
  status := h.status
  index := h.index

/-- The invariant speaks neither of the result nor of the host's side. -/
theorem Inv.of_fields {s t : State} (h : Inv s) (hcfg : t.cfg = s.cfg) (hmem : t.mem.wf = true)
    (hphase : t.phase = s.phase) (hframe : t.frame = s.frame) (hbusy : t.busy = s.busy) (hcur : t.cur = s.cur)
    (hinit : t.init = s.init) (hpc : t.pollCount = s.pollCount) (hls : t.lastStatus = s.lastStatus)
    (hidx : t.idx = s.idx) : Inv t where
  params := hcfg ▸ h.params
  memory := hmem
  phase := by rw [hphase, hframe]; exact h.phase
  atRest hb := by rw [hframe]; exact h.atRest (hbusy ▸ hb)
  running hb := by
    obtain ⟨i, hl, hp, ha, hi, hbef, hd⟩ := h.running (hbusy ▸ hb)
    refine ⟨i, hcur ▸ hl, hframe ▸ hp, hinit ▸ ha, ?_, ?_, ?_⟩ <;> rw [hframe, hidx] <;> assumption
  polls := by rw [hpc, hcfg]; exact h.polls
  polling := by rw [hframe, hpc, hcfg]; exact h.polling
  status := by rw [hls, hcfg]; exact h.status
  index := by rw [hidx, hcfg]; exact h.index

theorem config_inv (ps : BitVec 2) (spd : SpeedClass) (s t : State) (h : Inv s) (hb : s.busy = true)
    (hrun : Running s (.config ps spd)) (he : configProc ps spd s = .next t) : Inv t := by
  have hphase := h.phase
  obtain ⟨hp, rfl⟩ | ⟨hp, rfl⟩ | ⟨hp, rfl⟩ := configProc_cases ps spd s t he
  all_goals rw [hp] at hphase
  · exact Inv.of_running hrun ⟨⟨h.params, h.memory, h.polls, h.status, h.index⟩, hphase, fun hpoll => by cases hpoll⟩ hb
      rfl rfl rfl fun hi => by cases hi
  · exact Inv.of_running hrun ⟨⟨h.params, h.memory, h.polls, h.status, h.index⟩, hphase, fun hpoll => by cases hpoll⟩ hb
      rfl rfl rfl fun hi => by cases hi
  · exact finish_inv .success _ ⟨h.params, h.memory, h.polls, h.status, h.index⟩ hphase

theorem role_inv (r : Role) (gc : Bool) (own : Byte) (s t : State) (h : Inv s) (hb : s.busy = true)
    (hrun : Running s (.role r gc own)) (he : roleProc r gc own s = .next t) : Inv t := by
  have hphase := h.phase
  obtain ⟨hp, -, rfl⟩ | ⟨hp, hr, rfl⟩ | ⟨hp, hr, rfl⟩ | ⟨hp, -, rfl⟩ := roleProc_cases r gc own s t he
  all_goals rw [hp] at hphase
  · exact finish_inv .success _ ⟨h.params, h.memory, h.polls, h.status, h.index⟩ hphase
  · exact Inv.of_running hrun ⟨⟨h.params, h.memory, h.polls, h.status, h.index⟩, hphase, fun hpoll => by cases hpoll⟩ hb
      rfl rfl (by simp [procedurePoint, hr]) fun hi => by cases hi
  · exact Inv.of_running hrun ⟨⟨h.params, h.memory, h.polls, h.status, h.index⟩, hphase, fun hpoll => by cases hpoll⟩ hb
      rfl rfl (by simp [procedurePoint, hr]) fun hi => by cases hi
  · exact finish_inv .success s h.placed.toSound hphase

theorem endStop_inv (s : State) (h : Sound s) : Inv (endStop s) :=
  finish_inv s.frame.res { s with phase := .idle } ⟨h.params, h.memory, h.polls, h.status, h.index⟩ rfl

theorem stop_inv (s t : State) (h : Inv s) (hb : s.busy = true) (hrun : Running s .stop)
    (he : stopProc s = .next t) : Inv t := by
  have sound := h.placed.toSound
  obtain ⟨-, rfl⟩ | ⟨-, rfl⟩ := stopProc_cases s t he
  · exact Inv.of_running hrun (beginStop_placed .success s sound) hb rfl rfl rfl fun hi => by cases hi
  · exact endStop_inv s sound

theorem primitive_inv {i : Instr} {args : Params → PollArgs} {start : State → State}
    {legal : Phase → Bool → Bool} (sh : PrimitiveShape i args start legal) (hi : isComposed i = false)
    (s t : State) (h : Inv s) (hb : s.busy = true) (hrun : Running s i)
    (he : primitiveProc (args s.cfg) start s = .next t) : Inv t := by
  have hpoint : ∀ p, pollPoint (args s.cfg).wdata.isSome (args s.cfg).readsRx p.point = true →
      procedurePoint p i = true := fun p hp => by rw [sh.point s.cfg, hp, Bool.or_true]
  obtain ⟨-, rfl⟩ | hu | ⟨r, u, hu, rfl⟩ := primitiveProc_cases _ _ s t he
  · rw [sh.start]
    obtain ⟨k, -, -, hbusy, -⟩ := beginPoll_kept (args s.cfg) (legal s.phase s.dir)
      { s with dir := primitiveDir s.dir i }
    exact Inv.of_running hrun
      (beginPoll_placed _ _ _ ⟨h.params, h.memory, h.polls, h.status, h.index⟩ (sh.pending s.cfg))
      (hbusy.trans hb) k.cur k.init (hpoint _ (beginPoll_point ..)) fun hc => by simp [hi] at hc
  · obtain ⟨k, -, -, hbusy, -⟩ := pollNext_kept _ s t (.inl hu)
    exact Inv.of_running hrun (pollNext_placed _ s t h.placed (sh.settled s.cfg) hu) (hbusy.trans hb) k.cur k.init
      (hpoint _ (pollNext_running_point _ s t hu)) fun hc => by simp [hi] at hc
  · obtain ⟨hs, hp⟩ := pollNext_returned_sound _ s u r h.placed (sh.settled s.cfg) hu
    exact finish_inv r u hs hp

theorem stageArgs_settled {i : Instr} {tr : Transfer} {judge : Phase → Bool → Bool} {reads : Bool}
    (sh : ComposedShape i tr judge reads) (s : State) : (stageArgs tr s).ok.settled = true := by
  unfold stageArgs
  cases s.frame.stage
  · rfl
  · rfl
  · rw [sh.ok]
    rfl

theorem Running.indexFits {s : State} {i : Instr} (h : Running s i) (hi : isComposed i = true) :
    IndexFits (transferCount i) s :=
  ⟨h.index hi, h.before hi, h.done hi⟩

theorem composed_inv {i : Instr} {tr : Transfer} {judge : Phase → Bool → Bool} {reads : Bool}
    (sh : ComposedShape i tr judge reads) (hi : isComposed i = true) (s t : State) (h : Inv s)
    (hb : s.busy = true) (hrun : Running s i) (he : composedProc tr s = .next t) : Inv t := by
  have k := composedProc_kept tr sh.keeps s t he
  have hpoint : procedurePoint t.frame i = true := by
    rw [sh.point]
    exact composed_next_point sh s t he
  have hfit : IndexFits tr.count s := sh.count ▸ hrun.indexFits hi
  have hnext : IndexFits (transferCount i) t := sh.count ▸ composed_indexFits sh s t hfit he
  have go : t.busy = true → Placed t → Inv t := fun hbt hp =>
    Inv.of_running hrun hp hbt k.cur k.init hpoint fun _ => hnext
  obtain ⟨-, rfl⟩ | ⟨-, rfl⟩ | hu | ⟨r, u, hu, rfl⟩ := composedProc_cases tr s t he
  · obtain ⟨-, -, -, -, hbusy, -, -⟩ := beginComposed_kept s
    have hs : Sound ({ s with idx := 0#9 }.enterStage .start) :=
      ⟨h.params, h.memory, h.polls, h.status, Nat.zero_le _⟩
    exact go (hbusy.trans hb) (beginPoll_placed (startArgs s.cfg) (startLegal s.phase) _ hs rfl)
  · exact endStop_inv s h.placed.toSound
  · obtain ⟨-, -, -, hbusy, -⟩ := pollNext_kept _ s t (.inl hu)
    exact go (hbusy.trans hb) (pollNext_placed _ s t h.placed (stageArgs_settled sh s) hu)
  · obtain ⟨ku, -, -, hbu, -⟩ := pollNext_kept _ s u (.inr ⟨r, hu⟩)
    obtain ⟨-, hns⟩ := pollNext_point (stageArgs tr s) s (by simp [hu])
    obtain ⟨hs, hp⟩ := pollNext_returned_sound _ s u r h.placed (stageArgs_settled sh s) hu
    obtain hbt | ⟨-, -, hfin⟩ := stageReturned_busy_or sh s.frame.stage r u (hbu.trans hb)
    · exact go hbt (stageReturned_placed sh _ r u hs (fun hg => ku.idx ▸ hfit.index hg hns) hbt)
    · rw [hfin]
      exact finish_inv r u hs hp

/-- The next step of a running command keeps the invariant. -/
theorem exec_inv (i : Instr) (s t : State) (h : Inv s) (hb : s.busy = true) (hd : decodeCommand s.cur = .ok i)
    (he : exec i s = .next t) : Inv t := by
  obtain ⟨j, hrun⟩ := h.running hb
  obtain rfl : j = i := Except.ok.inj (hrun.latched.symm.trans hd)
  obtain ⟨ps, spd, rfl⟩ | ⟨r, gc, own, rfl⟩ | rfl | hj | hj := instr_kinds j
  · exact config_inv ps spd s t h hb hrun (exec_config ps spd s hb ▸ he)
  · exact role_inv r gc own s t h hb hrun (exec_role r gc own s hb ▸ he)
  · exact stop_inv s t h hb hrun (exec_stop s hb ▸ he)
  · obtain ⟨args, start, legal, sh⟩ := exists_primitiveShape j hj
    have hnc : isComposed j = false := by cases j <;> simp [isPollingPrimitive] at hj <;> rfl
    exact primitive_inv sh hnc s t h hb hrun (sh.exec s hb ▸ he)
  · obtain ⟨tr, judge, reads, sh⟩ := exists_composedShape j hj
    exact composed_inv sh hj s t h hb hrun (sh.exec s hb ▸ he)

/-- The accept step keeps the invariant: a latched command stands at its entry, let in (30_encoding.md R104). -/
theorem accept_inv (i : Instr) (s : State) (h : Inv s) (hb : s.busy = false) : Inv (accept i s) := by
  have hrest := h.atRest hb
  have hphase := h.phase
  rw [hrest] at hphase
  obtain ⟨r, hrej, -⟩ | ⟨hlatch, hw, hadm, -⟩ := accept_cases i s
  · rw [hrej]
    exact h.of_fields rfl h.memory rfl rfl rfl rfl rfl rfl rfl rfl
  · rw [hlatch]
    have hfit := indexFits_of_start (transferCount i) (s.latchCommand (encode i)) rfl
    have hentry : procedurePoint Frame.start i = true := by cases i <;> rfl
    exact ⟨h.params, h.memory, hphase, fun hidle => (by cases hidle),
      fun _ => ⟨i, decodeCommand_encode i hw, hentry, hadm, fun _ => hfit.index, fun _ => hfit.before,
        fun _ => hfit.done⟩,
      h.polls, fun hpoll => (by cases hpoll), h.status, h.index⟩

/-- The invariant does not speak of the pending turns. -/
theorem Inv.setTurns {s : State} (h : Inv s) (rest : List Turn) : Inv { s with turns := rest } :=
  h.of_fields rfl h.memory rfl rfl rfl rfl rfl rfl rfl rfl

/-- Settles O44: a reset leaves the invariant's base case; of the other steps a command's own and its accept step keep
it, and the host's accesses touch nothing it speaks of but a TXBUF byte. -/
theorem stepKeepsTheInvariant : Obligations.StepKeepsTheInvariant := by
  intro s t h hstep
  by_cases hreset : ∃ rest, s.turns = .reset :: rest
  · obtain ⟨rest, ht⟩ := hreset
    rw [step_reset s rest ht] at hstep
    cases hstep
    exact resetBlock_inv { s with turns := rest } h.params
  · obtain ⟨rest, i, -, hb, hd, he⟩ | ⟨rest, -, hb, rfl⟩ | ⟨rest, i, w, -, hb, -, he⟩ | ⟨rest, ht, -⟩ |
      ⟨rest, w, -, hb, -, rfl⟩ | ⟨rest, j, v, w, hb, -, rfl⟩ :=
      step_cases s t hstep fun rest ht => hreset ⟨rest, ht⟩
    · exact exec_inv i _ t (h.setTurns rest) hb hd he
    · exact h.setTurns rest
    · rw [exec_idle i { s with turns := rest } hb] at he
      cases he
      exact accept_inv i _ (h.setTurns rest) hb
    · rw [ht]
      exact h.of_fields rfl h.memory rfl rfl rfl rfl rfl rfl rfl rfl
    · exact h.of_fields rfl h.memory rfl rfl rfl rfl rfl rfl rfl rfl
    · exact h.of_fields rfl (State.writeTx_wf s j v h.memory) rfl rfl rfl rfl rfl rfl rfl rfl

/-- Settles O46: an idle block stands at the start position, where the phase is settled. -/
theorem idleBlockIsInASettledPhase : Obligations.IdleBlockIsInASettledPhase := by
  intro s t h hstep hb
  have ht := stepKeepsTheInvariant s t h hstep
  have hphase := ht.phase
  rw [ht.atRest hb] at hphase
  cases hp : t.phase <;> simp [hp, phaseFits, Frame.start, Phase.settled] at hphase ⊢

/-! ## Progress -/

/-- A running command takes its next step. -/
theorem sequencerStep_next (s : State) (h : Inv s) : ∃ t, sequencerStep s = .next t := by
  cases hb : s.busy with
  | false => exact ⟨s, sequencerStep_of_idle s hb⟩
  | true =>
    obtain ⟨i, hrun⟩ := h.running hb
    rw [sequencerStep_of_busy s i hb hrun.latched]
    exact (commandsRunAtTheirOwnPositionsOnly s i hb).1 hrun.point

/-- A host write that reaches a place has a next state: it is dropped, ignored, stored, or an accept step. -/
theorem hostWrite_next (p : WindowPlace) (v : Word) (s : State) : ∃ t, hostWrite p v s = .next t := by
  cases p with
  | cmd =>
    cases hb : s.busy with
    | true => exact ⟨_, hostWrite_cmd_of_busy v s hb⟩
    | false =>
      cases hd : decodeCommand v with
      | ok i => exact ⟨_, (issueCommand_of_ok v s i hb hd).trans (exec_idle i s hb)⟩
      | error e => exact ⟨_, issueCommand_of_error v s hb ⟨e, hd⟩⟩
  | _ => exact ⟨_, rfl⟩

/-- A host access has a next state or is refused as undefined (20_memory.md R65). -/
theorem hostStep_next_or_refused (a : HostAccess) (s : State) :
    (∃ t, hostStep a s = .next t) ∨ hostStep a s = .refused .undefinedHostAccess := by
  cases a with
  | read addr n =>
    cases hp : hostPlace s.cfg addr n with
    | none => exact .inr ((hostStep_read_refused_iff s addr n).mpr hp)
    | some p => exact .inl ⟨_, by rw [hostStep, hp]⟩
  | write addr n v =>
    cases hp : hostPlace s.cfg addr n with
    | none => exact .inr ((hostStep_write_refused_iff s addr n v).mpr hp)
    | some p =>
      left
      rw [hostStep, hp]
      exact hostWrite_next p v s

/-- Settles O45: the sequencer's steps and the reset go on, and a host access that does not is refused. -/
theorem onlyUndefinedHostAccessesStop : Obligations.OnlyUndefinedHostAccessesStop := by
  intro s h
  cases ht : s.turns with
  | nil =>
    rw [step_of_no_turns s ht]
    exact .inl (sequencerStep_next s h)
  | cons turn rest =>
    cases turn with
    | sequencer =>
      rw [step_sequencer s rest ht]
      exact .inl (sequencerStep_next _ (h.setTurns rest))
    | reset => exact .inl ⟨_, step_reset s rest ht⟩
    | host a =>
      rw [step_host s a rest ht]
      exact (hostStep_next_or_refused a _).imp_right fun href => ⟨href, a, rest, rfl⟩

/-! ## The index at the end of a command -/

/-- A transfer or address step succeeds on an accepted status, RECVB's transfer after its DATA read. -/
theorem composed_success {i : Instr} {tr : Transfer} {judge : Phase → Bool → Bool} {reads : Bool}
    (sh : ComposedShape i tr judge reads) (s u : State) (h : pollNext (stageArgs tr s) s = .returned .success u) :
    (¬ (s.frame.stage = .transfer ∧ reads = true) ∧ s.frame.point = .gotStatus ∧
      s.frame.ret &&& s.cfg.statusMask ∈ composedAccepts s i) ∨
    (s.frame.stage = .transfer ∧ reads = true ∧ s.frame.point = .gotData) := by
  obtain ⟨hr, hp, hm⟩ | ⟨hr, hp⟩ := pollNext_success _ s u h
  · rw [sh.accepts] at hm
    exact .inl ⟨fun hread => by simp [(sh.stageArgs_readsRx s).mpr hread] at hr, hp, hm⟩
  · obtain ⟨hg, hreads⟩ := (sh.stageArgs_readsRx s).mp hr
    exact .inr ⟨hg, hreads, hp⟩

/-- A composed command that ends has counted all its transfers on SUCCESS, and none where it came to none. -/
theorem composed_end_idx {i : Instr} {tr : Transfer} {judge : Phase → Bool → Bool} {reads : Bool}
    (sh : ComposedShape i tr judge reads) (s t : State) (hb : s.busy = true) (hfit : IndexFits tr.count s)
    (he : composedProc tr s = .next t) (hbt : t.busy = false) :
    (t.result = .success → t.idx.toNat = tr.count) ∧ (s.frame.stage ≠ .transfer → t.idx = 0#9) := by
  obtain ⟨-, rfl⟩ | ⟨hp, rfl⟩ | hu | ⟨r, u, hu, rfl⟩ := composedProc_cases tr s t he
  · obtain ⟨-, -, -, -, hbusy, -⟩ := beginComposed_kept s
    simp [hbusy, hb] at hbt
  · exact ⟨hfit.done hp, fun hg => hfit.before hg (by simp [hp])⟩
  · obtain ⟨-, -, -, hbusy, -⟩ := pollNext_kept _ s t (.inl hu)
    simp [hbusy, hb] at hbt
  · obtain ⟨k, -, -, hbu, -⟩ := pollNext_kept _ s u (.inr ⟨r, hu⟩)
    obtain ⟨hne, -⟩ := pollNext_point (stageArgs tr s) s (by simp [hu])
    obtain hgo | ⟨-, hr, hfin⟩ := stageReturned_busy_or sh s.frame.stage r u (hbu.trans hb)
    · simp [hgo] at hbt
    · rw [hfin]
      exact ⟨fun hres => absurd hres hr, fun hg => k.idx.trans (hfit.before hg hne)⟩

/-- Settles O40: `composedProc_idx` says where the index changes, and the invariant what it is at the end. -/
theorem indexCountsTheTransfers : Obligations.IndexCountsTheTransfers := by
  refine ⟨fun s t i hi hb he => ?changes, fun s t i h hi hb hd hr hstep hbt => ?atEnd⟩
  case changes =>
    obtain ⟨tr, judge, reads, sh⟩ := exists_composedShape i hi
    obtain hsame | hentry | ⟨v, hv, ⟨hg, hidx⟩ | ⟨hg, hidx⟩⟩ :=
      composedProc_idx tr sh.keeps s t (sh.exec s hb ▸ he)
    · exact .inl hsame
    · exact .inr (.inl hentry)
    · obtain ⟨-, hp, hm⟩ | ⟨htr, -, -⟩ := composed_success sh s v hv
      · exact .inr (.inr (.inl ⟨hg, hp, hm, hidx⟩))
      · simp [hg] at htr
    · obtain ⟨hn, hp, hm⟩ | ⟨-, hread, hp⟩ := composed_success sh s v hv
      · have hnr : ∀ a n, i ≠ .recvb a n := fun a n hc => hn ⟨hg, sh.isRecvb.mpr ⟨a, n, hc⟩⟩
        exact .inr (.inr (.inr ⟨hg, hidx, .inr ⟨hnr, hp, hm⟩⟩))
      · exact .inr (.inr (.inr ⟨hg, hidx, .inl ⟨sh.isRecvb.mp hread, hp⟩⟩))
  case atEnd =>
    obtain ⟨tr, judge, reads, sh⟩ := exists_composedShape i hi
    obtain ⟨j, hrun⟩ := h.running hb
    obtain rfl : j = i := Except.ok.inj (hrun.latched.symm.trans hd)
    obtain ⟨rest, j', -, -, hd', he⟩ | ⟨rest, -, hidle, -⟩ | ⟨rest, j', w, -, hidle, -, -⟩ | ⟨rest, ht, -⟩ |
      ⟨rest, w, -, hidle, -, -⟩ | ⟨rest, j', v, w, hidle, -, -⟩ := step_cases s t hstep hr
    case inr.inr.inr.inl =>
      rw [ht] at hbt
      simp [hb] at hbt
    case inl =>
      obtain rfl : j = j' := Except.ok.inj (hd.symm.trans hd')
      have hfit : IndexFits tr.count { s with turns := rest } := by
        obtain ⟨hindex, hbefore, hdone⟩ := hrun.indexFits hi
        rw [sh.count]
        exact ⟨hindex, hbefore, hdone⟩
      rw [← sh.count]
      exact composed_end_idx sh { s with turns := rest } t hb hfit (sh.exec { s with turns := rest } hb ▸ he) hbt
    all_goals simp [hb] at hidle

end Sys2Proof.Machine
end

section
/-! PROOFS. The polling primitives from their first write to their end (spec/41_primitives.md R143, R144, R165): the poll
loop that sees the flag and the one that does not, the validation of the status, and the whole port trace. -/

namespace Sys2Proof.Machine

/-! ## The poll loop -/

theorem pollNext_wroteCtrl (p : PollArgs) (s : State) (hp : s.frame.point = .wroteCtrl) :
    pollNext p s = .running ({ s with pollCount := 0#16 }.callRead .ctrl .polled) := by
  rw [pollNext, hp]

theorem pollNext_polled_seen (p : PollArgs) (s : State) (hp : s.frame.point = .polled)
    (hf : flagSeen s.cfg s.frame.ret = true) : pollNext p s = .running (s.callRead .status .gotStatus) := by
  simp [pollNext, hp, hf]

theorem pollNext_polled_clear (p : PollArgs) (s : State) (hp : s.frame.point = .polled)
    (hf : flagSeen s.cfg s.frame.ret = false) : pollNext p s = .running s.callWait := by
  simp [pollNext, hp, hf]

/-- The poll that comes to the bound times the step out (R144). -/
theorem pollNext_waited_exhausted (p : PollArgs) (s : State) (hp : s.frame.point = .waited)
    (hmax : s.pollCount.toNat + 1 = s.cfg.maxPolls) (hlt : s.pollCount.toNat < 65535) :
    pollNext p s = .returned .timeout s.countPoll.abort := by
  have hcount : s.countPoll.pollCount.toNat = s.cfg.maxPolls := by
    rw [← hmax, State.countPoll, BitVec.toNat_add]
    exact Nat.mod_eq_of_lt (by simp; omega)
  have hex : s.countPoll.pollsExhausted = true := decide_eq_true hcount
  simp [pollNext, hp, hex]

theorem portAnswer_of_cons (s : State) (v : Byte) (l : List Byte) (h : s.answers = v :: l) : s.portAnswer = v := by
  rw [State.portAnswer, h]

/-- The state after the CTRL read of `last`, the reads of `clear` and a wait for each of them made before. -/
def State.afterPolls (s : State) (clear : List Byte) (last : Byte) (rest : List Byte) : State :=
  { s with
    answers := rest
    draws := s.draws + clear.length + 1
    pollCount := BitVec.ofNat 16 clear.length
    trace := s.trace ++ clearPolls s.cfg clear ++ [.read .ctrl last]
    frame := { s.frame with point := .polled, ret := last } }

/-- From the CTRL write to the CTRL read of `last`, the reads before it having seen the flag clear (R144). -/
theorem poll_reads (i : Instr) (hi : isPollingPrimitive i = true ∨ isComposed i = true) (s : State)
    (clear : List Byte) (last : Byte) (rest : List Byte) (hl : s.cfg.maxPolls ≤ 65535) (hb : s.busy = true)
    (hp : s.frame.point = .wroteCtrl) (ha : s.answers = clear ++ last :: rest)
    (hk : clear.length < s.cfg.maxPolls) (hc : ∀ v ∈ clear, flagSeen s.cfg v = false) :
    execSteps i (2 * clear.length + 1) s = .next (s.afterPolls clear last rest) := by
  obtain ⟨args, hexec⟩ := exec_of_running i hi
  have hfirst : execSteps i 1 s = .next ({ s with pollCount := 0#16 }.callRead .ctrl .polled) := by
    rw [execSteps_one]
    exact hexec s _ hb (by simp [hp]) (by simp [hp]) (pollNext_wroteCtrl _ s hp)
  have hanswers : s.portAnswer :: s.answers.tail = clear ++ last :: rest := by
    cases hs : s.answers with
    | nil => simp [hs] at ha
    | cons v l => rw [portAnswer_of_cons s v l hs, ← ha, hs, List.tail_cons]
  rw [Nat.add_comm]
  refine (execSteps_add i 1 _ s _ hfirst).trans ((clear_polls i hi clear last rest
    ({ s with pollCount := 0#16 }.callRead .ctrl .polled) s.trace hl hb rfl hanswers rfl hc
    (by simpa using hk)).trans ?_)
  simp [State.afterPolls, State.callRead, State.portRead, State.gotoWith]
  omega

/-- Settles O24: `poll_reads`, whatever the last read returns. -/
theorem pollLoopEndsAtTheFlag : Obligations.PollLoopEndsAtTheFlag := by
  intro s i clear c rest hi hl hb hp ha hk hc _
  obtain ⟨-, hmax, -⟩ := hl
  exact poll_reads i hi s clear c rest hmax hb hp ha hk hc

/-- After a last read that sees the flag clear a primitive waits, comes to the bound and finishes with TIMEOUT. -/
theorem primitive_timesOut {i : Instr} {args : Params → PollArgs} {start : State → State}
    {legal : Phase → Bool → Bool} (sh : PrimitiveShape i args start legal) (s : State) (hb : s.busy = true)
    (hp : s.frame.point = .polled) (hf : flagSeen s.cfg s.frame.ret = false)
    (hmax : s.pollCount.toNat + 1 = s.cfg.maxPolls) (hlt : s.pollCount.toNat < 65535) :
    execSteps i (1 + 1) s = .next (s.callWait.countPoll.abort.finish .timeout) := by
  have hwait : exec i s = .next s.callWait := by
    rw [sh.exec s hb]
    exact primitiveProc_running _ start s _ (by simp [hp]) (pollNext_polled_clear _ s hp hf)
  have hend : exec i s.callWait = .next (s.callWait.countPoll.abort.finish .timeout) := by
    rw [sh.exec s.callWait hb]
    exact primitiveProc_returned _ start _ _ _ (by simp) (pollNext_waited_exhausted _ s.callWait rfl hmax hlt)
  rw [execSteps_add i 1 1 s _ (by rw [execSteps_one, hwait]), execSteps_one, hend]

/-- Settles O25: the last of the reads sees the flag clear as well, so the wait after it brings the count to the
bound. -/
theorem primitiveTimesOutAfterMaxPolls : Obligations.PrimitiveTimesOutAfterMaxPolls := by
  intro s i clear rest hi hl hb hp ha hlen hc
  obtain ⟨hpos, hmax, -⟩ := hl
  obtain rfl | ⟨init, last, rfl⟩ := List.eq_nil_or_concat' clear
  · rw [← hlen] at hpos
    cases hpos
  obtain ⟨args, start, legal, sh⟩ := exists_primitiveShape i hi
  rw [List.length_append, List.length_singleton] at hlen
  have hread := poll_reads i (.inl hi) s init last rest hmax hb hp (by simpa using ha) (by omega) fun v hv =>
    hc v (List.mem_append_left _ hv)
  have hcount : (s.afterPolls init last rest).pollCount.toNat = init.length :=
    Nat.mod_eq_of_lt (by omega)
  have hend := primitive_timesOut sh (s.afterPolls init last rest) hb rfl (hc last (by simp))
    (by rw [hcount]; exact hlen) (by omega)
  have hsteps : 2 * s.cfg.maxPolls + 1 = (2 * init.length + 1) + (1 + 1) := by omega
  rw [hsteps, execSteps_add i _ _ s _ hread, hend]
  simp [State.afterPolls, State.callWait, State.portWait, State.goto, State.countPoll, State.abort, State.finish,
    clearPolls, ← hlen, BitVec.ofNat_add]
  omega

/-! ## The validation of the status -/

/-- An accepted status ends a step that reads no DATA, in its OK phase unless it was out of order (R161). -/
theorem pollNext_gotStatus_settles (p : PollArgs) (s : State) (hp : s.frame.point = .gotStatus)
    (hr : p.readsRx = false) (hm : maskedStatus s.cfg s.frame.ret ∈ p.accepts) :
    pollNext p s = .returned .success (s.latchStatus.settlePhase p.ok) := by
  simp [pollNext, hp, validateStatus, hm, hr]

/-- Settles O26: the masked status is in the accept set or not; in both cases the step returns and the command
finishes. -/
theorem primitivesValidateTheStatus : Obligations.PrimitivesValidateTheStatus := by
  intro s i hi hn hb hp
  obtain ⟨args, start, legal, sh⟩ := exists_primitiveShape i hi
  have hr : (args s.cfg).readsRx = false := by
    rw [← Bool.not_eq_true, sh.reads]
    rintro ⟨a, ha⟩
    exact hn a ha
  have hok : (args s.cfg).ok = (primitivePhases i).2 := by rw [← sh.phases s.cfg]
  have hne : s.frame.point ≠ .entry := by simp [hp]
  rw [sh.exec s hb, ← sh.accepts s.cfg, ← hok]
  exact ⟨fun hm => primitiveProc_returned _ start s _ _ hne (pollNext_gotStatus_settles _ s hp hr hm),
    fun hm => primitiveProc_returned _ start s _ _ hne (pollNext_gotStatus_rejects _ s hp hm)⟩

/-! ## The whole port trace -/

/-- A polling primitive's writes bring it to its CTRL write, a step each (R145). -/
theorem primitive_writes (i : Instr) (hi : isPollingPrimitive i = true) (s : State) (hb : s.busy = true)
    (hp : s.frame.point = .entry) :
    ∃ c, execSteps i (primitiveWrites s.cfg i).length s = .next c ∧ c.frame.point = .wroteCtrl ∧
      c = { s with
        phase := c.phase, dir := c.dir, seqErr := c.seqErr, frame := c.frame,
        trace := s.trace ++ primitiveWrites s.cfg i } := by
  obtain ⟨t, e, more, legal, hfirst, hwrites, -, ht, hmore⟩ := primitivesBeginWithTheirWrites s i hi hb hp
  rw [hwrites]
  by_cases hm : more = []
  · subst hm
    refine ⟨t, (execSteps_one i s).trans hfirst, ?_, ?_⟩
    · rw [ht]
      rfl
    · rw [ht]
  · obtain ⟨e', rfl, hsecond⟩ := hmore hm
    refine ⟨_, (execSteps_add i 1 1 s t ((execSteps_one i s).trans hfirst)).trans
      ((execSteps_one i t).trans hsecond), rfl, ?_⟩
    rw [ht]
    simp

/-- From the entry to the STATUS read: the writes, the polls and the read (R143). -/
theorem primitive_toStatus (i : Instr) (hi : isPollingPrimitive i = true) (s : State) (hb : s.busy = true)
    (hp : s.frame.point = .entry) (hl : s.cfg.Legal) (clear rest : List Byte) (c st : Byte)
    (ha : s.answers = clear ++ c :: st :: rest) (hk : clear.length < s.cfg.maxPolls)
    (hclear : ∀ v ∈ clear, flagSeen s.cfg v = false) (hc : flagSeen s.cfg c = true) :
    ∃ g, execSteps i ((primitiveWrites s.cfg i).length + (2 * clear.length + 1) + 1) s = .next g ∧
      g.frame.point = .gotStatus ∧ g.frame.ret = st ∧ g.busy = true ∧ g.cfg = s.cfg ∧ g.rxdata = s.rxdata ∧
      g.answers = rest ∧ g.pollCount = BitVec.ofNat 16 clear.length ∧
      g.trace = s.trace ++ primitiveWrites s.cfg i ++ clearPolls s.cfg clear ++
        [.read .ctrl c, .read .status st] := by
  obtain ⟨-, hmax, -⟩ := hl
  obtain ⟨w, hw, hpw, heq⟩ := primitive_writes i hi s hb hp
  obtain ⟨hbw, hcfg, hans, htr, hrx⟩ : w.busy = true ∧ w.cfg = s.cfg ∧ w.answers = s.answers ∧
      w.trace = s.trace ++ primitiveWrites s.cfg i ∧ w.rxdata = s.rxdata := by
    rw [heq]
    exact ⟨hb, rfl, rfl, rfl, rfl⟩
  have hpolls := poll_reads i (.inl hi) w clear c (st :: rest) (hcfg ▸ hmax) hbw hpw (hans.trans ha)
    (hcfg ▸ hk) (hcfg ▸ hclear)
  obtain ⟨args, hexec⟩ := exec_of_running i (.inl hi)
  have hstatus := hexec (w.afterPolls clear c (st :: rest)) _ hbw (by simp [State.afterPolls])
    (by simp [State.afterPolls])
    (pollNext_polled_seen _ (w.afterPolls clear c (st :: rest)) rfl (by simpa [State.afterPolls, hcfg] using hc))
  have hanswer : (w.afterPolls clear c (st :: rest)).portAnswer = st := portAnswer_of_cons _ st rest rfl
  refine ⟨_, (execSteps_add i _ 1 s _ ((execSteps_add i _ _ s w hw).trans hpolls)).trans
    ((execSteps_one i _).trans hstatus), rfl, hanswer, hbw, hcfg, hrx, rfl, rfl, ?_⟩
  simp [State.afterPolls, State.portAnswer, htr, hcfg]

/-- A polling primitive writes at most DATA and CTRL, and RECV, which reads DATA, only CTRL. -/
theorem primitiveWrites_length (c : Params) (i : Instr) :
    (primitiveWrites c i).length ≤ 2 ∧ ∀ a, i = .recv a → (primitiveWrites c i).length = 1 := by
  refine ⟨?_, fun a ha => by rw [ha]; rfl⟩
  cases i <;> simp [primitiveWrites]

/-- How a polling primitive ends once STATUS is read (R143, R158): on an accepted status with SUCCESS, RECV after one
DATA read; on another with PROTOCOL in ABORTED. -/
theorem primitive_fromStatus (i : Instr) (hi : isPollingPrimitive i = true) (g : State) (hb : g.busy = true)
    (hp : g.frame.point = .gotStatus) (v : Byte) (rest : List Byte) (ha : g.answers = v :: rest) :
    let st := g.frame.ret &&& g.cfg.statusMask
    let ok := st ∈ primitiveAccepts g.cfg.statusCodes i
    let reads := ok ∧ ∃ ack, i = .recv ack
    ∃ m t, 1 ≤ m ∧ m ≤ 2 ∧ (m = 2 → reads) ∧ execSteps i m g = .next t ∧ t.busy = false ∧
      (ok → t.result = .success) ∧ (¬ ok → t.result = .protocol ∧ t.phase = .aborted) ∧
      t.lastStatus = st ∧ t.pollCount = g.pollCount ∧
      (reads → t.rxdata = v ∧ t.trace = g.trace ++ [.read .data v]) ∧
      (¬ reads → t.rxdata = g.rxdata ∧ t.trace = g.trace) := by
  intro st ok reads
  by_cases hrecv : ∃ a, i = .recv a
  · obtain ⟨a, rfl⟩ := hrecv
    have haccepts : ok ↔ st = if a then g.cfg.statusCodes.dataRxAck else g.cfg.statusCodes.dataRxNack :=
      mem_recvArgs_accepts g.cfg a st
    obtain ⟨haccepted, hrejected, -⟩ := recvReadsDataOnlyOnSuccess g a hb
    by_cases hok : ok
    · obtain ⟨v', hread, hv'⟩ := haccepted hp (haccepts.mp hok)
      obtain rfl : v' = v := by rw [hv', ha, List.headD_cons]
      have hfinish : ∀ u : State, u.busy = true → u.frame.point = .gotData → exec (.recv a) u = .next { u with
          rxdata := u.frame.ret, result := .success, busy := false, frame := Frame.start } := fun u hu hpu =>
        have ⟨_, _, hfin⟩ := recvReadsDataOnlyOnSuccess u a hu
        hfin hpu
      have hreads : reads := ⟨hok, a, rfl⟩
      exact ⟨2, _, by omega, by omega, fun _ => hreads,
        (execSteps_add _ 1 1 g _ ((execSteps_one _ g).trans hread)).trans ((execSteps_one _ _).trans (hfinish _ hb rfl)),
        rfl, fun _ => rfl, fun hn => absurd hok hn, rfl, rfl, fun _ => ⟨rfl, rfl⟩, fun hn => absurd hreads hn⟩
    · exact ⟨1, _, by omega, by omega, fun h => (by cases h),
        (execSteps_one _ g).trans (hrejected hp (mt haccepts.mpr hok)), rfl, fun h => absurd h hok,
        fun _ => ⟨rfl, rfl⟩, rfl, rfl, fun h => absurd h.1 hok, fun _ => ⟨rfl, rfl⟩⟩
  · obtain ⟨haccepted, hrejected⟩ := primitivesValidateTheStatus g i hi (fun a h => hrecv ⟨a, h⟩) hb hp
    have hnr : ¬ reads := fun h => hrecv h.2
    by_cases hok : ok
    · exact ⟨1, _, by omega, by omega, fun h => (by cases h), (execSteps_one _ g).trans (haccepted hok), rfl,
        fun _ => rfl, fun hn => absurd hok hn, rfl, rfl, fun h => absurd h hnr, fun _ => ⟨rfl, rfl⟩⟩
    · exact ⟨1, _, by omega, by omega, fun h => (by cases h), (execSteps_one _ g).trans (hrejected hok), rfl,
        fun h => absurd h hok, fun _ => ⟨rfl, rfl⟩, rfl, rfl, fun h => absurd h hnr, fun _ => ⟨rfl, rfl⟩⟩

/-- Settles O28: accepted, the command comes to its STATUS read and ends as `primitive_fromStatus` says. -/
theorem primitiveTraceShape : Obligations.PrimitiveTraceShape := by
  intro s i clear rest c st v hi hl hb hinit hk hclear hc ha ok reads
  have hn : needsInit i = true := by cases i <;> simp [isPollingPrimitive] at hi <;> rfl
  have hw : i.wellFormed = true := by cases i <;> simp [isPollingPrimitive] at hi <;> rfl
  have haccept : execSteps i 1 s = .next (s.latchCommand (encode i)) := by
    rw [execSteps_one, exec_idle i s hb,
      accept_latches i s hw (by simp [hinit]) (badDivisor_of_needsInit s.cfg i hn)]
  obtain ⟨g, hg, hpoint, rfl, hbg, hcfg, hrx, hans, hpc, htr⟩ := primitive_toStatus i hi
    (s.latchCommand (encode i)) rfl rfl hl clear (v :: rest) c st ha hk hclear hc
  obtain ⟨m, t, hm1, hm2, hmr, ht, hbt, hokt, hnokt, hls, hpct, hreads, hnreads⟩ :=
    primitive_fromStatus i hi g hbg hpoint v rest hans
  rw [show g.cfg = s.cfg from hcfg] at hmr hokt hnokt hls hreads hnreads
  obtain ⟨hlen, hlenRecv⟩ := primitiveWrites_length s.cfg i
  have hsteps := (execSteps_add i _ m s g ((execSteps_add i 1 _ s _ haccept).trans hg)).trans ht
  have hbound : (primitiveWrites s.cfg i).length + m ≤ 3 := by
    rcases Nat.lt_or_ge m 2 with hlt | hge
    · omega
    · obtain ⟨-, a, hrecv⟩ := hmr (by omega)
      have := hlenRecv a hrecv
      omega
  refine ⟨(primitiveWrites s.cfg i).length + (2 * clear.length + 1) + 1 + m, t, by omega, ?_, hbt, hokt, hnokt,
    hls, ?_, fun hr => ?_, fun hr => ?_⟩
  · have hcount : (primitiveWrites s.cfg i).length + (2 * clear.length + 1) + 1 + m + 1 =
        1 + ((primitiveWrites s.cfg i).length + (2 * clear.length + 1) + 1) + m := by omega
    rw [hcount]
    exact hsteps
  · obtain ⟨-, hmax, -⟩ := hl
    rw [hpct, hpc]
    exact Nat.mod_eq_of_lt (by omega)
  · obtain ⟨hrx', htr'⟩ := hreads hr
    exact ⟨hrx', by rw [htr', htr]; simp⟩
  · obtain ⟨hrx', htr'⟩ := hnreads hr
    exact ⟨hrx'.trans hrx, htr'.trans htr⟩

end Sys2Proof.Machine
end

section
/-! PROOFS. The steps of the composed commands (spec/42_composed.md R180 to R191), each as a whole next state: the start,
its failure, the address, the transfers, the stop. -/

namespace Sys2Proof.Machine

/-! ## The start -/

/-- The first step of a composed command (R180). -/
theorem beginComposed_eq (s : State) :
    beginComposed s = { s with
      phase := .startPending, seqErr := s.seqErr || !startLegal s.phase, idx := 0#9,
      trace := s.trace ++ [.write .ctrl s.cfg.ctrl.start],
      frame := { s.frame with point := .wroteCtrl, stage := .start, legal := startLegal s.phase } } :=
  rfl

/-- Settles O32: a composed command's first step is `beginComposed`. -/
theorem composedCommandsBeginWithStart : Obligations.ComposedCommandsBeginWithStart := by
  intro s i hi hb hp
  obtain ⟨tr, judge, reads, sh⟩ := exists_composedShape i hi
  exact ⟨startLegal s.phase, startLegal_iff s.phase,
    (sh.exec s hb).trans ((composedProc_entry tr s hp).trans (congrArg _ (beginComposed_eq s)))⟩

/-! ## Failures -/

/-- A status outside the step's accept set returns PROTOCOL. -/
theorem composed_rejects {i : Instr} {tr : Transfer} {judge : Phase → Bool → Bool} {reads : Bool}
    (sh : ComposedShape i tr judge reads) (s : State) (hp : s.frame.point = .gotStatus)
    (hm : s.frame.ret &&& s.cfg.statusMask ∉ composedAccepts s i) :
    pollNext (stageArgs tr s) s = .returned .protocol s.latchStatus.abort :=
  pollNext_gotStatus_rejects _ s hp (by rw [sh.accepts]; exact hm)

/-- What a composed command does with a polling step's result. -/
theorem exec_composed_returned {i : Instr} {tr : Transfer} {judge : Phase → Bool → Bool} {reads : Bool}
    (sh : ComposedShape i tr judge reads) (s u : State) (r : Result) (hb : s.busy = true)
    (h : pollNext (stageArgs tr s) s = .returned r u) :
    exec i s = .next (stageReturned tr s.frame.stage r u) :=
  (sh.exec s hb).trans (composedProc_returned tr s u r h)

/-- A failed start finishes (R185). -/
theorem stageReturned_start_fail (tr : Transfer) (r : Result) (s : State) (hr : r ≠ .success) :
    stageReturned tr .start r s = s.finish r :=
  if_neg hr

/-- A later failure stops the bus (R184). -/
theorem stageReturned_later_fail (tr : Transfer) (g : Stage) (r : Result) (s : State) (hg : g ≠ .start)
    (hr : r ≠ .success) : stageReturned tr g r s = beginStop r s := by
  cases g with
  | start => exact absurd rfl hg
  | address => exact if_neg hr
  | transfer => exact if_neg hr

/-- Settles O33: the start step times out or reads another status, and its result finishes the command. -/
theorem noStopAfterFailedStart : Obligations.NoStopAfterFailedStart := by
  intro s i hi hb hg
  obtain ⟨tr, judge, reads, sh⟩ := exists_composedShape i hi
  refine ⟨fun hp hmax hlt => ?timeout, fun hp hs hrs => ?protocol⟩
  case timeout =>
    rw [exec_composed_returned sh s _ _ hb (pollNext_waited_exhausted _ s hp hmax hlt), hg,
      stageReturned_start_fail tr _ _ (by simp)]
    rfl
  case protocol =>
    have hm : s.frame.ret &&& s.cfg.statusMask ∉ composedAccepts s i := by
      simp [composedAccepts, hg, hs, hrs]
    rw [exec_composed_returned sh s _ _ hb (composed_rejects sh s hp hm), hg,
      stageReturned_start_fail tr _ _ (by simp)]
    rfl

/-- The step after the stop's write finishes with the result kept (41_primitives.md R163). -/
theorem exec_composed_stopped {i : Instr} {tr : Transfer} {judge : Phase → Bool → Bool} {reads : Bool}
    (sh : ComposedShape i tr judge reads) (s : State) (hb : s.busy = true) (hp : s.frame.point = .stopped) :
    exec i s = .next { s with
      phase := .idle, result := s.frame.res, busy := false, frame := Frame.start } :=
  (sh.exec s hb).trans ((composedProc_stopped tr s hp).trans (congrArg _ (endStop_eq s)))

/-- Settles O39: `exec_composed_stopped`. -/
theorem composedCommandsFinishAfterTheStop : Obligations.ComposedCommandsFinishAfterTheStop := by
  intro s i hi hb hp
  obtain ⟨tr, judge, reads, sh⟩ := exists_composedShape i hi
  exact exec_composed_stopped sh s hb hp

/-- Settles O34: a failure after the start is followed by the stop's write, which keeps its result for the last step. -/
theorem laterFailureStopsTheBus : Obligations.LaterFailureStopsTheBus := by
  intro s i hi hb hg
  obtain ⟨tr, judge, reads, sh⟩ := exists_composedShape i hi
  refine ⟨fun hp hmax hlt => ⟨_, ?timeout, rfl, exec_composed_stopped sh _ hb rfl⟩,
    fun hp hm => ⟨_, ?protocol, rfl, exec_composed_stopped sh _ hb rfl⟩⟩
  case timeout =>
    rw [exec_composed_returned sh s _ _ hb (pollNext_waited_exhausted _ s hp hmax hlt),
      stageReturned_later_fail tr _ _ _ hg (by simp)]
    rfl
  case protocol =>
    rw [exec_composed_returned sh s _ _ hb (composed_rejects sh s hp hm),
      stageReturned_later_fail tr _ _ _ hg (by simp)]
    rfl

/-! ## The address -/

/-- A start step that accepts its status is followed by the SLA byte (R180). -/
theorem exec_composed_startOk {i : Instr} {tr : Transfer} {judge : Phase → Bool → Bool} {reads : Bool}
    (sh : ComposedShape i tr judge reads) (s : State) (hb : s.busy = true) (hg : s.frame.stage = .start)
    (hp : s.frame.point = .gotStatus) (hm : s.frame.ret &&& s.cfg.statusMask ∈ composedAccepts s i) :
    exec i s = .next { s with
      lastStatus := s.frame.ret &&& s.cfg.statusMask, phase := .addrPending, dir := slaIsRead tr.sla,
      seqErr := s.seqErr || !s.frame.legal, trace := s.trace ++ [.write .data tr.sla],
      frame := { s.frame with
        point := .wroteData, stage := .address, legal := s.frame.legal } } := by
  have hargs : stageArgs tr s = startArgs s.cfg := by rw [stageArgs, hg]
  have hreturn : pollNext (stageArgs tr s) s = .returned .success (s.latchStatus.settlePhase .startOk) := by
    have h := pollNext_gotStatus_settles (stageArgs tr s) s hp (by rw [hargs]; rfl) (by rw [sh.accepts]; exact hm)
    rw [h, hargs]
    rfl
  have hlegal : addrLegal ((s.latchStatus.settlePhase .startOk).enterStage .address).phase = s.frame.legal := by
    cases h : s.frame.legal <;> simp [addrLegal, h]
  rw [exec_composed_returned sh s _ _ hb hreturn, hg, stageReturned, if_pos rfl, beginAddr, hlegal, beginPoll_eq]
  rfl

/-- Settles O35: the SLA byte is twice the address and the direction bit, which is the command's (30_encoding.md
R100). -/
theorem successfulStartIsFollowedByTheAddress : Obligations.SuccessfulStartIsFollowedByTheAddress := by
  intro s i a7 n hi hb hg hp hm
  obtain rfl | rfl | rfl := hi
  · refine ⟨slaByte a7 false, false, slaByte_toNat a7 false, by simp, ?_⟩
    rw [exec_composed_startOk (sendbShape a7 n) s hb hg hp hm]
    exact congrArg _ (by rw [show (sendbTransfer a7 n).sla = slaByte a7 false from rfl, slaIsRead_slaByte])
  · refine ⟨slaByte a7 false, false, slaByte_toNat a7 false, by simp, ?_⟩
    rw [exec_composed_startOk (send1Shape a7 n) s hb hg hp hm]
    exact congrArg _ (by rw [show (send1Transfer a7 n).sla = slaByte a7 false from rfl, slaIsRead_slaByte])
  · refine ⟨slaByte a7 true, true, slaByte_toNat a7 true, by simp, ?_⟩
    rw [exec_composed_startOk (recvbShape a7 n) s hb hg hp hm]
    exact congrArg _ (by rw [show (recvbTransfer a7 n).sla = slaByte a7 true from rfl, slaIsRead_slaByte])

/-! ## The transfer loop -/

/-- While bytes are left the loop head begins the next transfer (R182, R188). -/
theorem loopHead_more {i : Instr} {tr : Transfer} {judge : Phase → Bool → Bool} {reads : Bool}
    (sh : ComposedShape i tr judge reads) (s : State) (h : s.idx.toNat < tr.count) :
    loopHead tr s = beginPoll (tr.args (s.enterStage .transfer)) (judge s.phase s.dir)
      (s.enterStage .transfer) := by
  have hmore : moreBytes s.idx tr.count = true := decide_eq_true h
  rw [loopHead, if_pos hmore, sh.start]
  rfl

/-- With none left it stops the bus with SUCCESS kept. -/
theorem loopHead_done (tr : Transfer) (s : State) (h : tr.count ≤ s.idx.toNat) :
    loopHead tr s = beginStop .success s := by
  have hnot : ¬ moreBytes s.idx tr.count = true := by simpa [moreBytes] using h
  rw [loopHead, if_neg hnot]

/-- The state after an accepted status, with the index it leads to. -/
def State.afterStatus (s : State) (ok : Phase) (k : BitVec 9) : State :=
  { s.latchStatus.settlePhase ok with idx := k }

/-- An address step that accepts its status comes to the loop head with the index at 0, a send step with the index
one higher (R183). -/
theorem exec_composed_loopHead {i : Instr} {tr : Transfer} {judge : Phase → Bool → Bool} {reads : Bool}
    (sh : ComposedShape i tr judge reads) (s : State) (idx' : BitVec 9) (hb : s.busy = true)
    (hp : s.frame.point = .gotStatus)
    (hg : s.frame.stage = .address ∧ idx' = 0#9 ∨
      s.frame.stage = .transfer ∧ reads = false ∧ idx' = s.idx + 1#9)
    (hm : s.frame.ret &&& s.cfg.statusMask ∈ composedAccepts s i) :
    exec i s = .next (loopHead tr (s.afterStatus (stageArgs tr s).ok idx')) := by
  have hr : (stageArgs tr s).readsRx = false := by
    rw [← Bool.not_eq_true, sh.stageArgs_readsRx]
    rintro ⟨hstage, hreads⟩
    obtain ⟨hstage', -⟩ | ⟨-, hreads', -⟩ := hg
    · simp [hstage] at hstage'
    · simp [hreads] at hreads'
  have hreturn := pollNext_gotStatus_settles (stageArgs tr s) s hp hr (by rw [sh.accepts]; exact hm)
  rw [exec_composed_returned sh s _ _ hb hreturn]
  obtain ⟨hstage, rfl⟩ | ⟨hstage, hreads, rfl⟩ := hg
  · rw [hstage, stageReturned, if_pos rfl]
    rfl
  · rw [hstage, stageReturned, if_pos rfl, sh.store, hreads]
    rfl

/-- The transfer after steps in order is in order, as far as the phase says (R146, R161): the address and the transfer
steps leave a phase DATA is legal in, or ABORTED. -/
theorem dataLegal_settle (legal : Bool) (ok : Phase) (hok : ok = .addrOk ∨ ok = .dataOk) :
    dataLegal (if legal then ok else .aborted) = legal := by
  obtain rfl | rfl := hok <;> cases legal <;> rfl

theorem ComposedShape.stageArgs_ok {i : Instr} {tr : Transfer} {judge : Phase → Bool → Bool} {reads : Bool}
    (sh : ComposedShape i tr judge reads) (s : State) (hg : s.frame.stage ≠ .start) :
    (stageArgs tr s).ok = .addrOk ∨ (stageArgs tr s).ok = .dataOk := by
  unfold stageArgs
  cases h : s.frame.stage with
  | start => exact absurd h hg
  | address => exact .inl rfl
  | transfer => exact .inr (sh.ok s)

/-- SENDB's byte for an index within the count is TXBUF's at that index (log 20). -/
theorem txByte_of_idx (s : State) (h : s.idx.toNat ≤ 255) :
    s.txByte s.bufIndex = s.bufferByte (0x100 + s.idx.toNat) := by
  have hidx : (s.idx.setWidth 8).toNat = s.idx.toNat := by
    rw [BitVec.toNat_setWidth]
    exact Nat.mod_eq_of_lt (by omega)
  rw [State.txByte, State.bufIndex, txOffset, hidx]

/-- A send command's next step after an accepted address or data status, given the byte its transfer has. -/
theorem exec_send_next {i : Instr} {tr : Transfer} (sh : ComposedShape i tr (fun p _ => dataLegal p) false)
    (s : State) (idx' : BitVec 9) (b : Byte) (hb : s.busy = true) (hp : s.frame.point = .gotStatus)
    (hg : s.frame.stage = .address ∧ idx' = 0#9 ∨ s.frame.stage = .transfer ∧ idx' = s.idx + 1#9)
    (hm : s.frame.ret &&& s.cfg.statusMask ∈ composedAccepts s i)
    (hbyte : ∀ ok, idx'.toNat < tr.count →
      (tr.args ((s.afterStatus ok idx').enterStage .transfer)).wdata = some b) :
    (idx'.toNat < tr.count →
      exec i s = .next { s with
        lastStatus := s.frame.ret &&& s.cfg.statusMask, idx := idx', phase := .dataPending,
        seqErr := s.seqErr || !s.frame.legal, trace := s.trace ++ [.write .data b],
        frame := { s.frame with point := .wroteData, stage := .transfer } }) ∧
    (tr.count ≤ idx'.toNat →
      exec i s = .next { s with
        lastStatus := s.frame.ret &&& s.cfg.statusMask, idx := idx', phase := .stopIssued,
        trace := s.trace ++ [.write .ctrl s.cfg.ctrl.stop],
        frame := { s.frame with point := .stopped, res := .success } }) := by
  have hstage : s.frame.stage ≠ .start := by
    obtain ⟨h, -⟩ | ⟨h, -⟩ := hg <;> simp [h]
  rw [exec_composed_loopHead sh s idx' hb hp (hg.imp_right fun h => ⟨h.1, rfl, h.2⟩) hm]
  have hlegal : dataLegal (s.afterStatus (stageArgs tr s).ok idx').phase = s.frame.legal :=
    dataLegal_settle _ _ (sh.stageArgs_ok s hstage)
  refine ⟨fun hlt => congrArg _ ?_, fun hge => congrArg _ ?_⟩
  · rw [loopHead_more sh (s.afterStatus (stageArgs tr s).ok idx') hlt, beginPoll_eq, hbyte _ hlt, hlegal, sh.pend]
    rfl
  · rw [loopHead_done tr _ hge, beginStop_eq]
    rfl

/-- Settles O36: SENDB's transfer has TXBUF's byte at the index, SEND1's the byte of its word. -/
theorem sendTransfersBytesInOrder : Obligations.SendTransfersBytesInOrder := by
  intro s i a7 n idx' hi hb hp hg hm count b
  obtain rfl | rfl := hi
  · have hcount : count = n.toNat := if_pos rfl
    have hb' : b = s.bufferByte (0x100 + idx'.toNat) := if_pos rfl
    rw [hcount, hb']
    refine exec_send_next (sendbShape a7 n) s idx' _ hb hp hg hm fun ok hlt => ?_
    have hle : idx'.toNat ≤ 255 := by
      have hn := n.isLt
      have hlt : idx'.toNat < n.toNat := hlt
      omega
    exact congrArg some (txByte_of_idx ((s.afterStatus ok idx').enterStage .transfer) hle)
  · have hcount : count = 1 := if_neg (by simp)
    have hb' : b = n := if_neg (by simp)
    rw [hcount, hb']
    exact exec_send_next (send1Shape a7 n) s idx' n hb hp hg hm fun _ _ => rfl

/-! ## RECVB -/

/-- A receive step after steps in order is in order in a read transaction. -/
theorem recvLegal_settle (legal : Bool) (ok : Phase) (dir : Bool) (hok : ok = .addrOk ∨ ok = .dataOk) :
    recvLegal (if legal then ok else .aborted) dir = (legal && dir) := by
  obtain rfl | rfl := hok <;> cases legal <;> cases dir <;> rfl

/-- A receive step acknowledges the byte if another is to come (R189). -/
theorem recvCtrl_recvbAck (c : Params) (k : BitVec 9) (n : Byte) :
    recvCtrl c (recvbAck k n) = if k.toNat + 1 < n.toNat then c.ctrl.recvAck else c.ctrl.xfer := by
  simp [recvCtrl, recvbAck]

/-- Settles O37: the address step leads to the loop head, where a byte is left, and a transfer's accepted status to the
DATA read. -/
theorem recvbAsksForAndReadsEachByte : Obligations.RecvbAsksForAndReadsEachByte := by
  intro s a7 n hb hp hn hm
  have sh := recvbShape a7 n
  refine ⟨fun hg => ?asks, fun hg => ⟨s.portAnswer, s.portAnswer_eq_headD, ?reads⟩⟩
  case asks =>
    have hlt : (0#9).toNat < (recvbTransfer a7 n).count := by
      show 0 < n.toNat
      bv_omega
    have hlegal : recvLegal (s.afterStatus (stageArgs (recvbTransfer a7 n) s).ok 0#9).phase
        (s.afterStatus (stageArgs (recvbTransfer a7 n) s).ok 0#9).dir = (s.frame.legal && s.dir) :=
      recvLegal_settle _ _ _ (sh.stageArgs_ok s (by simp [hg]))
    have hctrl : ((recvbTransfer a7 n).args
        ((s.afterStatus (stageArgs (recvbTransfer a7 n) s).ok 0#9).enterStage .transfer)).ctrl =
        if 1 < n.toNat then s.cfg.ctrl.recvAck else s.cfg.ctrl.xfer :=
      recvCtrl_recvbAck s.cfg 0#9 n
    rw [exec_composed_loopHead sh s 0#9 hb hp (.inl ⟨hg, rfl⟩) hm, loopHead_more sh _ hlt, beginPoll_eq, hlegal,
      hctrl]
    rfl
  case reads =>
    have hargs : stageArgs (recvbTransfer a7 n) s = (recvbTransfer a7 n).args s := by rw [stageArgs, hg]
    have hread := pollNext_gotStatus_reads (stageArgs (recvbTransfer a7 n) s) s hp (by rw [hargs]; rfl)
      (by rw [sh.accepts]; exact hm)
    rw [sh.exec s hb, composedProc_running _ s _ hread, hargs]
    rfl

/-- The state RECVB comes to the loop head in after a byte: the byte stored, the index one higher. -/
def State.afterByte (s : State) : State :=
  { ({ s with rxdata := s.frame.ret } : State).writeRx s.bufIndex s.frame.ret with idx := s.idx + 1#9 }

theorem exec_recvb_gotData (a7 : BitVec 7) (n : Byte) (s : State) (hb : s.busy = true)
    (hp : s.frame.point = .gotData) (hg : s.frame.stage = .transfer) :
    exec (.recvb a7 n) s = .next (loopHead (recvbTransfer a7 n) s.afterByte) := by
  have sh := recvbShape a7 n
  have hreturn := pollNext_gotData (stageArgs (recvbTransfer a7 n) s) s hp ((sh.stageArgs_readsRx s).mpr ⟨hg, rfl⟩)
  rw [exec_composed_returned sh s _ _ hb hreturn, hg, stageReturned, if_pos rfl]
  rfl

/-- The memory after a byte has it at RXBUF's index and is else as before. -/
theorem afterByte_bufferByte (s t : State) (off : Nat) (hidx : s.idx.toNat ≤ 255) (hm : t.mem = s.afterByte.mem)
    (hr : t.resets = s.resets) :
    t.bufferByte off = if off = 0x200 + s.idx.toNat then s.frame.ret else s.bufferByte off := by
  have hoff : rxOffset s.bufIndex = 0x200 + s.idx.toNat := by
    rw [rxOffset, State.bufIndex, BitVec.toNat_setWidth, Nat.mod_eq_of_lt (by omega)]
  rw [← hoff, State.bufferByte_congr (s.writeRx s.bufIndex s.frame.ret) t off hm hr, State.bufferByte_writeRx]

/-- Settles O38: the byte read is stored and counted, and the loop head asks for the next or stops the bus. -/
theorem recvbStoresBytesInOrder : Obligations.RecvbStoresBytesInOrder := by
  intro s a7 n hb hp hg hlt
  have sh := recvbShape a7 n
  have hn : n.toNat ≤ 255 := Nat.le_of_lt_succ n.isLt
  have hidx := idx_add_one_toNat s.idx n.toNat hlt hn
  have hidx' : s.afterByte.idx.toNat = s.idx.toNat + 1 := hidx
  have hkept := (loopHead_kept (recvbTransfer a7 n) sh.keeps s.afterByte).1
  have hbyte := fun off => afterByte_bufferByte s (loopHead (recvbTransfer a7 n) s.afterByte) off (by omega) hkept.mem
    hkept.resets
  refine ⟨_, recvLegal s.phase s.dir, exec_recvb_gotData a7 n s hb hp hg, recvLegal_iff _ _, hidx, fun hwf => ?wf,
    (hbyte _).trans (if_pos rfl), fun off hne => (hbyte off).trans (if_neg hne), fun hmore => ?more,
    fun hlast => ?last⟩
  case wf =>
    rw [hkept.mem]
    exact State.writeRx_wf s _ _ hwf
  case more =>
    have hctrl : ((recvbTransfer a7 n).args (s.afterByte.enterStage .transfer)).ctrl =
        if s.idx.toNat + 2 < n.toNat then s.cfg.ctrl.recvAck else s.cfg.ctrl.xfer := by
      have h := recvCtrl_recvbAck s.cfg (s.idx + 1#9) n
      rw [hidx] at h
      exact h
    rw [loopHead_more sh s.afterByte (by rw [hidx']; exact hmore), beginPoll_eq, hctrl]
    simp [recvbTransfer, recvArgs, State.afterByte, State.enterStage, State.writeRx, hg]
  case last =>
    rw [loopHead_done _ _ (by rw [hidx']; exact hlast.ge), beginStop_eq]
    rfl

end Sys2Proof.Machine
end

section
/-! PROOFS. What a running command does not depend on: the role (spec/40_configuration.md R133), the host's accesses
(20_memory.md R64, R76), and for SEND1 the buffers, so that it goes like SENDB of one byte (42_composed.md R187). -/

namespace Sys2Proof.Machine

/-! ## Fields a command does not read -/

/-- A change of fields that a command, but for the exceptions named below, neither reads nor overwrites. -/
structure Unread where
  role      : Role → Role := id
  ownAddr   : Byte → Byte := id
  overrun   : Bool → Bool := id
  hostReads : List Word → List Word := id
  cur       : Word → Word := id
  mem       : Memory → Memory := id

/-- The state with those fields changed. -/
def Unread.apply (e : Unread) (s : State) : State :=
  { s with
    role := e.role s.role
    ownAddr := e.ownAddr s.ownAddr
    overrun := e.overrun s.overrun
    hostReads := e.hostReads s.hostReads
    cur := e.cur s.cur
    mem := e.mem s.mem }

/-- What a polling step comes to, its state changed by `f`. -/
def Progress.map (f : State → State) : Progress → Progress
  | .running s => .running (f s)
  | .returned r s => .returned r (f s)
  | .lost => .lost

theorem validateStatus_apply (e : Unread) (p : PollArgs) (s : State) :
    validateStatus p (e.apply s) = (validateStatus p s).map e.apply := by
  unfold validateStatus
  rw [apply_ite (Progress.map e.apply), apply_ite (Progress.map e.apply)]
  rfl

/-- A polling step depends on none of them. -/
theorem pollNext_apply (e : Unread) (p : PollArgs) (s : State) :
    pollNext p (e.apply s) = (pollNext p s).map e.apply := by
  have hpoint : (e.apply s).frame.point = s.frame.point := rfl
  unfold pollNext
  rw [hpoint]
  cases s.frame.point with
  | wroteData | polled | waited | gotData =>
    dsimp only
    rw [apply_ite (Progress.map e.apply)]
    rfl
  | gotStatus => exact validateStatus_apply e p s
  | _ => rfl

theorem beginPoll_apply (e : Unread) (p : PollArgs) (legal : Bool) (s : State) :
    beginPoll p legal (e.apply s) = e.apply (beginPoll p legal s) := by
  rw [beginPoll_eq, beginPoll_eq]
  rfl

theorem beginStart_apply (e : Unread) (s : State) : beginStart (e.apply s) = e.apply (beginStart s) :=
  beginPoll_apply e (startArgs s.cfg) (startLegal s.phase) s

theorem beginAddr_apply (e : Unread) (b : Byte) (s : State) : beginAddr b (e.apply s) = e.apply (beginAddr b s) :=
  beginPoll_apply e (addrArgs s.cfg b) (addrLegal s.phase) { s with dir := slaIsRead b }

theorem beginData_apply (e : Unread) (b : Byte) (s : State) : beginData b (e.apply s) = e.apply (beginData b s) :=
  beginPoll_apply e (dataArgs s.cfg b) (dataLegal s.phase) s

theorem beginRecv_apply (e : Unread) (a : Bool) (s : State) : beginRecv a (e.apply s) = e.apply (beginRecv a s) :=
  beginPoll_apply e (recvArgs s.cfg a) (recvLegal s.phase s.dir) s

theorem primitiveProc_apply (e : Unread) (p : PollArgs) (start : State → State) (s : State)
    (hstart : start (e.apply s) = e.apply (start s)) :
    primitiveProc p start (e.apply s) = mapNext e.apply (primitiveProc p start s) := by
  unfold primitiveProc
  rw [hstart, pollNext_apply, apply_ite (mapNext e.apply)]
  cases pollNext p s <;> rfl

/-- A transfer whose arguments, first step and store do not depend on them. -/
structure Transfer.Blind (e : Unread) (tr : Transfer) : Prop where
  args  : ∀ s, tr.args (e.apply s) = tr.args s
  start : ∀ s, tr.start (e.apply s) = e.apply (tr.start s)
  store : ∀ s, tr.store (e.apply s) = e.apply (tr.store s)

theorem loopHead_apply (e : Unread) (tr : Transfer) (ht : tr.Blind e) (s : State) :
    loopHead tr (e.apply s) = e.apply (loopHead tr s) := by
  unfold loopHead
  rw [apply_ite e.apply, ← ht.start]
  rfl

theorem stageReturned_apply (e : Unread) (tr : Transfer) (ht : tr.Blind e) (g : Stage) (r : Result) (s : State) :
    stageReturned tr g r (e.apply s) = e.apply (stageReturned tr g r s) := by
  cases g with
  | start =>
    unfold stageReturned
    dsimp only
    rw [apply_ite e.apply]
    exact if_congr Iff.rfl (beginAddr_apply e tr.sla (s.enterStage .address)) rfl
  | address =>
    unfold stageReturned
    dsimp only
    rw [apply_ite e.apply]
    exact if_congr Iff.rfl (loopHead_apply e tr ht { s with idx := 0#9 }) rfl
  | transfer =>
    unfold stageReturned
    dsimp only
    rw [apply_ite e.apply, ht.store]
    exact if_congr Iff.rfl (loopHead_apply e tr ht { tr.store s with idx := s.idx + 1#9 }) rfl

theorem stageArgs_apply (e : Unread) (tr : Transfer) (ht : tr.Blind e) (s : State) :
    stageArgs tr (e.apply s) = stageArgs tr s := by
  have hstage : (e.apply s).frame.stage = s.frame.stage := rfl
  rw [stageArgs, stageArgs, hstage, ht.args]
  rfl

theorem composedProc_apply (e : Unread) (tr : Transfer) (ht : tr.Blind e) (s : State) :
    composedProc tr (e.apply s) = mapNext e.apply (composedProc tr s) := by
  unfold composedProc
  rw [stageArgs_apply e tr ht, pollNext_apply, apply_ite (mapNext e.apply), apply_ite (mapNext e.apply)]
  cases pollNext (stageArgs tr s) s with
  | running t => rfl
  | returned r t =>
    dsimp only [Progress.map]
    rw [stageReturned_apply e tr ht]
    rfl
  | lost => rfl

/-- A send's or a receive's first step does not depend on them, given that its byte does not. -/
theorem sendbTransfer_blind (e : Unread) (hm : e.mem = id) (a : BitVec 7) (n : Byte) :
    (sendbTransfer a n).Blind e := by
  have hbyte : ∀ s : State, (e.apply s).txByte (e.apply s).bufIndex = s.txByte s.bufIndex := fun s =>
    State.bufferByte_congr s (e.apply s) _ (by rw [Unread.apply, hm]; rfl) rfl
  refine ⟨fun s => congrArg (dataArgs s.cfg) (hbyte s), fun s => ?_, fun s => rfl⟩
  show beginData _ (e.apply s) = _
  rw [hbyte]
  exact beginData_apply e _ s

theorem send1Transfer_blind (e : Unread) (a : BitVec 7) (b : Byte) : (send1Transfer a b).Blind e :=
  ⟨fun _ => rfl, beginData_apply e b, fun _ => rfl⟩

theorem recvbTransfer_blind (e : Unread) (hm : e.mem = id) (a : BitVec 7) (n : Byte) :
    (recvbTransfer a n).Blind e := by
  refine ⟨fun _ => rfl, fun s => beginRecv_apply e (recvbAck s.idx n) s, fun s => ?_⟩
  obtain ⟨_, _, _, _, _, mem⟩ := e
  obtain rfl : mem = id := hm
  rfl

theorem configProc_apply (e : Unread) (ps : BitVec 2) (spd : SpeedClass) (s : State) :
    configProc ps spd (e.apply s) = mapNext e.apply (configProc ps spd s) := by
  have hpoint : (e.apply s).frame.point = s.frame.point := rfl
  unfold configProc
  rw [hpoint]
  cases s.frame.point <;> rfl

theorem stopProc_apply (e : Unread) (s : State) : stopProc (e.apply s) = mapNext e.apply (stopProc s) := by
  have hpoint : (e.apply s).frame.point = s.frame.point := rfl
  unfold stopProc
  rw [hpoint]
  cases s.frame.point <;> rfl

/-- ROLE writes the role and the own address, so a change of those is not kept. -/
theorem roleProc_apply (e : Unread) (hr : e.role = id) (ho : e.ownAddr = id) (r : Role) (gc : Bool) (own : Byte)
    (s : State) : roleProc r gc own (e.apply s) = mapNext e.apply (roleProc r gc own s) := by
  have hpoint : (e.apply s).frame.point = s.frame.point := rfl
  have hrecord : (e.apply s).recordRole r own = e.apply (s.recordRole r own) := by
    obtain ⟨role, ownAddr, _, _, _, _⟩ := e
    obtain rfl : role = id := hr
    obtain rfl : ownAddr = id := ho
    cases h : roleIsSlave r <;> simp [State.recordRole, Unread.apply, h]
  unfold roleProc
  rw [hpoint, hrecord]
  cases s.frame.point <;> cases roleIsSlave r <;> rfl

/-- The accept step reads none of them and overwrites only `cur`. -/
theorem accept_apply (e : Unread) (hc : e.cur = id) (i : Instr) (s : State) :
    accept i (e.apply s) = e.apply (accept i s) := by
  have hlatch : (e.apply s).latchCommand (encode i) = e.apply (s.latchCommand (encode i)) := by
    obtain ⟨_, _, _, _, cur, _⟩ := e
    obtain rfl : cur = id := hc
    rfl
  unfold accept
  rw [apply_ite e.apply, apply_ite e.apply, apply_ite e.apply, hlatch]
  rfl

/-- A command's step carries a change of fields it does not read along. -/
theorem exec_apply (e : Unread) (hc : e.cur = id) (hm : e.mem = id) (i : Instr)
    (hrole : (∃ r gc own, i = .role r gc own) → e.role = id ∧ e.ownAddr = id) (s : State) :
    exec i (e.apply s) = mapNext e.apply (exec i s) := by
  cases hb : s.busy with
  | false =>
    have hb' : (e.apply s).busy = false := hb
    rw [exec_idle i _ hb', exec_idle i s hb, accept_apply e hc]
    rfl
  | true =>
    have hb' : (e.apply s).busy = true := hb
    cases i with
    | config ps spd => rw [exec_config _ _ _ hb', exec_config _ _ s hb, configProc_apply]
    | role r gc own =>
      obtain ⟨hr, ho⟩ := hrole ⟨r, gc, own, rfl⟩
      rw [exec_role _ _ _ _ hb', exec_role _ _ _ s hb, roleProc_apply e hr ho]
    | stop => rw [exec_stop _ hb', exec_stop s hb, stopProc_apply]
    | start =>
      rw [exec_start _ hb', exec_start s hb]
      exact primitiveProc_apply e _ _ s (beginStart_apply e s)
    | addr b =>
      rw [exec_addr _ _ hb', exec_addr _ s hb]
      exact primitiveProc_apply e _ _ s (beginAddr_apply e b s)
    | data b =>
      rw [exec_data _ _ hb', exec_data _ s hb]
      exact primitiveProc_apply e _ _ s (beginData_apply e b s)
    | recv a =>
      rw [exec_recv _ _ hb', exec_recv _ s hb]
      exact primitiveProc_apply e _ _ s (beginRecv_apply e a s)
    | sendb a n =>
      rw [exec_sendb _ _ _ hb', exec_sendb _ _ s hb]
      exact composedProc_apply e _ (sendbTransfer_blind e hm a n) s
    | send1 a b =>
      rw [exec_send1 _ _ _ hb', exec_send1 _ _ s hb]
      exact composedProc_apply e _ (send1Transfer_blind e a b) s
    | recvb a n =>
      rw [exec_recvb _ _ _ hb', exec_recvb _ _ s hb]
      exact composedProc_apply e _ (recvbTransfer_blind e hm a n) s

/-- Settles O50: role and own address are such fields for every command but ROLE. -/
theorem commandsIgnoreTheRole : Obligations.CommandsIgnoreTheRole := by
  intro s i r o hi
  exact exec_apply { role := fun _ => r, ownAddr := fun _ => o } rfl rfl i
    (fun ⟨r', gc, own, h⟩ => absurd h (hi r' gc own)) s

/-! ## The host's accesses -/

theorem execSteps_map (i : Instr) (f : State → State) (hf : ∀ s, exec i (f s) = mapNext f (exec i s)) (k : Nat)
    (s : State) : execSteps i k (f s) = mapNext f (execSteps i k s) := by
  induction k generalizing s with
  | zero => rfl
  | succ k ih =>
    rw [execSteps, execSteps, hf]
    cases exec i s with
    | next t => exact ih t
    | fault r => rfl
    | refused r => rfl

/-- A host access to a busy block is dropped with OVERRUN set, ignored, or a read recorded (R61, R64). -/
theorem hostStep_of_busy (a : HostAccess) (s t : State) (hb : s.busy = true) (h : hostStep a s = .next t) :
    t = s.raiseOverrun ∨ t = s ∨ ∃ v, t = s.recordRead v := by
  cases a with
  | read addr n =>
    rw [hostStep] at h
    split at h
    case h_1 p _ =>
      cases h
      exact .inr (.inr ⟨_, rfl⟩)
    case h_2 => cases h
  | write addr n v =>
    rw [hostStep] at h
    split at h
    case h_1 p _ =>
      cases p with
      | cmd =>
        rw [hostWrite_cmd_of_busy v s hb] at h
        cases h
        exact .inl rfl
      | tx i =>
        rw [hostWrite_tx_of_busy i v s hb] at h
        cases h
        exact .inl rfl
      | _ =>
        cases h
        exact .inr (.inl rfl)
    case h_2 => cases h

/-- Settles O52: OVERRUN and the host's record are fields no command reads, so each later step carries their change
along. -/
theorem hostCannotAlterARunningCommand : Obligations.HostCannotAlterARunningCommand := by
  intro s t a hb h
  have hframe : t = { s with overrun := t.overrun, hostReads := t.hostReads } ∧
      (s.overrun = true → t.overrun = true) := by
    obtain rfl | rfl | ⟨v, rfl⟩ := hostStep_of_busy a s t hb h
    · exact ⟨rfl, fun _ => rfl⟩
    · exact ⟨rfl, id⟩
    · exact ⟨rfl, id⟩
  obtain ⟨ht, ho⟩ := hframe
  refine ⟨ht, ho, fun i k => ?_⟩
  have hmap := execSteps_map i _
    (exec_apply { overrun := fun _ => t.overrun, hostReads := fun _ => t.hostReads } rfl rfl i
      fun _ => ⟨rfl, rfl⟩) k s
  exact (congrArg (execSteps i k) ht).trans hmap

/-! ## SEND1 and SENDB of one byte -/

/-- An accepted command that needs `init` is latched, one without `init` is rejected (30_encoding.md R104). -/
theorem accept_of_needsInit (i : Instr) (s : State) (hw : i.wellFormed = true) (hn : needsInit i = true) :
    accept i s = if s.init then s.latchCommand (encode i) else s.rejectCommand .uninit := by
  cases hi : s.init <;> simp [accept, hw, hn, hi, badDivisor_of_needsInit]

/-- The transfer loop of SENDB of one byte is SEND1's, where the byte is TXBUF's first. -/
theorem loopHead_sendb_one (a : BitVec 7) (b : Byte) (s : State) (hbyte : s.txByte 0#8 = b) :
    loopHead (sendbTransfer a 1#8) s = loopHead (send1Transfer a b) s := by
  unfold loopHead
  refine if_ctx_congr Iff.rfl (fun hmore => ?_) fun _ => rfl
  have hlt : s.idx.toNat < 1 := of_decide_eq_true hmore
  have hzero : s.idx = 0#9 := BitVec.eq_of_toNat_eq (by simpa using hlt)
  have hidx : s.bufIndex = 0#8 := by
    rw [State.bufIndex, hzero]
    rfl
  show beginData ((s.enterStage .transfer).txByte (s.enterStage .transfer).bufIndex) _ = beginData b _
  congr 1
  rw [← hbyte, ← hidx]
  rfl

theorem stageReturned_sendb_one (a : BitVec 7) (b : Byte) (g : Stage) (r : Result) (s : State)
    (hbyte : s.txByte 0#8 = b) :
    stageReturned (sendbTransfer a 1#8) g r s = stageReturned (send1Transfer a b) g r s := by
  cases g with
  | start => rfl
  | address => exact if_congr Iff.rfl (loopHead_sendb_one a b { s with idx := 0#9 } hbyte) rfl
  | transfer => exact if_congr Iff.rfl (loopHead_sendb_one a b { s with idx := s.idx + 1#9 } hbyte) rfl

theorem stageArgs_sendb_one (a : BitVec 7) (b : Byte) (s : State) (hbyte : s.txByte 0#8 = b)
    (hidx : s.frame.stage = .transfer → s.idx = 0#9) :
    stageArgs (sendbTransfer a 1#8) s = stageArgs (send1Transfer a b) s := by
  unfold stageArgs
  cases hg : s.frame.stage with
  | start => rfl
  | address => rfl
  | transfer =>
    have hbuf : s.bufIndex = 0#8 := by
      rw [State.bufIndex, hidx hg]
      rfl
    show dataArgs s.cfg (s.txByte s.bufIndex) = dataArgs s.cfg b
    rw [hbuf, hbyte]

/-- One step of SENDB of one byte is SEND1's (R187). -/
theorem composedProc_sendb_one (a : BitVec 7) (b : Byte) (s : State) (hbyte : s.txByte 0#8 = b)
    (hfit : IndexFits 1 s) : composedProc (sendbTransfer a 1#8) s = composedProc (send1Transfer a b) s := by
  by_cases he : s.frame.point = .entry
  · rw [composedProc_entry _ s he, composedProc_entry _ s he]
  by_cases hs : s.frame.point = .stopped
  · rw [composedProc_stopped _ s hs, composedProc_stopped _ s hs]
  have hargs : stageArgs (sendbTransfer a 1#8) s = stageArgs (send1Transfer a b) s := by
    refine stageArgs_sendb_one a b s hbyte fun hg => BitVec.eq_of_toNat_eq ?_
    simpa using hfit.index hg hs
  unfold composedProc
  rw [if_neg he, if_neg he, if_neg hs, if_neg hs, hargs]
  cases hu : pollNext (stageArgs (send1Transfer a b) s) s with
  | running t => rfl
  | lost => rfl
  | returned r u =>
    obtain ⟨k, -⟩ := pollNext_kept _ s u (.inr ⟨r, hu⟩)
    have hbyte' : u.txByte 0#8 = b := (State.bufferByte_congr s u _ k.mem k.resets).trans hbyte
    exact congrArg Host.Outcome.next (stageReturned_sendb_one a b _ r u hbyte')

/-- The two runs side by side: they differ in the latched word and the buffers, SEND1's command is inside its
procedure, and the buffers of both are as they began. -/
structure SideBySide (m0 m : Memory) (n : Nat) (s u : State) : Prop where
  other  : u = { s with cur := u.cur, mem := m }
  mem    : s.mem = m0
  resets : s.resets = n
  point  : s.busy = true → composedPoint false s.frame = true
  index  : s.busy = true → IndexFits 1 s

theorem sideBySide_step (a : BitVec 7) (b : Byte) (m0 m : Memory) (n : Nat) (s u : State)
    (hbyte : ∀ v : State, v.mem = m → v.resets = n → v.txByte 0#8 = b) (h : SideBySide m0 m n s u) :
    ∃ t v, exec (.send1 a b) s = .next t ∧ exec (.sendb a 1#8) u = .next v ∧ SideBySide m0 m n t v := by
  obtain ⟨hother, hmem, hresets, hpoint, hindex⟩ := h
  have hbusy : u.busy = s.busy := by rw [hother]
  have hinit : u.init = s.init := by rw [hother]
  cases hb : s.busy with
  | false =>
    refine ⟨_, _, exec_idle _ s hb, exec_idle _ u (hbusy.trans hb), ?_⟩
    rw [accept_of_needsInit _ s rfl rfl, accept_of_needsInit _ u rfl rfl, hinit]
    cases s.init with
    | true =>
      refine ⟨?_, hmem, hresets, fun _ => rfl, fun _ => indexFits_of_start 1 _ rfl⟩
      rw [hother]
      rfl
    | false =>
      refine ⟨?_, hmem, hresets, fun hbt => ?_, fun hbt => ?_⟩
      · rw [hother]
        rfl
      · exact absurd (hb.symm.trans hbt) (by simp)
      · exact absurd (hb.symm.trans hbt) (by simp)
  | true =>
    have sh := send1Shape a b
    obtain ⟨t, ht⟩ := (commandsRunAtTheirOwnPositionsOnly s (.send1 a b) hb).1 (hpoint hb)
    have hproc := exec_send1 a b s hb ▸ ht
    have hfit := hindex hb
    have hfitu : IndexFits 1 u := by
      rw [hother]
      exact ⟨hfit.index, hfit.before, hfit.done⟩
    have k := composedProc_kept _ sh.keeps s t hproc
    have hu : composedProc (send1Transfer a b) u = .next { t with cur := u.cur, mem := m } := by
      have hmap := composedProc_apply { cur := fun _ => u.cur, mem := fun _ => m } _ (send1Transfer_blind _ a b) s
      rw [hproc] at hmap
      exact (congrArg _ hother).trans hmap
    refine ⟨t, _, ht, (exec_sendb a 1#8 u (hbusy.trans hb)).trans ((composedProc_sendb_one a b u ?_ hfitu).trans hu),
      rfl, ?_, k.resets.trans hresets, fun _ => composed_next_point sh s t hproc,
      fun _ => composed_indexFits sh s t hfit hproc⟩
    · exact hbyte u (by rw [hother]) (by rw [hother]; exact hresets)
    · exact (composed_mem sh s t hproc).trans ((if_neg (by simp)).trans hmem)

/-- Settles O31: the two runs stay side by side at every step. -/
theorem sendOneEqualsSendOneByteSequence : Obligations.SendOneEqualsSendOneByteSequence := by
  intro s m a7 b k hb hbyte
  have hbytes : ∀ v : State, v.mem = m → v.resets = s.resets → v.txByte 0#8 = b := fun v hm hr =>
    (State.bufferByte_congr { s with mem := m } v _ hm hr).trans hbyte
  have hrun : ∀ (k : Nat) (s1 s2 : State), SideBySide s.mem m s.resets s1 s2 →
      ∃ t1 t2, execSteps (.send1 a7 b) k s1 = .next t1 ∧ execSteps (.sendb a7 1#8) k s2 = .next t2 ∧
        SideBySide s.mem m s.resets t1 t2 := by
    intro k
    induction k with
    | zero => exact fun s1 s2 h => ⟨s1, s2, rfl, rfl, h⟩
    | succ k ih =>
      intro s1 s2 h
      obtain ⟨t, v, ht, hv, h'⟩ := sideBySide_step a7 b _ _ _ s1 s2 hbytes h
      rw [execSteps, execSteps, ht, hv]
      exact ih t v h'
  obtain ⟨t1, t2, h1, h2, hside⟩ := hrun k s { s with mem := m }
    ⟨rfl, rfl, rfl, fun hbt => by simp [hb] at hbt, fun hbt => by simp [hb] at hbt⟩
  exact ⟨t1, t2, h1, h2, hside.mem, hside.other⟩

end Sys2Proof.Machine
end

section
/-! PROOFS. Whole commands (spec/41_primitives.md R159, 42_composed.md R192): the step machine carries out each command's
procedure within its bound, as `exec` and as the machine's own steps. -/

namespace Sys2Proof.Machine

/-! ## Runs of a busy block -/

/-- `n` steps of one command, each of a busy block. -/
inductive BusyRun (i : Instr) : Nat → State → State → Prop
  | refl (s : State) : BusyRun i 0 s s
  | step {n : Nat} {s t u : State} : s.busy = true → exec i s = .next t → BusyRun i n t u → BusyRun i (n + 1) s u

theorem BusyRun.one {i : Instr} {s t : State} (hb : s.busy = true) (h : exec i s = .next t) : BusyRun i 1 s t :=
  .step hb h (.refl t)

theorem BusyRun.trans {i : Instr} {n m : Nat} {s t u : State} (h : BusyRun i n s t) (g : BusyRun i m t u) :
    BusyRun i (n + m) s u := by
  induction h with
  | refl s => rwa [Nat.zero_add]
  | step hb he _ ih =>
    rw [Nat.add_right_comm]
    exact .step hb he (ih g)

theorem BusyRun.execSteps_eq {i : Instr} {n : Nat} {s t : State} (h : BusyRun i n s t) :
    execSteps i n s = .next t := by
  induction h with
  | refl s => rfl
  | step _ he _ ih =>
    rw [execSteps, he]
    exact ih

/-- A run of a polling step is a run of its command, the block busy all along. -/
theorem busyRun_of_pollRun (i : Instr) (args : State → PollArgs)
    (hx : ∀ s s', s.busy = true → s.frame.point ≠ .entry → s.frame.point ≠ .stopped →
      pollNext (args s) s = .running s' → exec i s = .next s')
    (ha : ∀ s s', PollKept s s' → s'.frame.stage = s.frame.stage → args s' = args s)
    {p : PollArgs} {m : Nat} {s u : State} (hb : s.busy = true) (hp : args s = p) (h : PollRun p m s u) :
    BusyRun i m s u := by
  induction h with
  | refl s => exact .refl s
  | @step n s t u hnext _ ih =>
    obtain ⟨hstep, hbt, hpt, -⟩ := execSteps_of_pollRun i args hx ha p 1 s t hb hp (.step hnext (.refl t))
    rw [execSteps_one] at hstep
    exact .step hb hstep (ih hbt hpt)

/-! ## The pseudocode does not see the procedure position -/

/-- `finish` sets the position, so it does not see the one before. -/
theorem finish_of_withFrame {f : Frame} {v w : State} (r : Result) (h : v = State.withFrame f w) :
    v.finish r = w.finish r := by
  rw [h]
  rfl

theorem pollLoop_withFrame (f : Frame) (fuel : Nat) (s : State) :
    pollLoop fuel (State.withFrame f s) = ((pollLoop fuel s).1, State.withFrame f (pollLoop fuel s).2) := by
  induction fuel generalizing s with
  | zero => rfl
  | succ fuel ih =>
    have hnext := ih (s.portRead .ctrl).portWait.countPoll
    unfold pollLoop
    by_cases hseen : flagSeen s.cfg s.portAnswer = true
    · rw [if_pos hseen]
      exact if_pos hseen
    rw [if_neg hseen]
    refine (if_neg hseen).trans ?_
    by_cases hend : (s.portRead .ctrl).portWait.countPoll.pollsExhausted = true
    · rw [if_pos hend]
      exact if_pos hend
    rw [if_neg hend]
    exact (if_neg hend).trans hnext

theorem pollHead_withFrame (f : Frame) (p : PollArgs) (legal : Bool) (s : State) :
    pollHead p legal (State.withFrame f s) = State.withFrame f (pollHead p legal s) := by
  unfold pollHead
  cases p.wdata <;> rfl

theorem pollTail_withFrame (f : Frame) (p : PollArgs) (legal : Bool) (s : State) :
    pollTail p legal (State.withFrame f s) = ((pollTail p legal s).1, State.withFrame f (pollTail p legal s).2) := by
  unfold pollTail
  by_cases hm : maskedStatus s.cfg s.portAnswer ∈ p.accepts
  · rw [if_pos hm]
    exact if_pos hm
  · rw [if_neg hm]
    exact if_neg hm

theorem pollStep_withFrame (f : Frame) (p : PollArgs) (legal : Bool) (s : State) :
    pollStep p legal (State.withFrame f s) = ((pollStep p legal s).1, State.withFrame f (pollStep p legal s).2) := by
  have hcfg : (State.withFrame f s).cfg = s.cfg := rfl
  unfold pollStep
  rw [hcfg, pollHead_withFrame, pollLoop_withFrame]
  obtain ⟨seen, w⟩ := pollLoop s.cfg.maxPolls (pollHead p legal s)
  cases seen
  · rfl
  · exact pollTail_withFrame f p legal w

theorem segmentResult_withFrame (f : Frame) (p : PollArgs) (legal : Bool) (s : State) :
    segmentResult p legal (State.withFrame f s) =
      ((segmentResult p legal s).1, State.withFrame f (segmentResult p legal s).2) := by
  unfold segmentResult
  rw [pollStep_withFrame]
  obtain ⟨r, w⟩ := pollStep p legal s
  cases r with
  | success => cases p.readsRx <;> rfl
  | _ => rfl

/-! ## A polling step inside its command -/

/-- A whole polling step from its first call to the state its result is returned with (R143, R159). -/
theorem segment_busyRun (i : Instr) (args : State → PollArgs)
    (hx : ∀ s s', s.busy = true → s.frame.point ≠ .entry → s.frame.point ≠ .stopped →
      pollNext (args s) s = .running s' → exec i s = .next s')
    (ha : ∀ s s', PollKept s s' → s'.frame.stage = s.frame.stage → args s' = args s)
    (p : PollArgs) (legal : Bool) (s : State) (hl : s.cfg.Legal) (hb : s.busy = true)
    (hp : args (beginPoll p legal s) = p) (hw : p.wdata.isSome = true → p.readsRx = false) :
    ∃ m u v, m ≤ 2 * s.cfg.maxPolls + 1 ∧ BusyRun i m (beginPoll p legal s) u ∧ u.busy = true ∧ args u = p ∧
      pollNext p u = .returned (segmentResult p legal s).1 v ∧ u.frame.stage = s.frame.stage ∧
      v = State.withFrame v.frame (segmentResult p legal s).2 ∧ v.frame.stage = s.frame.stage ∧ v.busy = true ∧
      PollKept s v := by
  obtain ⟨m, u, v, hm, hrun, hret, hv, hvg, hug⟩ := segment_run p legal s hl hw
  obtain ⟨kbegin, -, -, hbbegin, -⟩ := beginPoll_kept p legal s
  obtain ⟨-, hbu, hpu, krun⟩ := execSteps_of_pollRun i args hx ha p m _ u (hbbegin.trans hb) hp hrun
  obtain ⟨kret, -, -, hbv, -⟩ := pollNext_kept p u v (.inr ⟨_, hret⟩)
  exact ⟨m, u, v, hm, busyRun_of_pollRun i args hx ha (hbbegin.trans hb) hp hrun, hbu, hpu, hret, hug, hv, hvg,
    hbv.trans hbu, (kbegin.trans krun).trans kret⟩

/-! ## The polling primitives -/

theorem primitive_busyRun {i : Instr} {args : Params → PollArgs} {start : State → State}
    {legal : Phase → Bool → Bool} (sh : PrimitiveShape i args start legal) (s : State) (hl : s.cfg.Legal)
    (hb : s.busy = true) (hp : s.frame.point = .entry) :
    ∃ n, n ≤ 2 * s.cfg.maxPolls + 3 ∧ BusyRun i n s (runCommand i s) := by
  have hfirst : exec i s = .next (start s) := (sh.exec s hb).trans (primitiveProc_entry _ start s hp)
  rw [sh.start] at hfirst
  have hx : ∀ u u', u.busy = true → u.frame.point ≠ .entry → u.frame.point ≠ .stopped →
      pollNext (args u.cfg) u = .running u' → exec i u = .next u' := fun u u' hbu he _ hu =>
    (sh.exec u hbu).trans (primitiveProc_running _ start u u' he hu)
  have hcfg : (beginPoll (args s.cfg) (legal s.phase s.dir) { s with dir := primitiveDir s.dir i }).cfg = s.cfg := by
    rw [beginPoll_eq]
  obtain ⟨m, u, v, hm, hrun, hbu, hpu, hret, -, hv, -⟩ := segment_busyRun i (fun u => args u.cfg) hx
    (fun u u' k _ => by rw [k.cfg]) (args s.cfg) (legal s.phase s.dir) { s with dir := primitiveDir s.dir i } hl hb
    (by rw [hcfg]) (sh.noByte s.cfg)
  have hpoint := (pollNext_point (args s.cfg) u (by simp [hret])).1
  have hlast : exec i u = .next (v.finish (segmentResult (args s.cfg) (legal s.phase s.dir)
      { s with dir := primitiveDir s.dir i }).1) :=
    (sh.exec u hbu).trans (primitiveProc_returned _ start u v _ hpoint (by rw [hpu]; exact hret))
  have hresult : v.finish (segmentResult (args s.cfg) (legal s.phase s.dir)
      { s with dir := primitiveDir s.dir i }).1 = runCommand i s := by
    rw [runCommand, sh.result]
    exact finish_of_withFrame _ hv
  refine ⟨1 + m + 1, ?_, ((BusyRun.one hb hfirst).trans hrun).trans (.one hbu (hresult ▸ hlast))⟩
  have hm : m ≤ 2 * s.cfg.maxPolls + 1 := hm
  omega

/-! ## The composed commands -/

/-- A composed command's polling step, from its first call to what follows its result; `w` is the state of the
pseudocode, which differs from the machine's in the position alone. -/
theorem composed_segment {i : Instr} {tr : Transfer} {judge : Phase → Bool → Bool} {reads : Bool}
    (sh : ComposedShape i tr judge reads) (p : PollArgs) (legal : Bool) (s w : State) (hl : s.cfg.Legal)
    (hb : s.busy = true) (hw : s = State.withFrame s.frame w)
    (hp : stageArgs tr (beginPoll p legal s) = p) (hnoByte : p.wdata.isSome = true → p.readsRx = false) :
    ∃ m v, m ≤ 2 * s.cfg.maxPolls + 2 ∧
      BusyRun i m (beginPoll p legal s) (stageReturned tr s.frame.stage (segmentResult p legal w).1 v) ∧
      v = State.withFrame v.frame (segmentResult p legal w).2 ∧ v.frame.stage = s.frame.stage ∧ v.busy = true ∧
      PollKept s v := by
  have hx : ∀ u u', u.busy = true → u.frame.point ≠ .entry → u.frame.point ≠ .stopped →
      pollNext (stageArgs tr u) u = .running u' → exec i u = .next u' := fun u u' hbu _ _ hu =>
    (sh.exec u hbu).trans (composedProc_running tr u u' hu)
  have ha : ∀ u u', PollKept u u' → u'.frame.stage = u.frame.stage → stageArgs tr u' = stageArgs tr u := by
    intro u u' k hg
    rw [stageArgs, stageArgs, hg, k.cfg, sh.args u u' k]
  obtain ⟨m, u, v, hm, hrun, hbu, hpu, hret, hug, hv, hvg, hbv, k⟩ :=
    segment_busyRun i (stageArgs tr) hx ha p legal s hl hb hp hnoByte
  have hres : segmentResult p legal s =
      ((segmentResult p legal w).1, State.withFrame s.frame (segmentResult p legal w).2) := by
    rw [hw]
    exact segmentResult_withFrame s.frame p legal w
  rw [hres] at hret hv
  have hlast : exec i u = .next (stageReturned tr s.frame.stage (segmentResult p legal w).1 v) := by
    rw [← hug]
    exact exec_composed_returned sh u v _ hbu (by rw [hpu]; exact hret)
  exact ⟨m + 1, v, by omega, hrun.trans (.one hbu hlast), hv, hvg, hbv, k⟩

/-- A transfer step's arguments inside it are those it began with. -/
theorem stageArgs_beginPoll_transfer {i : Instr} {tr : Transfer} {judge : Phase → Bool → Bool} {reads : Bool}
    (sh : ComposedShape i tr judge reads) (legal : Bool) (s : State) (hg : s.frame.stage = .transfer) :
    stageArgs tr (beginPoll (tr.args s) legal s) = tr.args s := by
  obtain ⟨k, -, -, -, hstage⟩ := beginPoll_kept (tr.args s) legal s
  rw [stageArgs, hstage, hg]
  exact sh.args s _ k

/-- A transfer's store does not see the procedure position. -/
theorem ComposedShape.store_withFrame {i : Instr} {tr : Transfer} {judge : Phase → Bool → Bool} {reads : Bool}
    (sh : ComposedShape i tr judge reads) {f : Frame} {v w : State} (h : v = State.withFrame f w) :
    tr.store v = State.withFrame f (tr.store w) := by
  rw [h, sh.store, sh.store]
  cases reads <;> rfl

/-- A transfer's store leaves the parameters and `busy` alone. -/
theorem ComposedShape.store_kept {i : Instr} {tr : Transfer} {judge : Phase → Bool → Bool} {reads : Bool}
    (sh : ComposedShape i tr judge reads) (s : State) :
    (tr.store s).cfg = s.cfg ∧ (tr.store s).busy = s.busy ∧ (tr.store s).frame = s.frame := by
  rw [sh.store]
  cases reads <;> exact ⟨rfl, rfl, rfl⟩

/-- One round of the transfer loop. -/
theorem transferLoop_succ (one : State → Result × State) (store : State → State) (n : Nat) (s : State) :
    transferLoop one store (n + 1) s =
      if (one s).1 = .success then
        transferLoop one store n { store (one s).2 with idx := (one s).2.idx + 1#9 }
      else one s := by
  rw [transferLoop]
  obtain ⟨r, t⟩ := one s
  cases r <;> rfl

/-- The transfer loop (R182, R188), `n` transfers to go: from the loop head to the stop that keeps the loop's result. -/
theorem transferLoop_run {i : Instr} {tr : Transfer} {judge : Phase → Bool → Bool} {reads : Bool}
    (sh : ComposedShape i tr judge reads) (n : Nat) (s w : State) (hl : s.cfg.Legal) (hb : s.busy = true)
    (hw : s = State.withFrame s.frame w) (hn : s.idx.toNat + n = tr.count) :
    let R := transferLoop (fun u => segmentResult (tr.args u) (judge u.phase u.dir) u) tr.store n w
    ∃ m v, m ≤ n * (2 * s.cfg.maxPolls + 2) ∧ BusyRun i m (loopHead tr s) (beginStop R.1 v) ∧
      v = State.withFrame v.frame R.2 ∧ v.busy = true := by
  induction n generalizing s w with
  | zero =>
    rw [loopHead_done tr s (by omega)]
    exact ⟨0, s, Nat.zero_le _, .refl _, hw, hb⟩
  | succ n ih =>
    have hlt : s.idx.toNat < tr.count := by omega
    have hargs : tr.args (s.enterStage .transfer) = tr.args w := by
      rw [hw]
      exact sh.args w _ ⟨⟨rfl, rfl, rfl, rfl, rfl, rfl, rfl, rfl, rfl⟩, rfl, rfl⟩
    have hjudge : judge s.phase s.dir = judge w.phase w.dir := by
      rw [hw]
      rfl
    rw [loopHead_more sh s hlt]
    obtain ⟨m, v, hm, hrun, hv, hvg, hbv, k⟩ := composed_segment sh (tr.args (s.enterStage .transfer))
      (judge s.phase s.dir) (s.enterStage .transfer) w hl hb (by rw [hw]; rfl)
      (stageArgs_beginPoll_transfer sh _ _ rfl) (by rw [sh.wdata, sh.readsRx]; cases reads <;> simp)
    rw [hargs, hjudge] at hrun hv ⊢
    rw [transferLoop_succ]
    generalize segmentResult (tr.args w) (judge w.phase w.dir) w = one at hrun hv ⊢
    obtain ⟨r, w1⟩ := one
    have hcfg : v.cfg = s.cfg := k.cfg
    have hbound : (n + 1) * (2 * s.cfg.maxPolls + 2) = (2 * s.cfg.maxPolls + 2) + n * (2 * s.cfg.maxPolls + 2) := by
      rw [Nat.succ_mul, Nat.add_comm]
    have hm : m ≤ 2 * s.cfg.maxPolls + 2 := hm
    by_cases hr : r = .success
    · subst hr
      obtain ⟨hstoreCfg, hstoreBusy, hstoreFrame⟩ := sh.store_kept v
      have hidx : v.idx = s.idx := k.idx
      have hw' : ({ tr.store v with idx := v.idx + 1#9 } : State) =
          State.withFrame (tr.store v).frame { tr.store w1 with idx := w1.idx + 1#9 } := by
        have hw1 : v.idx = w1.idx := by
          rw [hv]
          rfl
        rw [hw1, hstoreFrame, sh.store_withFrame hv]
        rfl
      have hn' : (v.idx + 1#9).toNat + n = tr.count := by
        rw [hidx, idx_add_one_toNat s.idx tr.count hlt sh.count_le]
        omega
      obtain ⟨m', v', hm', hrun', hv', hbv'⟩ := ih { tr.store v with idx := v.idx + 1#9 }
        { tr.store w1 with idx := w1.idx + 1#9 } (by rw [← hcfg, ← hstoreCfg] at hl; exact hl)
        (hstoreBusy.trans hbv) hw' hn'
      rw [if_pos rfl]
      refine ⟨m + m', v', ?_, hrun.trans hrun', hv', hbv'⟩
      have hm' : m' ≤ n * (2 * (tr.store v).cfg.maxPolls + 2) := hm'
      rw [hstoreCfg, hcfg] at hm'
      omega
    · rw [if_neg hr]
      rw [stageReturned_later_fail tr _ r v (by simp) hr] at hrun
      exact ⟨m, v, by omega, hrun, hv, hbv⟩

/-- The step after the stop's write ends the command as `stop_step` and `finish` do (R162, R184). -/
theorem stop_run {i : Instr} {tr : Transfer} {judge : Phase → Bool → Bool} {reads : Bool}
    (sh : ComposedShape i tr judge reads) (r : Result) {v w : State} (hb : v.busy = true)
    (hv : v = State.withFrame v.frame w) : BusyRun i 1 (beginStop r v) ((stopStep w).finish r) := by
  have hlast := (sh.exec (beginStop r v) hb).trans (composedProc_stopped tr _ rfl)
  have hend : endStop (beginStop r v) = (stopStep w).finish r := by
    rw [hv]
    rfl
  exact .one hb (hend ▸ hlast)

theorem startStep_eq_segmentResult (s : State) :
    startStep s = segmentResult (startArgs s.cfg) (startLegal s.phase) s :=
  (segmentResult_of_not_reads _ _ s rfl).symm

theorem addrStep_eq_segmentResult (b : Byte) (s : State) :
    addrStep b s = segmentResult (addrArgs s.cfg b) (addrLegal s.phase) { s with dir := slaIsRead b } :=
  (segmentResult_of_not_reads _ _ _ rfl).symm

/-- From the loop head to the end of the command. -/
theorem loop_run {i : Instr} {tr : Transfer} {judge : Phase → Bool → Bool} {reads : Bool}
    (sh : ComposedShape i tr judge reads) (s w : State) (hl : s.cfg.Legal) (hb : s.busy = true)
    (hw : s = State.withFrame s.frame w) (hn : s.idx = 0#9) :
    let R := transferLoop (fun u => segmentResult (tr.args u) (judge u.phase u.dir) u) tr.store tr.count w
    ∃ m, m ≤ tr.count * (2 * s.cfg.maxPolls + 2) + 1 ∧ BusyRun i m (loopHead tr s) ((stopStep R.2).finish R.1) := by
  intro R
  obtain ⟨m, v, hm, hrun, hv, hbv⟩ := transferLoop_run sh tr.count s w hl hb hw (by rw [hn]; exact Nat.zero_add _)
  exact ⟨m + 1, by omega, hrun.trans (stop_run sh R.1 hbv hv)⟩

/-- From the address step to the end of the command. -/
theorem address_run {i : Instr} {tr : Transfer} {judge : Phase → Bool → Bool} {reads : Bool}
    (sh : ComposedShape i tr judge reads) (s w : State) (hl : s.cfg.Legal) (hb : s.busy = true)
    (hw : s = State.withFrame s.frame w) :
    let one := fun u => segmentResult (tr.args u) (judge u.phase u.dir) u
    let A := addrStep tr.sla w
    let R := transferLoop one tr.store tr.count { A.2 with idx := 0#9 }
    let result := if A.1 = .success then (R.1, stopStep R.2) else (A.1, stopStep A.2)
    ∃ m, m ≤ (tr.count + 1) * (2 * s.cfg.maxPolls + 2) + 1 ∧
      BusyRun i m (beginAddr tr.sla (s.enterStage .address)) (result.2.finish result.1) := by
  intro one A R result
  have hA : A = segmentResult (addrArgs s.cfg tr.sla) (addrLegal s.phase) { w with dir := slaIsRead tr.sla } := by
    show addrStep tr.sla w = _
    rw [addrStep_eq_segmentResult, hw]
    rfl
  obtain ⟨m, v, hm, hrun, hv, -, hbv, k⟩ := composed_segment sh (addrArgs s.cfg tr.sla) (addrLegal s.phase)
    { s.enterStage .address with dir := slaIsRead tr.sla } { w with dir := slaIsRead tr.sla } hl hb
    (by rw [hw]; rfl) rfl (fun _ => rfl)
  rw [← hA] at hrun hv
  have hcfg : v.cfg = s.cfg := k.cfg
  have hm : m ≤ 2 * s.cfg.maxPolls + 2 := hm
  have hbound : (tr.count + 1) * (2 * s.cfg.maxPolls + 2) =
      (2 * s.cfg.maxPolls + 2) + tr.count * (2 * s.cfg.maxPolls + 2) := by
    rw [Nat.succ_mul, Nat.add_comm]
  by_cases hr : A.1 = .success
  · have hresult : result = (R.1, stopStep R.2) := if_pos hr
    obtain ⟨m', hm', hrun'⟩ := loop_run sh { v with idx := 0#9 } { A.2 with idx := 0#9 } (hcfg.symm ▸ hl) hbv
      (by rw [hv]; rfl) rfl
    rw [hresult]
    rw [hr] at hrun
    refine ⟨m + m', ?_, hrun.trans hrun'⟩
    have hm' : m' ≤ tr.count * (2 * v.cfg.maxPolls + 2) + 1 := hm'
    rw [hcfg] at hm'
    omega
  · have hresult : result = (A.1, stopStep A.2) := if_neg hr
    have hstop := stageReturned_later_fail tr .address A.1 v (by simp) hr
    rw [hresult]
    exact ⟨m + 1, by omega, (hstop ▸ hrun).trans (stop_run sh A.1 hbv hv)⟩

/-- `composedResult` with its two decisions written as such. -/
theorem composedResult_eq (sla : Byte) (n : Nat) (one : State → Result × State) (store : State → State)
    (s : State) :
    composedResult sla n one store s =
      let S := startStep { s with idx := 0#9 }
      let A := addrStep sla S.2
      let R := transferLoop one store n { A.2 with idx := 0#9 }
      if S.1 = .success then
        if A.1 = .success then (R.1, stopStep R.2) else (A.1, stopStep A.2)
      else S := by
  rw [composedResult]
  obtain ⟨r, s1⟩ := startStep { s with idx := 0#9 }
  cases r with
  | success =>
    dsimp only
    obtain ⟨r, s2⟩ := addrStep sla s1
    cases r <;> rfl
  | _ => rfl

/-- A composed command from its first step to its end (R180 to R192). -/
theorem composed_busyRun {i : Instr} {tr : Transfer} {judge : Phase → Bool → Bool} {reads : Bool}
    (sh : ComposedShape i tr judge reads) (s : State) (hl : s.cfg.Legal) (hb : s.busy = true)
    (hp : s.frame.point = .entry) :
    ∃ n, n ≤ (tr.count + 2) * (2 * s.cfg.maxPolls + 3) + 2 ∧ BusyRun i n s (runCommand i s) := by
  have hfirst := BusyRun.one hb ((sh.exec s hb).trans (composedProc_entry tr s hp))
  obtain ⟨m, v, hm, hrun, hv, -, hbv, k⟩ := composed_segment sh (startArgs s.cfg) (startLegal s.phase)
    ({ s with idx := 0#9 }.enterStage .start) { s with idx := 0#9 } hl hb rfl rfl (fun _ => rfl)
  have hS := startStep_eq_segmentResult { s with idx := 0#9 }
  rw [← hS] at hrun hv
  have hcfg : v.cfg = s.cfg := k.cfg
  have hm : m ≤ 2 * s.cfg.maxPolls + 2 := hm
  have hbound : (tr.count + 2) * (2 * s.cfg.maxPolls + 3) =
      (2 * s.cfg.maxPolls + 3) + (tr.count + 1) * (2 * s.cfg.maxPolls + 2) + (tr.count + 1) := by
    ring
  rw [runCommand, sh.result, composedResult_eq]
  by_cases hr : (startStep { s with idx := 0#9 }).1 = .success
  · obtain ⟨m', hm', hrun'⟩ := address_run sh v _ (hcfg.symm ▸ hl) hbv hv
    rw [hcfg] at hm'
    rw [hr] at hrun
    dsimp only
    rw [if_pos hr]
    exact ⟨1 + m + m', by omega, (hfirst.trans hrun).trans hrun'⟩
  · have hfail := stageReturned_start_fail tr _ v hr
    dsimp only
    rw [if_neg hr, ← finish_of_withFrame _ hv]
    exact ⟨1 + m, by omega, hfirst.trans (hfail ▸ hrun)⟩

/-! ## CONFIG, ROLE and STOP -/

theorem config_busyRun (ps : BitVec 2) (spd : SpeedClass) (s : State) (hb : s.busy = true)
    (hp : s.frame.point = .entry) : BusyRun (.config ps spd) 3 s (runCommand (.config ps spd) s) := by
  have hrun := ((BusyRun.one hb (exec_config_entry ps spd s hb hp)).trans
    (.one (by simp [hb]) (exec_config_wrotePrescale ps spd _ (by simp [hb]) (by simp)))).trans
    (.one (by simp [hb]) (exec_config_wroteBitrate ps spd _ (by simp [hb]) (by simp)))
  simpa [runCommand, commandResult, State.finish, State.callWrite, State.portWrite, State.goto, State.checkIdle,
    State.raiseSeqErr] using hrun

theorem role_busyRun (r : Role) (gc : Bool) (own : Byte) (s : State) (hb : s.busy = true)
    (hp : s.frame.point = .entry) :
    ∃ n, n ≤ 3 ∧ BusyRun (.role r gc own) n s (runCommand (.role r gc own) s) := by
  cases hr : roleIsSlave r with
  | true =>
    refine ⟨3, by omega, ?_⟩
    rw [runCommand, commandResult, if_pos hr]
    have hrun := ((BusyRun.one hb (exec_role_entry_slave r gc own s hb hp hr)).trans
      (.one (by simp [hb]) (exec_role_wroteOwnAddr r gc own _ (by simp [hb]) (by simp) hr))).trans
      (.one (by simp [hb]) (exec_role_wroteSlaveCtrl r gc own _ (by simp [hb]) (by simp) hr))
    simpa [State.finish, State.callWrite, State.portWrite, State.goto] using hrun
  | false =>
    refine ⟨1, by omega, ?_⟩
    rw [runCommand, commandResult, if_neg (by simp [hr])]
    exact .one hb (exec_role_entry_master r gc own s hb hp hr)

theorem stop_busyRun (s : State) (hb : s.busy = true) (hp : s.frame.point = .entry) :
    BusyRun .stop 2 s (runCommand .stop s) :=
  (BusyRun.one hb (exec_stop_entry s hb hp)).trans (.one hb (exec_stop_stopped _ hb rfl))

/-! ## Every command -/

theorem stepBound_primitive (c : Params) (i : Instr) (hi : isPollingPrimitive i = true) :
    stepBound c i = 2 * c.maxPolls + 3 := by
  cases i <;> simp [isPollingPrimitive] at hi <;> rfl

theorem stepBound_composed (c : Params) (i : Instr) (hi : isComposed i = true) :
    stepBound c i = (transferCount i + 2) * (2 * c.maxPolls + 3) + 2 := by
  cases i <;> simp [isComposed] at hi <;> rfl

/-- A command at its entry runs to the end its procedure computes, within its bound. -/
theorem command_busyRun (i : Instr) (s : State) (hl : s.cfg.Legal) (hb : s.busy = true)
    (hp : s.frame.point = .entry) : ∃ n, n ≤ stepBound s.cfg i ∧ BusyRun i n s (runCommand i s) := by
  obtain ⟨ps, spd, rfl⟩ | ⟨r, gc, own, rfl⟩ | rfl | hi | hi := instr_kinds i
  · exact ⟨3, le_refl 3, config_busyRun ps spd s hb hp⟩
  · exact role_busyRun r gc own s hb hp
  · exact ⟨2, le_refl 2, stop_busyRun s hb hp⟩
  · obtain ⟨args, start, legal, sh⟩ := exists_primitiveShape i hi
    rw [stepBound_primitive s.cfg i hi]
    exact primitive_busyRun sh s hl hb hp
  · obtain ⟨tr, judge, reads, sh⟩ := exists_composedShape i hi
    rw [stepBound_composed s.cfg i hi, ← sh.count]
    exact composed_busyRun sh s hl hb hp

/-- An accepted command stands at its entry, its word latched. -/
theorem accept_of_busy (i : Instr) (s : State) (hb : s.busy = false) (ha : (accept i s).busy = true) :
    accept i s = s.latchCommand (encode i) ∧ i.wellFormed = true := by
  obtain ⟨r, hrej, -⟩ | ⟨hlatch, hw, -⟩ := accept_cases i s
  · rw [hrej] at ha
    exact absurd (hb.symm.trans ha) (by simp)
  · exact ⟨hlatch, hw⟩

/-- The accept step is followed by the command's run. -/
theorem accepted_busyRun (i : Instr) (s : State) (hl : s.cfg.Legal) (hb : s.busy = false)
    (ha : (accept i s).busy = true) :
    ∃ n, n ≤ stepBound s.cfg i ∧ BusyRun i n (accept i s) (runCommand i (accept i s)) := by
  obtain ⟨hlatch, -⟩ := accept_of_busy i s hb ha
  rw [hlatch]
  exact command_busyRun i (s.latchCommand (encode i)) hl rfl rfl

/-- Settles O29: the accept step, then the command's run. -/
theorem commandRefinesItsProcedure : Obligations.CommandRefinesItsProcedure := by
  intro s i hl hb ha
  obtain ⟨n, hn, hrun⟩ := accepted_busyRun i s hl hb ha
  refine ⟨n, hn, ?_⟩
  rw [execSteps, exec_idle i s hb]
  exact hrun.execSteps_eq

/-! ## The machine's own steps -/

/-- A running command keeps the pending turns and the latched word. -/
theorem exec_turns_cur (i : Instr) (s t : State) (hb : s.busy = true) (h : exec i s = .next t) :
    t.turns = s.turns ∧ t.cur = s.cur := by
  obtain hset | hprim | hcomp := instr_frames i
  · obtain ⟨k, -⟩ := exec_setupKept s t i hset h
    exact ⟨k.turns, k.cur hb⟩
  · obtain ⟨-, -, -, -, -, -, hturns, -, -, -, -, -, -, hcur⟩ := primitiveFrame s t i hprim h
    exact ⟨hturns, hcur hb⟩
  · obtain ⟨-, -, -, -, -, hturns, -, -, hcur, -⟩ := composedFrame s t i hcomp h
    exact ⟨hturns, hcur hb⟩

theorem core_run_succ (k : Nat) (s t : State) (h : step s = .next t) :
    Sys2Proof.core.run (k + 1) s = Sys2Proof.core.run k t := by
  have hcore : Sys2Proof.core.step s = .next t := h
  simp only [Host.Core.run, hcore]

/-- With no turn pending the steps of a busy block are its latched command's. -/
theorem BusyRun.run_eq {i : Instr} {n : Nat} {s t : State} (h : BusyRun i n s t) (ht : s.turns = [])
    (hd : decodeCommand s.cur = .ok i) : Sys2Proof.core.run n s = .next t := by
  induction h with
  | refl s => rfl
  | @step n s t u hb he _ ih =>
    obtain ⟨hturns, hcur⟩ := exec_turns_cur i s t hb he
    have hstep : Machine.step s = .next t :=
      ((step_of_no_turns s ht).trans (sequencerStep_of_busy s i hb hd)).trans he
    exact (core_run_succ n s t hstep).trans (ih (hturns.trans ht) (hcur.symm ▸ hd))

/-- Settles O30: the CMD write is the accept step, and the sequencer's steps are the command's run. -/
theorem machineRunsCommandsToTheirEnd : Obligations.MachineRunsCommandsToTheirEnd := by
  intro s i hl hb hturns hframe ha
  obtain ⟨n, hn, hrun⟩ := accepted_busyRun i s hl hb ha
  obtain ⟨hlatch, hw⟩ := accept_of_busy i s hb ha
  have hidle : ({ s with busy := false, frame := Frame.start } : State) = s := by rw [← hb, ← hframe]
  have hissue : step (s.withFetchWord 32 (encode i).toNat) = .next (accept i s) := by
    refine (step_withFetchWord s i hw).trans ?_
    rw [hidle, exec_idle i s hb]
  refine ⟨n, hn, (core_run_succ n _ _ hissue).trans (hrun.run_eq ?_ ?_)⟩
  · rw [hlatch]
    exact hturns
  · rw [hlatch]
    exact decodeCommand_encode i hw

end Sys2Proof.Machine
end
